-- ==== Sys2Proof/Word.lean ====
section
/-! DEFINITION. The word types of the LEGv8 core (00_scope.md R9, R12, R13).

`uint` of the spec is `BitVec.toNat`, `sint` is `BitVec.toInt`, `sext_N` is
`BitVec.signExtend N`, `zext_N` and `trunc_N` are `BitVec.setWidth N`. -/

namespace Sys2Proof

/-- `bits64` of R13: a register, an address, the pc. -/
abbrev Word := BitVec 64

/-- A byte of data memory (R70). -/
abbrev Byte := BitVec 8

/-- A 32-bit machine word, bit 31 the most significant (R100). -/
abbrev InstrWord := BitVec 32

/-- A register number 0..31 (R31). -/
abbrev Reg := BitVec 5

/-- The register number of XZR (R32). -/
abbrev xzr : Reg := 31#5

/-- The register number of SP (R40). -/
abbrev sp : Reg := 28#5

/-- The register number of LR (R40), the one BL writes (R263). -/
abbrev lr : Reg := 30#5

end Sys2Proof
end

