-- ==== Sys2Proof/Config.lean ====
section
/-! DEFINITION. The two parameters the spec leaves open (00_scope.md R10).

BASE and SP_INIT are fields of the machine's state (`State.base`, `State.spInit`), which
no step changes, so a statement about every state holds for every value of them. The
constants here are only the values that `State.reset` starts from. -/

namespace Sys2Proof.Config

/-- BASE in `State.reset`. DESIGN CHOICE, unsafe for a claim about the reset state that
rests on the number (log 1): R10 leaves it open; this is the example value of D39. -/
def base : Word := 0x00400000#64

/-- SP_INIT in `State.reset`. DESIGN CHOICE, unsafe for a claim about the reset state that
rests on the number (log 1): R10 leaves it open; this is the example value of D39. -/
def spInit : Word := 0x7FFFFFFC#64

end Sys2Proof.Config
end

