-- ==== Sys2Proof/Syntax.lean ====
section
/-! DEFINITION. The instructions of the LEGv8 core and the data that goes with them: formats,
conditions, access widths, control signals, slots of the loaded program.

Operands are the fields of 30_encoding.md R104 to R110, each at its own width, so an
instruction term cannot hold a value its encoding does not admit. Fields that execution
ignores (R118) are not operands. -/

namespace Sys2Proof

/-- One constructor per row of spec/opcode_table.json. The last three, `cmp`, `cmpi` and
`mov`, are the table's rows that are other names of a core instruction's words
(R121, R122, R123); the decoder never returns them (log 4). -/
inductive Instr where
  -- R format (R104): Rd, Rn, Rm
  | add  (rd rn rm : Reg)
  | adds (rd rn rm : Reg)
  -- I format (R105): Rd, Rn, 12-bit immediate
  | addi  (rd rn : Reg) (imm : BitVec 12)
  | addis (rd rn : Reg) (imm : BitVec 12)
  | sub  (rd rn rm : Reg)
  | subs (rd rn rm : Reg)
  | subi  (rd rn : Reg) (imm : BitVec 12)
  | subis (rd rn : Reg) (imm : BitVec 12)
  | and  (rd rn rm : Reg)
  | ands (rd rn rm : Reg)
  | andi  (rd rn : Reg) (imm : BitVec 12)
  | andis (rd rn : Reg) (imm : BitVec 12)
  | orr  (rd rn rm : Reg)
  | orri (rd rn : Reg) (imm : BitVec 12)
  | eor  (rd rn rm : Reg)
  | eori (rd rn : Reg) (imm : BitVec 12)
  -- R format with a shift amount (R104)
  | lsl (rd rn : Reg) (shamt : BitVec 6)
  | lsr (rd rn : Reg) (shamt : BitVec 6)
  -- IM format (R107)
  | movz (rd : Reg) (hw : BitVec 2) (imm : BitVec 16)
  | movk (rd : Reg) (hw : BitVec 2) (imm : BitVec 16)
  -- D format (R106): Rt, Rn, 9-bit byte offset
  | ldur   (rt rn : Reg) (off : BitVec 9)
  | ldurb  (rt rn : Reg) (off : BitVec 9)
  | ldurh  (rt rn : Reg) (off : BitVec 9)
  | ldursw (rt rn : Reg) (off : BitVec 9)
  | stur   (rt rn : Reg) (off : BitVec 9)
  | sturb  (rt rn : Reg) (off : BitVec 9)
  | sturh  (rt rn : Reg) (off : BitVec 9)
  | sturw  (rt rn : Reg) (off : BitVec 9)
  | ldxr   (rt rn : Reg) (off : BitVec 9)
  | stxr   (rs rt rn : Reg)
  -- B format (R108): 26-bit word offset
  | b  (off : BitVec 26)
  | bl (off : BitVec 26)
  | br (rn : Reg)
  -- CB format (R109): 19-bit word offset
  | cbz  (rt : Reg) (off : BitVec 19)
  | cbnz (rt : Reg) (off : BitVec 19)
  | bEq (off : BitVec 19)
  | bNe (off : BitVec 19)
  | bHs (off : BitVec 19)
  | bLo (off : BitVec 19)
  | bMi (off : BitVec 19)
  | bPl (off : BitVec 19)
  | bVs (off : BitVec 19)
  | bVc (off : BitVec 19)
  | bHi (off : BitVec 19)
  | bLs (off : BitVec 19)
  | bGe (off : BitVec 19)
  | bLt (off : BitVec 19)
  | bGt (off : BitVec 19)
  | bLe (off : BitVec 19)
  | bAl (off : BitVec 19)
  | nop
  -- other names of core words (R121, R122, R123)
  | cmp  (rn rm : Reg)
  | cmpi (rn : Reg) (imm : BitVec 12)
  | mov  (rd rm : Reg)
  deriving DecidableEq, Repr

/-- The six formats of R101, and the form of NOP, which has no fields (R124). -/
inductive Format where
  | r | i | d | im | b | cb | none
  deriving DecidableEq, Repr

/-- The fifteen conditions of R116, in the order of their codes 0..14. -/
inductive Cond where
  | eq | ne | hs | lo | mi | pl | vs | vc | hi | ls | ge | lt | gt | le | al
  deriving DecidableEq, Repr

/-- The access widths of R78 and R80. No other width can be written down, which is why
MemoryWidthError cannot arise (R317). -/
inductive Width where
  | byte | half | word | double
  deriving DecidableEq, Repr

/-- The bytes of an access (R78). -/
abbrev Width.bytes : Width → Nat
  | .byte => 1
  | .half => 2
  | .word => 4
  | .double => 8

/-- The control-signal vector of R126. `branchTaken` is the one dynamic signal. -/
structure ControlSignals where
  reg2Loc       : Bool
  uncondBranch  : Bool
  flagBranch    : Bool
  zeroBranch    : Bool
  memRead       : Bool
  memToReg      : Bool
  memWrite      : Bool
  flagWrite     : Bool
  aluSrc        : Bool
  aluOp         : BitVec 2
  regWrite      : Bool
  aluControlOut : BitVec 4
  branchTaken   : Bool
  deriving DecidableEq, Repr

/-- One named field of a machine word with its bit range (R135). -/
structure Field where
  name  : String
  hi    : Nat
  lo    : Nat
  value : Nat
  deriving DecidableEq, Repr

/-- The machine-code breakdown of R135. -/
structure Breakdown where
  format : Format
  word   : InstrWord
  fields : List Field
  deriving DecidableEq, Repr

/-- The record that R103's Decode returns. `op` is `none` for Unknown; a field that the row does
not use is extracted all the same (R103, R118). `imm` is the assembled immediate of R111 to R115. -/
structure Decoded where
  op    : Option Instr
  fmt   : Format
  rd    : Reg
  rn    : Reg
  rm    : Reg
  rt    : Reg
  rs    : Reg
  shamt : BitVec 6
  imm   : Word
  hw    : BitVec 2
  cond  : BitVec 5
  ctrl  : ControlSignals
  deriving DecidableEq, Repr

/-- The assembler's verdict on a source line (R33, R133). -/
inductive AsmError where
  | unknownInstruction
  | invalidOperand
  deriving DecidableEq, Repr

/-- One slot of the loaded program (R33). -/
structure Slot where
  word       : InstrWord
  unresolved : Bool := false
  asmError   : Option AsmError := .none
  deriving DecidableEq, Repr

end Sys2Proof
end

