-- ==== Sys2Proof/WellFormed.lean ====
section
/-! DEFINITION. What makes an instruction term, a slot and a loaded program well-formed.

The widths of the operands are in their types; what is left to check is said here. -/

namespace Sys2Proof

/-- A well-formed machine instruction is one the decoder can return. CMP, CMPI and MOV have "no
encoding of their own" (R2): their words are SUBS, SUBIS and ORR (R121, R122, R123). -/
def Instr.wellFormed : Instr → Bool
  | .cmp _ _ => false
  | .cmpi _ _ => false
  | .mov _ _ => false
  | _ => true

/-- The words of a label branch whose offset field is the placeholder zero of R132: B, BL, CBZ,
CBNZ, or B.cond with a code 0..14. -/
def placeholderBranch (w : InstrWord) : Bool :=
  (w &&& 0x7FFFFFFF#32 == 0x14000000#32) || (w &&& 0xFEFFFFE0#32 == 0xB4000000#32) ||
    ((w &&& 0xFFFFFFE0#32 == 0x54000000#32) && decide ((w &&& 0x1F#32).toNat ≤ 14))

/-- A slot as the assembler of R127 to R133 makes it: a line with an error has word 0 and is not a
branch (R133), and `unresolved` marks only a label branch with the placeholder offset (R132).
loadProgram takes other slots too (R341), and no meaning relies on this check. -/
def Slot.wellFormed (sl : Slot) : Bool :=
  (sl.asmError == none || (sl.word == 0#32 && !sl.unresolved)) &&
    (!sl.unresolved || placeholderBranch sl.word)

/-- The constraint R10 puts on BASE and the program length N. -/
def programFits (base : Word) (n : Nat) : Bool :=
  decide (base.toNat % 4 = 0) && decide (base.toNat + 4 * n ≤ 2 ^ 64)

end Sys2Proof
end

