-- ==== Sys2Proof/Decode.lean ====
section
/-! DEFINITION. The decoder of 30_encoding.md, then the encoder, the opcode map as rows, the
control signals and the machine-code breakdown.

The opcode values, the condition numbers and the NOP word are the default table of R117, R116
and R124, which the spec itself takes from general knowledge (R11; log 3). -/

namespace Sys2Proof

/-! ## Fields of a word (R104 to R110) -/

/-- word[31:26], the opcode of the B format (R108). -/
def op6 (w : InstrWord) : BitVec 6 := w.extractLsb' 26 6
/-- word[31:24], the opcode of the CB format (R109). -/
def op8 (w : InstrWord) : BitVec 8 := w.extractLsb' 24 8
/-- word[31:23], the opcode of the IM format (R107). -/
def op9 (w : InstrWord) : BitVec 9 := w.extractLsb' 23 9
/-- word[31:22], the opcode of the I format (R105). -/
def op10 (w : InstrWord) : BitVec 10 := w.extractLsb' 22 10
/-- word[31:21], the opcode of the R and D formats (R104, R106). -/
def op11 (w : InstrWord) : BitVec 11 := w.extractLsb' 21 11
/-- word[4:0]: Rd, Rt, or the condition code of B.cond. -/
def rdField (w : InstrWord) : Reg := w.extractLsb' 0 5
/-- word[9:5]: Rn. -/
def rnField (w : InstrWord) : Reg := w.extractLsb' 5 5
/-- word[20:16]: Rm, or Rs of STXR (R110). -/
def rmField (w : InstrWord) : Reg := w.extractLsb' 16 5
/-- word[15:10]: shamt (R104). -/
def shamtField (w : InstrWord) : BitVec 6 := w.extractLsb' 10 6
/-- word[21:10]: the I-format immediate (R105). -/
def imm12Field (w : InstrWord) : BitVec 12 := w.extractLsb' 10 12
/-- word[20:12]: the D-format offset (R106). -/
def addr9Field (w : InstrWord) : BitVec 9 := w.extractLsb' 12 9
/-- word[11:10]: op2 of the D format, which must be 00 (R106, R119). -/
def op2Field (w : InstrWord) : BitVec 2 := w.extractLsb' 10 2
/-- word[22:21]: hw of the IM format (R107). -/
def hwField (w : InstrWord) : BitVec 2 := w.extractLsb' 21 2
/-- word[20:5]: the IM-format immediate (R107). -/
def imm16Field (w : InstrWord) : BitVec 16 := w.extractLsb' 5 16
/-- word[25:0]: the B-format word offset (R108). -/
def addr26Field (w : InstrWord) : BitVec 26 := w.extractLsb' 0 26
/-- word[23:5]: the CB-format word offset (R109). -/
def addr19Field (w : InstrWord) : BitVec 19 := w.extractLsb' 5 19

/-! ## Opcode values (R117) and condition codes (R116) -/

abbrev Opcode.b : BitVec 6 := 0b000101#6
abbrev Opcode.bl : BitVec 6 := 0b100101#6
abbrev Opcode.cbz : BitVec 8 := 0b10110100#8
abbrev Opcode.cbnz : BitVec 8 := 0b10110101#8
abbrev Opcode.bcond : BitVec 8 := 0b01010100#8
abbrev Opcode.movz : BitVec 9 := 0b110100101#9
abbrev Opcode.movk : BitVec 9 := 0b111100101#9
abbrev Opcode.addi : BitVec 10 := 0b1001000100#10
abbrev Opcode.addis : BitVec 10 := 0b1011000100#10
abbrev Opcode.subi : BitVec 10 := 0b1101000100#10
abbrev Opcode.subis : BitVec 10 := 0b1111000100#10
abbrev Opcode.andi : BitVec 10 := 0b1001001000#10
abbrev Opcode.andis : BitVec 10 := 0b1111001000#10
abbrev Opcode.orri : BitVec 10 := 0b1011001000#10
abbrev Opcode.eori : BitVec 10 := 0b1101001000#10
abbrev Opcode.add : BitVec 11 := 0b10001011000#11
abbrev Opcode.adds : BitVec 11 := 0b10101011000#11
abbrev Opcode.sub : BitVec 11 := 0b11001011000#11
abbrev Opcode.subs : BitVec 11 := 0b11101011000#11
abbrev Opcode.and : BitVec 11 := 0b10001010000#11
abbrev Opcode.ands : BitVec 11 := 0b11101010000#11
abbrev Opcode.orr : BitVec 11 := 0b10101010000#11
abbrev Opcode.eor : BitVec 11 := 0b11001010000#11
abbrev Opcode.lsl : BitVec 11 := 0b11010011011#11
abbrev Opcode.lsr : BitVec 11 := 0b11010011010#11
abbrev Opcode.br : BitVec 11 := 0b11010110000#11
abbrev Opcode.ldur : BitVec 11 := 0b11111000010#11
abbrev Opcode.ldurb : BitVec 11 := 0b00111000010#11
abbrev Opcode.ldurh : BitVec 11 := 0b01111000010#11
abbrev Opcode.ldursw : BitVec 11 := 0b10111000100#11
abbrev Opcode.stur : BitVec 11 := 0b11111000000#11
abbrev Opcode.sturb : BitVec 11 := 0b00111000000#11
abbrev Opcode.sturh : BitVec 11 := 0b01111000000#11
abbrev Opcode.sturw : BitVec 11 := 0b10111000000#11
abbrev Opcode.ldxr : BitVec 11 := 0b11001000010#11
abbrev Opcode.stxr : BitVec 11 := 0b11001000000#11
/-- The 11-bit opcode of the NOP word, which no other row uses (R124). -/
abbrev Opcode.nop : BitVec 11 := 0b11010101000#11
/-- The one NOP word (R124). -/
abbrev nopWord : InstrWord := 0xD503201F#32

/-- The condition codes 0..14 of R116. -/
def Cond.code : Cond → BitVec 5
  | .eq => 0 | .ne => 1 | .hs => 2 | .lo => 3 | .mi => 4 | .pl => 5 | .vs => 6 | .vc => 7
  | .hi => 8 | .ls => 9 | .ge => 10 | .lt => 11 | .gt => 12 | .le => 13 | .al => 14

/-- The condition of a 5-bit code; codes 15..31 are reserved (R116). -/
def Cond.ofCode (c : BitVec 5) : Option Cond :=
  if c = 0 then some .eq else if c = 1 then some .ne else if c = 2 then some .hs
  else if c = 3 then some .lo else if c = 4 then some .mi else if c = 5 then some .pl
  else if c = 6 then some .vs else if c = 7 then some .vc else if c = 8 then some .hi
  else if c = 9 then some .ls else if c = 10 then some .ge else if c = 11 then some .lt
  else if c = 12 then some .gt else if c = 13 then some .le else if c = 14 then some .al
  else none

/-- The B.cond instruction of a condition (R271: fifteen rows of the opcode table). -/
def Instr.bcond : Cond → BitVec 19 → Instr
  | .eq => .bEq | .ne => .bNe | .hs => .bHs | .lo => .bLo | .mi => .bMi
  | .pl => .bPl | .vs => .bVs | .vc => .bVc | .hi => .bHi | .ls => .bLs
  | .ge => .bGe | .lt => .bLt | .gt => .bGt | .le => .bLe | .al => .bAl

/-! ## The decoder (R103) -/

/-- Why a word is Unknown (R119): its opcode is not covered by R117; it is a D-format word with
op2 ≠ 00; it is a B.cond word with a code 15..31; it is in the space of the NOP row. -/
inductive UnknownWord where
  | opcodeUnused | op2NotZero | condReserved | nopSpace
  deriving DecidableEq, Repr

/-- A D-format word is its row's instruction only with op2 = 00 (R117, R119). -/
def dFormat (w : InstrWord) (i : Instr) : Except UnknownWord Instr :=
  if op2Field w = 0 then .ok i else .error .op2NotZero

/-- A B.cond word is its row's instruction only with a code 0..14 (R116, R119). -/
def condFormat (w : InstrWord) : Except UnknownWord Instr :=
  match Cond.ofCode (rdField w) with
  | some c => .ok (.bcond c (addr19Field w))
  | none => .error .condReserved

/-- The rows of the 11-bit opcodes in R format (R117). -/
def decodeR (w : InstrWord) : Option Instr :=
  let rd := rdField w
  let rn := rnField w
  let rm := rmField w
  if op11 w = Opcode.add then some (.add rd rn rm)
  else if op11 w = Opcode.adds then some (.adds rd rn rm)
  else if op11 w = Opcode.sub then some (.sub rd rn rm)
  else if op11 w = Opcode.subs then some (.subs rd rn rm)
  else if op11 w = Opcode.and then some (.and rd rn rm)
  else if op11 w = Opcode.ands then some (.ands rd rn rm)
  else if op11 w = Opcode.orr then some (.orr rd rn rm)
  else if op11 w = Opcode.eor then some (.eor rd rn rm)
  else if op11 w = Opcode.lsl then some (.lsl rd rn (shamtField w))
  else if op11 w = Opcode.lsr then some (.lsr rd rn (shamtField w))
  else if op11 w = Opcode.br then some (.br rn)
  else none

/-- The rows of the 11-bit opcodes in D format (R117), before op2 is looked at. -/
def decodeD (w : InstrWord) : Option Instr :=
  let rt := rdField w
  let rn := rnField w
  let off := addr9Field w
  if op11 w = Opcode.ldur then some (.ldur rt rn off)
  else if op11 w = Opcode.ldurb then some (.ldurb rt rn off)
  else if op11 w = Opcode.ldurh then some (.ldurh rt rn off)
  else if op11 w = Opcode.ldursw then some (.ldursw rt rn off)
  else if op11 w = Opcode.stur then some (.stur rt rn off)
  else if op11 w = Opcode.sturb then some (.sturb rt rn off)
  else if op11 w = Opcode.sturh then some (.sturh rt rn off)
  else if op11 w = Opcode.sturw then some (.sturw rt rn off)
  else if op11 w = Opcode.ldxr then some (.ldxr rt rn off)
  else if op11 w = Opcode.stxr then some (.stxr (rmField w) rt rn)
  else none

/-- The rows of the 10-bit opcodes, the I format (R117). -/
def decodeI (w : InstrWord) : Option Instr :=
  let rd := rdField w
  let rn := rnField w
  let imm := imm12Field w
  if op10 w = Opcode.addi then some (.addi rd rn imm)
  else if op10 w = Opcode.addis then some (.addis rd rn imm)
  else if op10 w = Opcode.subi then some (.subi rd rn imm)
  else if op10 w = Opcode.subis then some (.subis rd rn imm)
  else if op10 w = Opcode.andi then some (.andi rd rn imm)
  else if op10 w = Opcode.andis then some (.andis rd rn imm)
  else if op10 w = Opcode.orri then some (.orri rd rn imm)
  else if op10 w = Opcode.eori then some (.eori rd rn imm)
  else none

/-- The decoder of R103: total on every word, rejecting by name. The opcode map is prefix-free
(R101), so the order in which the prefix lengths are tried does not matter. -/
def decode (w : InstrWord) : Except UnknownWord Instr :=
  if op6 w = Opcode.b then .ok (.b (addr26Field w))
  else if op6 w = Opcode.bl then .ok (.bl (addr26Field w))
  else if op8 w = Opcode.cbz then .ok (.cbz (rdField w) (addr19Field w))
  else if op8 w = Opcode.cbnz then .ok (.cbnz (rdField w) (addr19Field w))
  else if op8 w = Opcode.bcond then condFormat w
  else if op9 w = Opcode.movz then .ok (.movz (rdField w) (hwField w) (imm16Field w))
  else if op9 w = Opcode.movk then .ok (.movk (rdField w) (hwField w) (imm16Field w))
  else match decodeI w with
    | some i => .ok i
    | none => match decodeR w with
      | some i => .ok i
      | none => match decodeD w with
        | some i => dFormat w i
        | none =>
          if op11 w = Opcode.nop then
            if w = nopWord then .ok .nop else .error .nopSpace
          else .error .opcodeUnused

/-- The host's reading of a table word: the 32 bits are the word IMEM holds (R74), and bits above
`nbits` are zero. -/
def decodeTableWord (nbits w : Nat) : Option Instr :=
  match decode (BitVec.ofNat 32 (w % 2 ^ nbits)) with
  | .ok i => some i
  | .error _ => none

/-! ## The encoder (R100: fields concatenated from the most significant down) -/

/-- R format (R104). -/
def rWord (op : BitVec 11) (rm : Reg) (shamt : BitVec 6) (rn rd : Reg) : InstrWord :=
  (op ++ rm ++ shamt ++ rn ++ rd : BitVec (11 + 5 + 6 + 5 + 5))
/-- I format (R105). -/
def iWord (op : BitVec 10) (imm : BitVec 12) (rn rd : Reg) : InstrWord :=
  (op ++ imm ++ rn ++ rd : BitVec (10 + 12 + 5 + 5))
/-- D format with op2 = 00 (R106). -/
def dWord (op : BitVec 11) (off : BitVec 9) (rn rt : Reg) : InstrWord :=
  (op ++ off ++ 0#2 ++ rn ++ rt : BitVec (11 + 9 + 2 + 5 + 5))
/-- IM format (R107). -/
def imWord (op : BitVec 9) (hw : BitVec 2) (imm : BitVec 16) (rd : Reg) : InstrWord :=
  (op ++ hw ++ imm ++ rd : BitVec (9 + 2 + 16 + 5))
/-- B format (R108). -/
def bWord (op : BitVec 6) (off : BitVec 26) : InstrWord :=
  (op ++ off : BitVec (6 + 26))
/-- CB format (R109). -/
def cbWord (op : BitVec 8) (off : BitVec 19) (rt : BitVec 5) : InstrWord :=
  (op ++ off ++ rt : BitVec (8 + 19 + 5))

/-- The core instruction whose words an instruction term has: CMP is SUBS with Rd = 31, CMPI is
SUBIS with Rd = 31, MOV is ORR with Rn = 31 (R121, R122, R123). -/
def Instr.core : Instr → Instr
  | .cmp rn rm => .subs xzr rn rm
  | .cmpi rn imm => .subis xzr rn imm
  | .mov rd rm => .orr rd xzr rm
  | i => i

/-- The word of an instruction, with zero in the fields that execution ignores (R118; log 10).
Rs of STXR is the top five bits of the address field, the other four are zero (R110). -/
def encode : Instr → InstrWord
  | .add rd rn rm => rWord Opcode.add rm 0 rn rd
  | .adds rd rn rm => rWord Opcode.adds rm 0 rn rd
  | .addi rd rn imm => iWord Opcode.addi imm rn rd
  | .addis rd rn imm => iWord Opcode.addis imm rn rd
  | .sub rd rn rm => rWord Opcode.sub rm 0 rn rd
  | .subs rd rn rm => rWord Opcode.subs rm 0 rn rd
  | .subi rd rn imm => iWord Opcode.subi imm rn rd
  | .subis rd rn imm => iWord Opcode.subis imm rn rd
  | .and rd rn rm => rWord Opcode.and rm 0 rn rd
  | .ands rd rn rm => rWord Opcode.ands rm 0 rn rd
  | .andi rd rn imm => iWord Opcode.andi imm rn rd
  | .andis rd rn imm => iWord Opcode.andis imm rn rd
  | .orr rd rn rm => rWord Opcode.orr rm 0 rn rd
  | .orri rd rn imm => iWord Opcode.orri imm rn rd
  | .eor rd rn rm => rWord Opcode.eor rm 0 rn rd
  | .eori rd rn imm => iWord Opcode.eori imm rn rd
  | .lsl rd rn sh => rWord Opcode.lsl 0 sh rn rd
  | .lsr rd rn sh => rWord Opcode.lsr 0 sh rn rd
  | .movz rd hw imm => imWord Opcode.movz hw imm rd
  | .movk rd hw imm => imWord Opcode.movk hw imm rd
  | .ldur rt rn off => dWord Opcode.ldur off rn rt
  | .ldurb rt rn off => dWord Opcode.ldurb off rn rt
  | .ldurh rt rn off => dWord Opcode.ldurh off rn rt
  | .ldursw rt rn off => dWord Opcode.ldursw off rn rt
  | .stur rt rn off => dWord Opcode.stur off rn rt
  | .sturb rt rn off => dWord Opcode.sturb off rn rt
  | .sturh rt rn off => dWord Opcode.sturh off rn rt
  | .sturw rt rn off => dWord Opcode.sturw off rn rt
  | .ldxr rt rn off => dWord Opcode.ldxr off rn rt
  | .stxr rs rt rn => dWord Opcode.stxr (rs ++ 0#4 : BitVec (5 + 4)) rn rt
  | .b off => bWord Opcode.b off
  | .bl off => bWord Opcode.bl off
  | .br rn => rWord Opcode.br 0 0 rn 0
  | .cbz rt off => cbWord Opcode.cbz off rt
  | .cbnz rt off => cbWord Opcode.cbnz off rt
  | .bEq off => cbWord Opcode.bcond off Cond.eq.code
  | .bNe off => cbWord Opcode.bcond off Cond.ne.code
  | .bHs off => cbWord Opcode.bcond off Cond.hs.code
  | .bLo off => cbWord Opcode.bcond off Cond.lo.code
  | .bMi off => cbWord Opcode.bcond off Cond.mi.code
  | .bPl off => cbWord Opcode.bcond off Cond.pl.code
  | .bVs off => cbWord Opcode.bcond off Cond.vs.code
  | .bVc off => cbWord Opcode.bcond off Cond.vc.code
  | .bHi off => cbWord Opcode.bcond off Cond.hi.code
  | .bLs off => cbWord Opcode.bcond off Cond.ls.code
  | .bGe off => cbWord Opcode.bcond off Cond.ge.code
  | .bLt off => cbWord Opcode.bcond off Cond.lt.code
  | .bGt off => cbWord Opcode.bcond off Cond.gt.code
  | .bLe off => cbWord Opcode.bcond off Cond.le.code
  | .bAl off => cbWord Opcode.bcond off Cond.al.code
  | .nop => nopWord
  | .cmp rn rm => rWord Opcode.subs rm 0 rn xzr
  | .cmpi rn imm => iWord Opcode.subis imm rn xzr
  | .mov rd rm => rWord Opcode.orr rm 0 xzr rd

/-- The bits of an instruction's word that decoding and execution ignore (the table of R118). -/
def ignoredBits : Instr → InstrWord
  | .add _ _ _ | .adds _ _ _ | .sub _ _ _ | .subs _ _ _ | .and _ _ _ | .ands _ _ _
  | .orr _ _ _ | .eor _ _ _ | .cmp _ _ | .mov _ _ => 0x0000FC00#32
  | .lsl _ _ _ | .lsr _ _ _ => 0x001F0000#32
  | .br _ => 0x001FFC1F#32
  | .stxr _ _ _ => 0x0000F000#32
  | _ => 0#32

/-! ## The opcode map as rows (R117; B.cond as fifteen rows) -/

/-- A row of R117: a word is the row's instruction iff `w &&& mask = pattern`. -/
structure OpcodeRow where
  mnemonic : String
  pattern  : InstrWord
  mask     : InstrWord
  deriving DecidableEq, Repr

/-- The row's test. -/
def OpcodeRow.matchesWord (r : OpcodeRow) (w : InstrWord) : Bool := w &&& r.mask == r.pattern

/-- The R-format rows of R117. -/
def opcodeRowsR : List OpcodeRow :=
  [⟨"ADD", 0x8B000000#32, 0xFFE00000#32⟩, ⟨"ADDS", 0xAB000000#32, 0xFFE00000#32⟩,
   ⟨"SUB", 0xCB000000#32, 0xFFE00000#32⟩, ⟨"SUBS", 0xEB000000#32, 0xFFE00000#32⟩,
   ⟨"AND", 0x8A000000#32, 0xFFE00000#32⟩, ⟨"ANDS", 0xEA000000#32, 0xFFE00000#32⟩,
   ⟨"ORR", 0xAA000000#32, 0xFFE00000#32⟩, ⟨"EOR", 0xCA000000#32, 0xFFE00000#32⟩,
   ⟨"LSL", 0xD3600000#32, 0xFFE00000#32⟩, ⟨"LSR", 0xD3400000#32, 0xFFE00000#32⟩,
   ⟨"BR", 0xD6000000#32, 0xFFE00000#32⟩]

/-- The I-format and IM-format rows of R117. -/
def opcodeRowsI : List OpcodeRow :=
  [⟨"ADDI", 0x91000000#32, 0xFFC00000#32⟩, ⟨"ADDIS", 0xB1000000#32, 0xFFC00000#32⟩,
   ⟨"SUBI", 0xD1000000#32, 0xFFC00000#32⟩, ⟨"SUBIS", 0xF1000000#32, 0xFFC00000#32⟩,
   ⟨"ANDI", 0x92000000#32, 0xFFC00000#32⟩, ⟨"ANDIS", 0xF2000000#32, 0xFFC00000#32⟩,
   ⟨"ORRI", 0xB2000000#32, 0xFFC00000#32⟩, ⟨"EORI", 0xD2000000#32, 0xFFC00000#32⟩,
   ⟨"MOVZ", 0xD2800000#32, 0xFF800000#32⟩, ⟨"MOVK", 0xF2800000#32, 0xFF800000#32⟩]

/-- The D-format rows of R117. -/
def opcodeRowsD : List OpcodeRow :=
  [⟨"LDUR", 0xF8400000#32, 0xFFE00C00#32⟩, ⟨"LDURB", 0x38400000#32, 0xFFE00C00#32⟩,
   ⟨"LDURH", 0x78400000#32, 0xFFE00C00#32⟩, ⟨"LDURSW", 0xB8800000#32, 0xFFE00C00#32⟩,
   ⟨"STUR", 0xF8000000#32, 0xFFE00C00#32⟩, ⟨"STURB", 0x38000000#32, 0xFFE00C00#32⟩,
   ⟨"STURH", 0x78000000#32, 0xFFE00C00#32⟩, ⟨"STURW", 0xB8000000#32, 0xFFE00C00#32⟩,
   ⟨"LDXR", 0xC8400000#32, 0xFFE00C00#32⟩, ⟨"STXR", 0xC8000000#32, 0xFFE00C00#32⟩]

/-- The B-format and CB-format rows of R117, and NOP. -/
def opcodeRowsB : List OpcodeRow :=
  [⟨"B", 0x14000000#32, 0xFC000000#32⟩, ⟨"BL", 0x94000000#32, 0xFC000000#32⟩,
   ⟨"CBZ", 0xB4000000#32, 0xFF000000#32⟩, ⟨"CBNZ", 0xB5000000#32, 0xFF000000#32⟩,
   ⟨"B.EQ", 0x54000000#32, 0xFF00001F#32⟩, ⟨"B.NE", 0x54000001#32, 0xFF00001F#32⟩,
   ⟨"B.HS", 0x54000002#32, 0xFF00001F#32⟩, ⟨"B.LO", 0x54000003#32, 0xFF00001F#32⟩,
   ⟨"B.MI", 0x54000004#32, 0xFF00001F#32⟩, ⟨"B.PL", 0x54000005#32, 0xFF00001F#32⟩,
   ⟨"B.VS", 0x54000006#32, 0xFF00001F#32⟩, ⟨"B.VC", 0x54000007#32, 0xFF00001F#32⟩,
   ⟨"B.HI", 0x54000008#32, 0xFF00001F#32⟩, ⟨"B.LS", 0x54000009#32, 0xFF00001F#32⟩,
   ⟨"B.GE", 0x5400000A#32, 0xFF00001F#32⟩, ⟨"B.LT", 0x5400000B#32, 0xFF00001F#32⟩,
   ⟨"B.GT", 0x5400000C#32, 0xFF00001F#32⟩, ⟨"B.LE", 0x5400000D#32, 0xFF00001F#32⟩,
   ⟨"B.AL", 0x5400000E#32, 0xFF00001F#32⟩, ⟨"NOP", 0xD503201F#32, 0xFFFFFFFF#32⟩]

/-- All 51 rows of R117. -/
def opcodeRows : List OpcodeRow := opcodeRowsR ++ opcodeRowsI ++ opcodeRowsD ++ opcodeRowsB

/-- The mnemonic of an instruction, as spec/opcode_table.json spells it. -/
def Instr.mnemonic : Instr → String
  | .add _ _ _ => "ADD" | .adds _ _ _ => "ADDS" | .addi _ _ _ => "ADDI" | .addis _ _ _ => "ADDIS"
  | .sub _ _ _ => "SUB" | .subs _ _ _ => "SUBS" | .subi _ _ _ => "SUBI" | .subis _ _ _ => "SUBIS"
  | .and _ _ _ => "AND" | .ands _ _ _ => "ANDS" | .andi _ _ _ => "ANDI" | .andis _ _ _ => "ANDIS"
  | .orr _ _ _ => "ORR" | .orri _ _ _ => "ORRI" | .eor _ _ _ => "EOR" | .eori _ _ _ => "EORI"
  | .lsl _ _ _ => "LSL" | .lsr _ _ _ => "LSR" | .movz _ _ _ => "MOVZ" | .movk _ _ _ => "MOVK"
  | .ldur _ _ _ => "LDUR" | .ldurb _ _ _ => "LDURB" | .ldurh _ _ _ => "LDURH"
  | .ldursw _ _ _ => "LDURSW" | .stur _ _ _ => "STUR" | .sturb _ _ _ => "STURB"
  | .sturh _ _ _ => "STURH" | .sturw _ _ _ => "STURW" | .ldxr _ _ _ => "LDXR"
  | .stxr _ _ _ => "STXR" | .b _ => "B" | .bl _ => "BL" | .br _ => "BR"
  | .cbz _ _ => "CBZ" | .cbnz _ _ => "CBNZ" | .bEq _ => "B.EQ" | .bNe _ => "B.NE"
  | .bHs _ => "B.HS" | .bLo _ => "B.LO" | .bMi _ => "B.MI" | .bPl _ => "B.PL"
  | .bVs _ => "B.VS" | .bVc _ => "B.VC" | .bHi _ => "B.HI" | .bLs _ => "B.LS"
  | .bGe _ => "B.GE" | .bLt _ => "B.LT" | .bGt _ => "B.GT" | .bLe _ => "B.LE"
  | .bAl _ => "B.AL" | .nop => "NOP" | .cmp _ _ => "CMP" | .cmpi _ _ => "CMPI" | .mov _ _ => "MOV"

/-- The format of an instruction (R117). -/
def Instr.format : Instr → Format
  | .add _ _ _ | .adds _ _ _ | .sub _ _ _ | .subs _ _ _ | .and _ _ _ | .ands _ _ _ | .orr _ _ _
  | .eor _ _ _ | .lsl _ _ _ | .lsr _ _ _ | .br _ | .cmp _ _ | .mov _ _ => .r
  | .addi _ _ _ | .addis _ _ _ | .subi _ _ _ | .subis _ _ _ | .andi _ _ _ | .andis _ _ _
  | .orri _ _ _ | .eori _ _ _ | .cmpi _ _ => .i
  | .movz _ _ _ | .movk _ _ _ => .im
  | .ldur _ _ _ | .ldurb _ _ _ | .ldurh _ _ _ | .ldursw _ _ _ | .stur _ _ _ | .sturb _ _ _
  | .sturh _ _ _ | .sturw _ _ _ | .ldxr _ _ _ | .stxr _ _ _ => .d
  | .b _ | .bl _ => .b
  | .cbz _ _ | .cbnz _ _ | .bEq _ | .bNe _ | .bHs _ | .bLo _ | .bMi _ | .bPl _ | .bVs _ | .bVc _
  | .bHi _ | .bLs _ | .bGe _ | .bLt _ | .bGt _ | .bLe _ | .bAl _ => .cb
  | .nop => .none

/-! ## Control signals (R126) -/

/-- All signals 0: the vector of NOP and of an Unknown word (ZERO_CTRL). -/
def zeroCtrl : ControlSignals :=
  ⟨false, false, false, false, false, false, false, false, false, 0b00, false, 0b0000, false⟩

/-- The row of R126 for an arithmetic, logical, shift or wide-move instruction. -/
def aluCtrl (flagWrite aluSrc : Bool) (code : BitVec 4) : ControlSignals :=
  { zeroCtrl with flagWrite := flagWrite, aluSrc := aluSrc, aluOp := 0b10, regWrite := true,
                  aluControlOut := code }

/-- The row of R126 for the loads. -/
def loadCtrl : ControlSignals :=
  { zeroCtrl with memRead := true, memToReg := true, aluSrc := true, aluOp := 0b00,
                  regWrite := true, aluControlOut := 0b0010 }

/-- The rows of R126 for the stores; STXR alone also writes a register. -/
def storeCtrl (regWrite : Bool) : ControlSignals :=
  { zeroCtrl with reg2Loc := true, memWrite := true, aluSrc := true, aluOp := 0b00,
                  regWrite := regWrite, aluControlOut := 0b0010 }

/-- The row of R126 for CBZ and CBNZ. -/
def zeroBranchCtrl : ControlSignals :=
  { zeroCtrl with reg2Loc := true, zeroBranch := true, aluOp := 0b01, aluControlOut := 0b0111 }

/-- The row of R126 for B.cond. -/
def flagBranchCtrl : ControlSignals := { zeroCtrl with flagBranch := true }

/-- The rows of R126 for B, BL and BR; BL alone writes a register. -/
def uncondCtrl (regWrite : Bool) : ControlSignals :=
  { zeroCtrl with uncondBranch := true, regWrite := regWrite }

/-- The static control-signal vector of R126, with `branchTaken` false. -/
def ctrlOf : Instr → ControlSignals
  | .add _ _ _ => aluCtrl false false 0b0010
  | .adds _ _ _ => aluCtrl true false 0b0010
  | .addi _ _ _ => aluCtrl false true 0b0010
  | .addis _ _ _ => aluCtrl true true 0b0010
  | .sub _ _ _ => aluCtrl false false 0b0110
  | .subs _ _ _ => aluCtrl true false 0b0110
  | .subi _ _ _ => aluCtrl false true 0b0110
  | .subis _ _ _ => aluCtrl true true 0b0110
  | .and _ _ _ => aluCtrl false false 0b0000
  | .ands _ _ _ => aluCtrl true false 0b0000
  | .andi _ _ _ => aluCtrl false true 0b0000
  | .andis _ _ _ => aluCtrl true true 0b0000
  | .orr _ _ _ => aluCtrl false false 0b0001
  | .orri _ _ _ => aluCtrl false true 0b0001
  | .eor _ _ _ => aluCtrl false false 0b0011
  | .eori _ _ _ => aluCtrl false true 0b0011
  | .lsl _ _ _ => aluCtrl false true 0b1000
  | .lsr _ _ _ => aluCtrl false true 0b1001
  | .movz _ _ _ => aluCtrl false true 0b1010
  | .movk _ _ _ => aluCtrl false true 0b1011
  | .ldur _ _ _ => loadCtrl
  | .ldurb _ _ _ => loadCtrl
  | .ldurh _ _ _ => loadCtrl
  | .ldursw _ _ _ => loadCtrl
  | .ldxr _ _ _ => loadCtrl
  | .stur _ _ _ => storeCtrl false
  | .sturb _ _ _ => storeCtrl false
  | .sturh _ _ _ => storeCtrl false
  | .sturw _ _ _ => storeCtrl false
  | .stxr _ _ _ => storeCtrl true
  | .cbz _ _ => zeroBranchCtrl
  | .cbnz _ _ => zeroBranchCtrl
  | .b _ => uncondCtrl false
  | .bl _ => uncondCtrl true
  | .br _ => uncondCtrl false
  | .bEq _ | .bNe _ | .bHs _ | .bLo _ | .bMi _ | .bPl _ | .bVs _ | .bVc _ | .bHi _ | .bLs _
  | .bGe _ | .bLt _ | .bGt _ | .bLe _ | .bAl _ => flagBranchCtrl
  | .nop => zeroCtrl
  | .cmp _ _ => aluCtrl true false 0b0110
  | .cmpi _ _ => aluCtrl true true 0b0110
  | .mov _ _ => aluCtrl false false 0b0001

/-! ## The decoder's record (R103) and the machine-code breakdown (R135) -/

/-- The assembled immediate of a format (R111 to R115): I sign-extends 12 bits, D sign-extends 9,
IM zero-extends 16, B and CB sign-extend the word offset and shift it left by 2. R103 gives no
immediate for the R format, NOP and an Unknown word; 0 here is a DESIGN CHOICE that nothing reads
(log 20). -/
def immOf (f : Format) (w : InstrWord) : Word :=
  match f with
  | .i => (imm12Field w).signExtend 64
  | .d => (addr9Field w).signExtend 64
  | .im => (imm16Field w).setWidth 64
  | .b => (addr26Field w).signExtend 64 <<< 2
  | .cb => (addr19Field w).signExtend 64 <<< 2
  | .r => 0
  | .none => 0

/-- R103's record for a word: every field is extracted, whatever the row. For an Unknown word R103
gives `op` and `ctrl` only; the other fields are a DESIGN CHOICE that nothing reads (log 20). -/
def decodeRecord (w : InstrWord) : Decoded :=
  let op : Option Instr := match decode w with | .ok i => some i | .error _ => none
  let fmt := match op with | some i => i.format | none => .none
  { op := op, fmt := fmt, rd := rdField w, rn := rnField w, rm := rmField w, rt := rdField w,
    rs := rmField w, shamt := shamtField w, imm := immOf fmt w, hw := hwField w,
    cond := rdField w, ctrl := match op with | some i => ctrlOf i | none => zeroCtrl }

/-- A field of a word with its bit range. -/
def fieldAt (w : InstrWord) (name : String) (hi lo : Nat) : Field :=
  ⟨name, hi, lo, (w.extractLsb' lo (hi + 1 - lo)).toNat⟩

/-- The fields of a format, most significant first (R104 to R109, R135). -/
def fieldsOf (f : Format) (w : InstrWord) : List Field :=
  match f with
  | .r => [fieldAt w "opcode" 31 21, fieldAt w "Rm" 20 16, fieldAt w "shamt" 15 10,
           fieldAt w "Rn" 9 5, fieldAt w "Rd" 4 0]
  | .i => [fieldAt w "opcode" 31 22, fieldAt w "imm" 21 10, fieldAt w "Rn" 9 5,
           fieldAt w "Rd" 4 0]
  | .d => [fieldAt w "opcode" 31 21, fieldAt w "address" 20 12, fieldAt w "op2" 11 10,
           fieldAt w "Rn" 9 5, fieldAt w "Rt" 4 0]
  | .im => [fieldAt w "opcode" 31 23, fieldAt w "hw" 22 21, fieldAt w "imm" 20 5,
            fieldAt w "Rd" 4 0]
  | .b => [fieldAt w "opcode" 31 26, fieldAt w "address" 25 0]
  | .cb => [fieldAt w "opcode" 31 24, fieldAt w "address" 23 5, fieldAt w "Rt" 4 0]
  | .none => []

/-- The machine-code breakdown of a word (R135); an Unknown word and NOP have no fields. -/
def breakdown (w : InstrWord) : Breakdown :=
  let fmt := match decode w with | .ok i => i.format | .error _ => .none
  ⟨fmt, w, fieldsOf fmt w⟩

end Sys2Proof
end

