-- ==== Sys2Proof/Machine/State.lean ====
section
/-! DEFINITION. The architectural state of the LEGv8 core (10_state.md R30), the reasons a step can
stop, and the state after reset (R45). -/

namespace Sys2Proof.Machine

/-- The four flags (R35). -/
structure Flags where
  z : Bool
  n : Bool
  c : Bool
  v : Bool
  deriving DecidableEq, Repr

/-- The exclusive monitor of LDXR and STXR (R37). -/
structure Exclusive where
  valid : Bool
  addr  : Word
  deriving DecidableEq, Repr

/-- The run status (R38). -/
inductive Status where
  | running
  | halted
  | faulted
  deriving DecidableEq, Repr

/-- The event kinds of 60_exceptions.md R310. `memoryWidthError` is never raised (R317). -/
inductive EventKind where
  | unknownInstruction
  | invalidOperand
  | unresolvedLabel
  | invalidBranchTarget
  | memoryWidthError
  deriving DecidableEq, Repr

/-- What an event records beside its pc (R310). -/
inductive EventInfo where
  | none
  | word (w : InstrWord)
  | target (t : Word)
  deriving DecidableEq, Repr

/-- An event of the trace (R36); its code and name are functions of its kind. -/
structure Event where
  kind : EventKind
  pc   : Word
  info : EventInfo
  deriving DecidableEq, Repr

/-- The snapshot of the instruction the latest step executed (R39). -/
structure Snapshot where
  index : Nat
  word  : InstrWord
  ctrl  : ControlSignals
  deriving DecidableEq, Repr

/-- Data memory: the bytes that are not zero, addresses strictly rising (R70; log 11). -/
abbrev Memory := List Host.Cell

/-- The architectural state of R30 with the loaded program IMEM (R33) and the parameters BASE and
SP_INIT (R10). N is the length of `imem`. Register 31 has no storage (R32), so `x` holds X0..X30. -/
structure State where
  x      : Vector Word 31
  flags  : Flags
  pc     : Word
  mem    : Memory
  excl   : Exclusive
  status : Status
  trace  : List Event
  last   : Option Snapshot
  imem   : List Slot
  base   : Word
  spInit : Word
  deriving DecidableEq, Repr

/-- The reasons the machine stops. -/
inductive Fault where
  /-- Raised by `State.issue` in a Running state whose pc is not the address of a slot. The spec
  says there is no such state (R34, R42); `State.Inv` rules it out. Safe: the model stops where
  the spec gives no rule (log 5). -/
  | noSlotAtPc
  deriving DecidableEq, Repr

/-- The reasons the model gives no meaning. -/
inductive Refusal where
  /-- Raised by an arm of `exec` whose instruction has no meaning yet. Safe: the model stops. No
  arm is left so. -/
  | notModelled (mnemonic : String)
  deriving DecidableEq, Repr

/-- What a meaning and a step answer. -/
abbrev Result := Host.Outcome State Fault Refusal

/-- What a step is about to do (the branches of R42): nothing, stop, skip a slot, or run an
instruction from the state in which the snapshot is already taken. -/
inductive Issue where
  | idle
  | stuck (r : Fault)
  | skip (t : State)
  | run (i : Instr) (t : State)
  deriving DecidableEq, Repr

/-- The general registers at reset: 0, but X28 holds SP_INIT (R45). -/
def resetRegs (spInit : Word) : Vector Word 31 := (Vector.replicate 31 0#64).set 28 spInit

/-- Every piece of state at its reset value of R45, with a program loaded. -/
def State.initial (base spInit : Word) (imem : List Slot) : State :=
  { x := resetRegs spInit
    flags := ⟨false, false, false, false⟩
    pc := base
    mem := []
    excl := ⟨false, 0#64⟩
    status := if imem.length = 0 then .halted else .running
    trace := []
    last := none
    imem := imem
    base := base
    spInit := spInit }

/-- The machine right after reset with no program loaded, so N = 0 and the status is Halted (R45).
BASE and SP_INIT are the values of Config (log 1); a program is loaded from outside (log 2). -/
def State.reset : State := State.initial Config.base Config.spInit []

end Sys2Proof.Machine
end

