-- ==== Sys2Proof/Machine/Flags.lean ====
section
/-! DEFINITION. The flag computations of 40_alu.md R162 to R164, the ALU of R160 and the
conditions of 42_branch.md R270. -/

namespace Sys2Proof.Machine

/-- Additive flags (R162). C is the source's rule, "unsigned(result) < unsigned(opA) OR
unsigned(result) < unsigned(opB)"; V is the sign bit of `(a ⊕ r) & (b ⊕ r)`. -/
def addFlags (a b r : Word) : Flags :=
  { z := r == 0
    n := r.msb
    c := decide (r.toNat < a.toNat) || decide (r.toNat < b.toNat)
    v := ((a ^^^ r) &&& (b ^^^ r)).msb }

/-- Subtractive flags (R163). C is no borrow, compared unsigned (90_conflicts.md C3); V is the
sign bit of `(a ⊕ b) & (a ⊕ r)`. -/
def subFlags (a b r : Word) : Flags :=
  { z := r == 0
    n := r.msb
    c := decide (b.toNat ≤ a.toNat)
    v := ((a ^^^ b) &&& (a ^^^ r)).msb }

/-- Logical flags: C and V are forced to 0 (R164). -/
def logicFlags (r : Word) : Flags := { z := r == 0, n := r.msb, c := false, v := false }

/-- The operations of the ALU (R160). -/
inductive AluOp where
  | add | sub | and | orr | eor
  deriving DecidableEq, Repr

/-- The 64-bit result of the ALU, arithmetic modulo 2^64 (R160, R165). -/
def AluOp.result : AluOp → Word → Word → Word
  | .add, a, b => a + b
  | .sub, a, b => a - b
  | .and, a, b => a &&& b
  | .orr, a, b => a ||| b
  | .eor, a, b => a ^^^ b

/-- The flags of the ALU (R160, R162 to R164). -/
def AluOp.flags : AluOp → Word → Word → Flags
  | .add, a, b => addFlags a b (a + b)
  | .sub, a, b => subFlags a b (a - b)
  | .and, a, b => logicFlags (a &&& b)
  | .orr, a, b => logicFlags (a ||| b)
  | .eor, a, b => logicFlags (a ^^^ b)

/-- Cond(c, F) of R270. -/
def condHolds : Cond → Flags → Bool
  | .eq, f => f.z
  | .ne, f => !f.z
  | .hs, f => f.c
  | .lo, f => !f.c
  | .mi, f => f.n
  | .pl, f => !f.n
  | .vs, f => f.v
  | .vc, f => !f.v
  | .hi, f => f.c && !f.z
  | .ls, f => !(f.c && !f.z)
  | .ge, f => f.n == f.v
  | .lt, f => f.n != f.v
  | .gt, f => !f.z && (f.n == f.v)
  | .le, f => f.z || (f.n != f.v)
  | .al, _ => true

end Sys2Proof.Machine
end

