-- ==== Sys2Proof/Machine/Ops.lean ====
section
/-! DEFINITION. The named operations over registers, data memory, the pc, the trace and the program,
which every meaning is written with. -/

namespace Sys2Proof.Machine

/-! ## Data memory (20_memory.md R70 to R72) -/

/-- The byte at an address; a byte never written reads 0 (R70). -/
def readByte : Memory → Nat → Byte
  | [], _ => 0
  | (k, b) :: rest, a => if k = a then b else readByte rest a

/-- The memory without its cell at an address. -/
def eraseByte : Memory → Nat → Memory
  | [], _ => []
  | (k, b) :: rest, a => if k = a then eraseByte rest a else (k, b) :: eraseByte rest a

/-- Puts a cell before the first cell with a higher address. -/
def insertByte : Memory → Nat → Byte → Memory
  | [], a, v => [(a, v)]
  | (k, b) :: rest, a, v =>
    if a < k then (a, v) :: (k, b) :: rest else (k, b) :: insertByte rest a v

/-- Sets the byte at an address. Writing 0, what an unlisted address reads as, leaves no cell. -/
def writeByte (m : Memory) (a : Nat) (v : Byte) : Memory :=
  if v = 0 then eraseByte m a else insertByte (eraseByte m a) a v

/-- The canonical form: every cell lies at or above `lo` and below 2^64, addresses strictly rise,
and no listed byte is 0. -/
def Memory.wfFrom : Nat → Memory → Bool
  | _, [] => true
  | lo, (k, b) :: rest =>
    decide (lo ≤ k) && decide (k < 2 ^ 64) && decide (b ≠ 0) && Memory.wfFrom (k + 1) rest

/-- The canonical form of data memory. -/
def Memory.wf (m : Memory) : Bool := Memory.wfFrom 0 m

/-- MemRead of R71: `M[a + (n-1)] ++ … ++ M[a + 1] ++ M[a]`, addresses modulo 2^64. -/
def memRead (m : Memory) (a : Word) : (n : Nat) → BitVec (8 * n)
  | 0 => 0#0
  | n + 1 => (memRead m (a + 1) n ++ readByte m a.toNat : BitVec (8 * n + 8))

/-- MemWrite of R72: byte k of the value goes to address a + k, modulo 2^64. -/
def memWrite (m : Memory) (a : Word) : (n : Nat) → BitVec (8 * n) → Memory
  | 0, _ => m
  | n + 1, v =>
    memWrite (writeByte m a.toNat (v.setWidth 8)) (a + 1) n (v.extractLsb' 8 (8 * n))

/-! ## Registers and flags -/

/-- `x[i]` of R14: register 31 reads 0 (R32). -/
def State.readReg (s : State) (r : Reg) : Word :=
  if h : r.toNat < 31 then s.x[r.toNat] else 0

/-- `x[i] <- v` of R14: a write to register 31 is discarded (R32). -/
def State.writeReg (s : State) (r : Reg) (v : Word) : State :=
  if h : r.toNat < 31 then { s with x := s.x.set r.toNat v } else s

/-- Writes the four flags together (R46, R161). -/
def State.setFlags (s : State) (f : Flags) : State := { s with flags := f }

/-! ## Loads, stores and the monitor -/

/-- The value of an access of a width at an effective address (R71, R80). -/
def State.load (s : State) (w : Width) (ea : Word) : BitVec (8 * w.bytes) :=
  memRead s.mem ea w.bytes

/-- A store of a width at an effective address (R72); it does not touch the monitor (R242). -/
def State.store (s : State) (w : Width) (ea : Word) (v : BitVec (8 * w.bytes)) : State :=
  { s with mem := memWrite s.mem ea w.bytes v }

/-- LDXR's reservation (R240); it replaces an earlier one. -/
def State.reserve (s : State) (ea : Word) : State := { s with excl := ⟨true, ea⟩ }

/-- `excl.valid <- false` of R241; the address stays. -/
def State.clearReservation (s : State) : State := { s with excl := { s.excl with valid := false } }

/-! ## The program and the pc -/

/-- ValidTarget of 42_branch.md R260: the target is the address of a slot. -/
def State.validTarget (s : State) (t : Word) : Bool :=
  decide (s.base.toNat ≤ t.toNat ∧ (t.toNat - s.base.toNat) % 4 = 0 ∧
    (t.toNat - s.base.toNat) / 4 < s.imem.length)

/-- The current instruction index, (pc − BASE)/4 (R34), by 64-bit subtraction (log 6). -/
def State.index (s : State) : Nat := (s.pc - s.base).toNat / 4

/-- BASE + 4·N, one past the last slot (R43), as the 64-bit pc holds it (log 6). -/
def State.endAddr (s : State) : Word := s.base + BitVec.ofNat 64 (4 * s.imem.length)

/-- The slot the pc addresses (R33, R42), if there is one. -/
def State.slotHere? (s : State) : Option Slot :=
  if s.validTarget s.pc then s.imem[s.index]? else none

/-- The unresolved bit of the slot the pc addresses (R33, R261; log 9). -/
def State.unresolvedHere (s : State) : Bool :=
  match s.slotHere? with
  | some sl => sl.unresolved
  | none => false

/-- The slot at an address of the program (R33), if there is one. -/
def State.slotAt? (s : State) (a : Word) : Option Slot := State.slotHere? { s with pc := a }

/-- Sequential advance (R42): pc <- pc + 4. -/
def State.advance (s : State) : State := { s with pc := s.pc + 4 }

/-- A register result and sequential advance, the write set of the plain instructions. -/
def State.writeResult (s : State) (rd : Reg) (v : Word) : State := (s.writeReg rd v).advance

/-- A register result, the four flags and sequential advance; the flags are written also when the
destination is XZR (R161, R166). -/
def State.writeResultFlags (s : State) (rd : Reg) (v : Word) (f : Flags) : State :=
  ((s.writeReg rd v).setFlags f).advance

/-! ## Events (R36, R310, R311): what this hardware has in place of exceptions (R319) -/

/-- The numeric code of an event (R310). -/
def EventKind.code : EventKind → Nat
  | .unknownInstruction => 1
  | .invalidOperand => 2
  | .unresolvedLabel => 3
  | .invalidBranchTarget => 4
  | .memoryWidthError => 5

/-- The name of an event (R310). -/
def EventKind.name : EventKind → String
  | .unknownInstruction => "UnknownInstruction"
  | .invalidOperand => "InvalidOperand"
  | .unresolvedLabel => "UnresolvedLabel"
  | .invalidBranchTarget => "InvalidBranchTarget"
  | .memoryWidthError => "MemoryWidthError"

/-- The word that R310's row records with an UnknownInstruction event, whichever of its two causes
raised it: the word in the event, or, for an assembler-marked slot, whose event R42 raises with the
pc only, the word of the slot at that pc, which no step changes (R33; log 8). -/
def State.eventWord? (s : State) (e : Event) : Option InstrWord :=
  match e.kind, e.info with
  | .unknownInstruction, .word w => some w
  | .unknownInstruction, _ => (s.slotAt? e.pc).map (·.word)
  | _, _ => none

/-- The event of an assembler error (R314). -/
def asmErrorKind : AsmError → EventKind
  | .unknownInstruction => .unknownInstruction
  | .invalidOperand => .invalidOperand

/-- `raise E(info)` for a non-fatal event (R16): it is appended to the trace with the pc. -/
def State.raise (s : State) (k : EventKind) (info : EventInfo) : State :=
  { s with trace := s.trace ++ [⟨k, s.pc, info⟩] }

/-- The fatal event InvalidBranchTarget (R313): it is appended to the trace, the status becomes
Faulted, the pc stays at the branch, and no write of the instruction is applied. -/
def State.invalidBranchTarget (s : State) (t : Word) : State :=
  { s.raise .invalidBranchTarget (.target t) with status := .faulted }

/-! ## Branches (R260, R261, R265) -/

/-- Sets the dynamic signal branchTaken in the snapshot of the running instruction (R42). -/
def State.markTaken (s : State) : State :=
  { s with last := s.last.map fun l => { l with ctrl := { l.ctrl with branchTaken := true } } }

/-- pc <- t with branchTaken (R42, R260). -/
def State.jump (s : State) (t : Word) : State := { s.markTaken with pc := t }

/-- `Taken(t, W)` of R42: `written` is `s` with the writes W. They are applied only if the target
is valid (R260). -/
def State.taken (s : State) (t : Word) (written : State) : State :=
  if s.validTarget t then written.jump t else s.invalidBranchTarget t

/-- A label branch whose slot is unresolved falls through with a warning and no write (R261). -/
def State.fallThroughUnresolved (s : State) : State := (s.raise .unresolvedLabel .none).advance

/-- A label branch: unresolved, taken to `t`, or not taken (R261, R265). -/
def State.labelBranch (s : State) (take : Bool) (t : Word) (written : State) : State :=
  if s.unresolvedHere then s.fallThroughUnresolved
  else if take then s.taken t written
  else s.advance

/-! ## The step around an instruction (R42) -/

/-- `s.last <- {index, word, ctrl}` (R39, R42). -/
def State.snapshot (s : State) (word : InstrWord) (ctrl : ControlSignals) : State :=
  { s with last := some ⟨s.index, word, ctrl⟩ }

/-- A slot with an assembler error is skipped with its event (R314, R42). -/
def State.skipAsmError (s : State) (sl : Slot) (e : AsmError) : State :=
  ((s.snapshot sl.word zeroCtrl).raise (asmErrorKind e) .none).advance

/-- An Unknown word acts as NOP and raises UnknownInstruction (R301, R312). -/
def State.skipUnknown (s : State) (sl : Slot) : State :=
  ((s.snapshot sl.word zeroCtrl).raise .unknownInstruction (.word sl.word)).advance

/-- What the step does with a slot, in the order of R318: the assembler error first, then the
Unknown word, then the instruction. -/
def State.issueSlot (s : State) (sl : Slot) : Issue :=
  match sl.asmError with
  | some e => .skip (s.skipAsmError sl e)
  | none =>
    match decode sl.word with
    | .error _ => .skip (s.skipUnknown sl)
    | .ok i => .run i (s.snapshot sl.word (ctrlOf i))

/-- The start of a step (R42): nothing in status Halted or Faulted (R38), else the slot at the pc. -/
def State.issue (s : State) : Issue :=
  if s.status = .running then
    match s.slotHere? with
    | some sl => s.issueSlot sl
    | none => .stuck .noSlotAtPc
  else .idle

/-- The signal branchTaken of the step that took the snapshot: R42's local `ctrl.branchTaken`. -/
def State.tookBranch (s : State) : Bool :=
  match s.last with
  | some l => l.ctrl.branchTaken
  | none => false

/-- The end of a step (R42, R43): a Running state halts when sequential advance took its pc to one
past the last slot. A taken branch goes to the address of a slot, which as a number is below
BASE + 4·N, so it never ends the run; the test says so because the 64-bit pc cannot tell
BASE + 4·N = 2^64 from 0 (log 6). -/
def State.retire (s : State) : State :=
  if s.status = .running ∧ s.tookBranch = false ∧ s.pc = s.endAddr then
    { s with status := .halted }
  else s

/-- What a step from `before` leaves once its instruction has answered `after`: R42's end test. The
snapshot of the instruction stands in `after` also on the fatal step, as R42 assigns it; `before`
still has the earlier one, which R313's words would keep (log 7). -/
def State.closeStep (_before after : State) : State := after.retire

/-- A program slot that holds a word, with no side-band bit set. -/
def plainSlot (w : InstrWord) : Slot := ⟨w, false, none⟩

/-- The word placed where the next step fetches: in the slot at the pc, or, where the pc addresses
no slot, in a one-slot program entered at BASE (log 2). -/
def State.placeWord (s : State) (w : InstrWord) : State :=
  if s.validTarget s.pc then
    { s with imem := s.imem.set s.index (plainSlot w), status := .running }
  else { s with imem := [plainSlot w], pc := s.base, status := .running }

end Sys2Proof.Machine
end

