-- ==== Sys2Proof/Machine/Operands.lean ====
section
/-! DEFINITION. The operand forms of 30_encoding.md R111 to R115, 40_alu.md R190 to R196 and
41_loadstore.md R220. -/

namespace Sys2Proof.Machine

/-- The I-format immediate, sign-extended for arithmetic and logic alike (R111). -/
def immI (imm : BitVec 12) : Word := imm.signExtend 64

/-- The D-format byte offset, sign-extended and not scaled (R112, R220). -/
def immD (off : BitVec 9) : Word := off.signExtend 64

/-- The effective address `x[Rn] + sext_64(off)`, modulo 2^64 (R220, R82). -/
def State.ea (s : State) (rn : Reg) (off : BitVec 9) : Word := s.readReg rn + immD off

/-- The shift of a wide move, 16·hw (R113). -/
def wideShift (hw : BitVec 2) : Nat := 16 * hw.toNat

/-- MOVZ's value: the immediate in its halfword, zero elsewhere (R195). -/
def wideZero (hw : BitVec 2) (imm : BitVec 16) : Word := imm.setWidth 64 <<< wideShift hw

/-- MOVK's value: the immediate in its halfword, the old value elsewhere (R196). -/
def wideKeep (old : Word) (hw : BitVec 2) (imm : BitVec 16) : Word :=
  (old &&& ~~~(0xFFFF#64 <<< wideShift hw)) ||| (imm.setWidth 64 <<< wideShift hw)

/-- The target of B and BL: pc plus four times the signed 26-bit offset, modulo 2^64 (R114). -/
def State.target26 (s : State) (off : BitVec 26) : Word := s.pc + off.signExtend 64 <<< 2

/-- The target of CBZ, CBNZ and B.cond: pc plus four times the signed 19-bit offset (R115). -/
def State.target19 (s : State) (off : BitVec 19) : Word := s.pc + off.signExtend 64 <<< 2

/-- LSL: the bits shifted out are lost (R190). -/
def shiftLeft (a : Word) (shamt : BitVec 6) : Word := a <<< shamt.toNat

/-- LSR: zero-filling (R191). -/
def shiftRight (a : Word) (shamt : BitVec 6) : Word := a >>> shamt.toNat

end Sys2Proof.Machine
end

