-- ==== Sys2Proof/Machine/Arith.lean ====
section
/-! DEFINITION. The ALU instructions' shared operation, and the add, subtract and compare instructions
(40_alu.md R170 to R179). -/

namespace Sys2Proof.Machine

/-- `x[Rd] <- op(x[Rn], operand2)` with no flag written (R160). -/
def State.aluOp (s : State) (op : AluOp) (rd : Reg) (a b : Word) : State :=
  s.writeResult rd (op.result a b)

/-- `x[Rd] <- op(x[Rn], operand2)` with the four flags written (R160, R161). -/
def State.aluOpFlags (s : State) (op : AluOp) (rd : Reg) (a b : Word) : State :=
  s.writeResultFlags rd (op.result a b) (op.flags a b)

/-- ADD (R170): `x[Rd] <- x[Rn] + x[Rm]`. -/
def execAdd (rd rn rm : Reg) (s : State) : Result :=
  .next (s.aluOp .add rd (s.readReg rn) (s.readReg rm))

/-- ADDS (R171): `x[Rd] <- x[Rn] + x[Rm]`, flags of R162. -/
def execAdds (rd rn rm : Reg) (s : State) : Result :=
  .next (s.aluOpFlags .add rd (s.readReg rn) (s.readReg rm))

/-- ADDI (R172): `x[Rd] <- x[Rn] + imm`. -/
def execAddi (rd rn : Reg) (imm : BitVec 12) (s : State) : Result :=
  .next (s.aluOp .add rd (s.readReg rn) (immI imm))

/-- ADDIS (R173): `x[Rd] <- x[Rn] + imm`, flags of R162. -/
def execAddis (rd rn : Reg) (imm : BitVec 12) (s : State) : Result :=
  .next (s.aluOpFlags .add rd (s.readReg rn) (immI imm))

/-- SUB (R174): `x[Rd] <- x[Rn] − x[Rm]`. -/
def execSub (rd rn rm : Reg) (s : State) : Result :=
  .next (s.aluOp .sub rd (s.readReg rn) (s.readReg rm))

/-- SUBS (R175): `x[Rd] <- x[Rn] − x[Rm]`, flags of R163. -/
def execSubs (rd rn rm : Reg) (s : State) : Result :=
  .next (s.aluOpFlags .sub rd (s.readReg rn) (s.readReg rm))

/-- SUBI (R176): `x[Rd] <- x[Rn] − imm`. -/
def execSubi (rd rn : Reg) (imm : BitVec 12) (s : State) : Result :=
  .next (s.aluOp .sub rd (s.readReg rn) (immI imm))

/-- SUBIS (R177): `x[Rd] <- x[Rn] − imm`, flags of R163. -/
def execSubis (rd rn : Reg) (imm : BitVec 12) (s : State) : Result :=
  .next (s.aluOpFlags .sub rd (s.readReg rn) (immI imm))

/-- CMP (R178): `F <- SubFlags(x[Rn], x[Rm], x[Rn] − x[Rm])`; no register is written. -/
def execCmp (rn rm : Reg) (s : State) : Result :=
  .next ((s.setFlags (AluOp.sub.flags (s.readReg rn) (s.readReg rm))).advance)

/-- CMPI (R179): `F <- SubFlags(x[Rn], imm, x[Rn] − imm)`; no register is written. -/
def execCmpi (rn : Reg) (imm : BitVec 12) (s : State) : Result :=
  .next ((s.setFlags (AluOp.sub.flags (s.readReg rn) (immI imm))).advance)

end Sys2Proof.Machine
end

