-- ==== Sys2Proof/Machine/Branch.lean ====
section
/-! DEFINITION. The branch and condition-code unit: 42_branch.md R262 to R267, R271. -/

namespace Sys2Proof.Machine

/-- B (R262): `Taken(pc + (sext_64(off) << 2), no write)`. -/
def execB (off : BitVec 26) (s : State) : Result :=
  .next (s.labelBranch true (s.target26 off) s)

/-- BL (R263): as B, with the link `x[30] <- pc + 4`, which an invalid target drops (R260). -/
def execBl (off : BitVec 26) (s : State) : Result :=
  .next (s.labelBranch true (s.target26 off) (s.writeReg lr (s.pc + 4)))

/-- BR (R264): `Taken(x[Rn], no write)`; it has no label, so the unresolved bit does not apply. -/
def execBr (rn : Reg) (s : State) : Result :=
  .next (s.taken (s.readReg rn) s)

/-- CBZ (R266): taken iff all 64 bits of x[Rt] are 0. -/
def execCbz (rt : Reg) (off : BitVec 19) (s : State) : Result :=
  .next (s.labelBranch (s.readReg rt == 0) (s.target19 off) s)

/-- CBNZ (R267): taken iff x[Rt] is not 0. -/
def execCbnz (rt : Reg) (off : BitVec 19) (s : State) : Result :=
  .next (s.labelBranch (s.readReg rt != 0) (s.target19 off) s)

/-- B.cond (R271): taken iff Cond(c, F) holds; the flags are only read. -/
def State.condBranch (s : State) (c : Cond) (off : BitVec 19) : State :=
  s.labelBranch (condHolds c s.flags) (s.target19 off) s

/-- B.EQ (R271). -/
def execBEq (off : BitVec 19) (s : State) : Result := .next (s.condBranch .eq off)

/-- B.NE (R271). -/
def execBNe (off : BitVec 19) (s : State) : Result := .next (s.condBranch .ne off)

/-- B.HS (R271). -/
def execBHs (off : BitVec 19) (s : State) : Result := .next (s.condBranch .hs off)

/-- B.LO (R271). -/
def execBLo (off : BitVec 19) (s : State) : Result := .next (s.condBranch .lo off)

/-- B.MI (R271). -/
def execBMi (off : BitVec 19) (s : State) : Result := .next (s.condBranch .mi off)

/-- B.PL (R271). -/
def execBPl (off : BitVec 19) (s : State) : Result := .next (s.condBranch .pl off)

/-- B.VS (R271). -/
def execBVs (off : BitVec 19) (s : State) : Result := .next (s.condBranch .vs off)

/-- B.VC (R271). -/
def execBVc (off : BitVec 19) (s : State) : Result := .next (s.condBranch .vc off)

/-- B.HI (R271). -/
def execBHi (off : BitVec 19) (s : State) : Result := .next (s.condBranch .hi off)

/-- B.LS (R271). -/
def execBLs (off : BitVec 19) (s : State) : Result := .next (s.condBranch .ls off)

/-- B.GE (R271). -/
def execBGe (off : BitVec 19) (s : State) : Result := .next (s.condBranch .ge off)

/-- B.LT (R271). -/
def execBLt (off : BitVec 19) (s : State) : Result := .next (s.condBranch .lt off)

/-- B.GT (R271). -/
def execBGt (off : BitVec 19) (s : State) : Result := .next (s.condBranch .gt off)

/-- B.LE (R271). -/
def execBLe (off : BitVec 19) (s : State) : Result := .next (s.condBranch .le off)

/-- B.AL (R271). -/
def execBAl (off : BitVec 19) (s : State) : Result := .next (s.condBranch .al off)

end Sys2Proof.Machine
end

