-- ==== Sys2Proof/Machine/LoadStore.lean ====
section
/-! DEFINITION. The load/store unit: 41_loadstore.md R222 to R225, R230 to R233, R240, R241. -/

namespace Sys2Proof.Machine

/-- LDUR (R222): `x[Rt] <- MemRead(ea, 8)`. -/
def execLdur (rt rn : Reg) (off : BitVec 9) (s : State) : Result :=
  .next (s.writeResult rt ((s.load .double (s.ea rn off)).setWidth 64))

/-- LDURB (R223): `x[Rt] <- zext_64(MemRead(ea, 1))`. -/
def execLdurb (rt rn : Reg) (off : BitVec 9) (s : State) : Result :=
  .next (s.writeResult rt ((s.load .byte (s.ea rn off)).setWidth 64))

/-- LDURH (R224): `x[Rt] <- zext_64(MemRead(ea, 2))`. -/
def execLdurh (rt rn : Reg) (off : BitVec 9) (s : State) : Result :=
  .next (s.writeResult rt ((s.load .half (s.ea rn off)).setWidth 64))

/-- LDURSW (R225): `x[Rt] <- sext_64(MemRead(ea, 4))`. -/
def execLdursw (rt rn : Reg) (off : BitVec 9) (s : State) : Result :=
  .next (s.writeResult rt ((s.load .word (s.ea rn off)).signExtend 64))

/-- STUR (R230): `MemWrite(ea, 8, x[Rt])`. -/
def execStur (rt rn : Reg) (off : BitVec 9) (s : State) : Result :=
  .next ((s.store .double (s.ea rn off) ((s.readReg rt).setWidth _)).advance)

/-- STURB (R231): `MemWrite(ea, 1, x[Rt][7:0])`. -/
def execSturb (rt rn : Reg) (off : BitVec 9) (s : State) : Result :=
  .next ((s.store .byte (s.ea rn off) ((s.readReg rt).setWidth _)).advance)

/-- STURH (R232): `MemWrite(ea, 2, x[Rt][15:0])`. -/
def execSturh (rt rn : Reg) (off : BitVec 9) (s : State) : Result :=
  .next ((s.store .half (s.ea rn off) ((s.readReg rt).setWidth _)).advance)

/-- STURW (R233): `MemWrite(ea, 4, x[Rt][31:0])`. -/
def execSturw (rt rn : Reg) (off : BitVec 9) (s : State) : Result :=
  .next ((s.store .word (s.ea rn off) ((s.readReg rt).setWidth _)).advance)

/-- LDXR (R240): the load of LDUR, and the reservation of its address, also when Rt is 31. -/
def execLdxr (rt rn : Reg) (off : BitVec 9) (s : State) : Result :=
  .next ((s.reserve (s.ea rn off)).writeResult rt
    ((s.load .double (s.ea rn off)).setWidth 64))

/-- Whether the reservation matches an address: exact equality, no granule (R241, R242). -/
def State.reserved (s : State) (ea : Word) : Bool := s.excl.valid && s.excl.addr == ea

/-- STXR's writes (R241): the store and status 0 if the reservation matches, else status 1 alone.
All reads are of the old state (R17), the status is written last (R351). -/
def State.storeExclusive (s : State) (rs rt : Reg) (ea : Word) : State :=
  if s.reserved ea then (s.store .double ea ((s.readReg rt).setWidth _)).writeReg rs 0
  else s.writeReg rs 1

/-- STXR (R241): the address is x[Rn] with no offset (R110); the reservation ends either way. -/
def execStxr (rs rt rn : Reg) (s : State) : Result :=
  .next (s.storeExclusive rs rt (s.readReg rn)).clearReservation.advance

end Sys2Proof.Machine
end

