-- ==== Sys2Proof/Machine/Logic.lean ====
section
/-! DEFINITION. The logical instructions and MOV (40_alu.md R180 to R189). -/

namespace Sys2Proof.Machine

/-- AND (R180): `x[Rd] <- x[Rn] & x[Rm]`. -/
def execAnd (rd rn rm : Reg) (s : State) : Result :=
  .next (s.aluOp .and rd (s.readReg rn) (s.readReg rm))

/-- ANDS (R181): `x[Rd] <- x[Rn] & x[Rm]`, flags of R164. -/
def execAnds (rd rn rm : Reg) (s : State) : Result :=
  .next (s.aluOpFlags .and rd (s.readReg rn) (s.readReg rm))

/-- ANDI (R182): `x[Rd] <- x[Rn] & imm`, imm sign-extended. -/
def execAndi (rd rn : Reg) (imm : BitVec 12) (s : State) : Result :=
  .next (s.aluOp .and rd (s.readReg rn) (immI imm))

/-- ANDIS (R183): `x[Rd] <- x[Rn] & imm`, flags of R164. -/
def execAndis (rd rn : Reg) (imm : BitVec 12) (s : State) : Result :=
  .next (s.aluOpFlags .and rd (s.readReg rn) (immI imm))

/-- ORR (R184): `x[Rd] <- x[Rn] | x[Rm]`. -/
def execOrr (rd rn rm : Reg) (s : State) : Result :=
  .next (s.aluOp .orr rd (s.readReg rn) (s.readReg rm))

/-- ORRI (R185): `x[Rd] <- x[Rn] | imm`, imm sign-extended. -/
def execOrri (rd rn : Reg) (imm : BitVec 12) (s : State) : Result :=
  .next (s.aluOp .orr rd (s.readReg rn) (immI imm))

/-- EOR (R186): `x[Rd] <- x[Rn] ⊕ x[Rm]`. -/
def execEor (rd rn rm : Reg) (s : State) : Result :=
  .next (s.aluOp .eor rd (s.readReg rn) (s.readReg rm))

/-- EORI (R187): `x[Rd] <- x[Rn] ⊕ imm`, imm sign-extended. -/
def execEori (rd rn : Reg) (imm : BitVec 12) (s : State) : Result :=
  .next (s.aluOp .eor rd (s.readReg rn) (immI imm))

/-- MOV (R189): `x[Rd] <- x[Rm]`. -/
def execMov (rd rm : Reg) (s : State) : Result :=
  .next (s.writeResult rd (s.readReg rm))

end Sys2Proof.Machine
end

