-- ==== Sys2Proof/Machine/ShiftMove.lean ====
section
/-! DEFINITION. The shifts and the wide moves (40_alu.md R190, R191, R195, R196). -/

namespace Sys2Proof.Machine

/-- LSL (R190): `x[Rd] <- x[Rn] << shamt`. -/
def execLsl (rd rn : Reg) (shamt : BitVec 6) (s : State) : Result :=
  .next (s.writeResult rd (shiftLeft (s.readReg rn) shamt))

/-- LSR (R191): `x[Rd] <- x[Rn] >>u shamt`. -/
def execLsr (rd rn : Reg) (shamt : BitVec 6) (s : State) : Result :=
  .next (s.writeResult rd (shiftRight (s.readReg rn) shamt))

/-- MOVZ (R195): `x[Rd] <- zext_64(imm16) << (16·hw)`. -/
def execMovz (rd : Reg) (hw : BitVec 2) (imm : BitVec 16) (s : State) : Result :=
  .next (s.writeResult rd (wideZero hw imm))

/-- MOVK (R196): the immediate replaces one halfword of Rd's current value. -/
def execMovk (rd : Reg) (hw : BitVec 2) (imm : BitVec 16) (s : State) : Result :=
  .next (s.writeResult rd (wideKeep (s.readReg rd) hw imm))

end Sys2Proof.Machine
end

