-- ==== Sys2Proof/Machine/System.lean ====
section
/-! DEFINITION. NOP (43_system.md R300). There are no system instructions (R302); an Unknown word is no
instruction, and `State.skipUnknown` is what the step does with it (R301). -/

namespace Sys2Proof.Machine

/-- NOP (R300): nothing is written, and the pc advances by 4. -/
def execNop (s : State) : Result := .next s.advance

end Sys2Proof.Machine
end

