-- ==== Sys2Proof/Machine/Dispatch.lean ====
section
/-! DEFINITION. One arm per constructor of Instr: the meaning of the instruction. -/

namespace Sys2Proof.Machine

def exec (i : Instr) (s : State) : Host.Outcome State Fault Refusal :=
  match i with
  | .add rd rn rm => Sys2Proof.Machine.execAdd rd rn rm s
  | .adds rd rn rm => Sys2Proof.Machine.execAdds rd rn rm s
  | .addi rd rn imm => Sys2Proof.Machine.execAddi rd rn imm s
  | .addis rd rn imm => Sys2Proof.Machine.execAddis rd rn imm s
  | .sub rd rn rm => Sys2Proof.Machine.execSub rd rn rm s
  | .subs rd rn rm => Sys2Proof.Machine.execSubs rd rn rm s
  | .subi rd rn imm => Sys2Proof.Machine.execSubi rd rn imm s
  | .subis rd rn imm => Sys2Proof.Machine.execSubis rd rn imm s
  | .and rd rn rm => Sys2Proof.Machine.execAnd rd rn rm s
  | .ands rd rn rm => Sys2Proof.Machine.execAnds rd rn rm s
  | .andi rd rn imm => Sys2Proof.Machine.execAndi rd rn imm s
  | .andis rd rn imm => Sys2Proof.Machine.execAndis rd rn imm s
  | .orr rd rn rm => Sys2Proof.Machine.execOrr rd rn rm s
  | .orri rd rn imm => Sys2Proof.Machine.execOrri rd rn imm s
  | .eor rd rn rm => Sys2Proof.Machine.execEor rd rn rm s
  | .eori rd rn imm => Sys2Proof.Machine.execEori rd rn imm s
  | .lsl rd rn sh => Sys2Proof.Machine.execLsl rd rn sh s
  | .lsr rd rn sh => Sys2Proof.Machine.execLsr rd rn sh s
  | .movz rd hw imm => Sys2Proof.Machine.execMovz rd hw imm s
  | .movk rd hw imm => Sys2Proof.Machine.execMovk rd hw imm s
  | .ldur rt rn off => Sys2Proof.Machine.execLdur rt rn off s
  | .ldurb rt rn off => Sys2Proof.Machine.execLdurb rt rn off s
  | .ldurh rt rn off => Sys2Proof.Machine.execLdurh rt rn off s
  | .ldursw rt rn off => Sys2Proof.Machine.execLdursw rt rn off s
  | .stur rt rn off => Sys2Proof.Machine.execStur rt rn off s
  | .sturb rt rn off => Sys2Proof.Machine.execSturb rt rn off s
  | .sturh rt rn off => Sys2Proof.Machine.execSturh rt rn off s
  | .sturw rt rn off => Sys2Proof.Machine.execSturw rt rn off s
  | .ldxr rt rn off => Sys2Proof.Machine.execLdxr rt rn off s
  | .stxr rs rt rn => Sys2Proof.Machine.execStxr rs rt rn s
  | .b off => Sys2Proof.Machine.execB off s
  | .bl off => Sys2Proof.Machine.execBl off s
  | .br rn => Sys2Proof.Machine.execBr rn s
  | .cbz rt off => Sys2Proof.Machine.execCbz rt off s
  | .cbnz rt off => Sys2Proof.Machine.execCbnz rt off s
  | .bEq off => Sys2Proof.Machine.execBEq off s
  | .bNe off => Sys2Proof.Machine.execBNe off s
  | .bHs off => Sys2Proof.Machine.execBHs off s
  | .bLo off => Sys2Proof.Machine.execBLo off s
  | .bMi off => Sys2Proof.Machine.execBMi off s
  | .bPl off => Sys2Proof.Machine.execBPl off s
  | .bVs off => Sys2Proof.Machine.execBVs off s
  | .bVc off => Sys2Proof.Machine.execBVc off s
  | .bHi off => Sys2Proof.Machine.execBHi off s
  | .bLs off => Sys2Proof.Machine.execBLs off s
  | .bGe off => Sys2Proof.Machine.execBGe off s
  | .bLt off => Sys2Proof.Machine.execBLt off s
  | .bGt off => Sys2Proof.Machine.execBGt off s
  | .bLe off => Sys2Proof.Machine.execBLe off s
  | .bAl off => Sys2Proof.Machine.execBAl off s
  | .nop => Sys2Proof.Machine.execNop s
  | .cmp rn rm => Sys2Proof.Machine.execCmp rn rm s
  | .cmpi rn imm => Sys2Proof.Machine.execCmpi rn imm s
  | .mov rd rm => Sys2Proof.Machine.execMov rd rm s

end Sys2Proof.Machine
end

