-- ==== Sys2Proof/Machine/Step.lean ====
section
/-! DEFINITION. One step of the machine (10_state.md R42). The work is in Ops.lean: `State.issue`
chooses, `exec` runs the instruction, `State.closeStep` and `State.retire` end the step and the run. -/

namespace Sys2Proof.Machine

/-- Step(s) of R42. -/
def step (s : State) : Host.Outcome State Fault Refusal :=
  match s.issue with
  | .idle => .next s
  | .stuck r => .fault r
  | .skip t => .next t.retire
  | .run i t =>
    match exec i t with
    | .next u => .next (s.closeStep u)
    | .fault r => .fault r
    | .refused r => .refused r

/-- `s` with a table word stored where the next step fetches its instruction (log 2). -/
def State.withFetchWord (s : State) (nbits w : Nat) : State :=
  s.placeWord (BitVec.ofNat 32 (w % 2 ^ nbits))

end Sys2Proof.Machine
end

