-- ==== Sys2Proof/Machine/Assembler.lean ====
section
/-! DEFINITION. The assembler and the label resolver of 30_encoding.md R127 to R133: from source
text to the slots of a program (R33). They are software around the hardware (R8); the core takes
slots from any source (R341). Text is a list of characters, so that all of it computes. -/

namespace Sys2Proof.Machine.Asm

/-- Source text as characters. -/
abbrev Text := List Char

/-! ## Lines, comments, labels (R127) -/

/-- Splits at a character. -/
def splitAt (c : Char) : Text → List Text
  | [] => [[]]
  | x :: xs =>
    match splitAt c xs with
    | [] => [[]]
    | l :: ls => if x = c then [] :: l :: ls else (x :: l) :: ls

/-- White space inside a line. -/
def isBlank (c : Char) : Bool := c == ' ' || c == '\t' || c == '\r'

/-- A line without its comment, which begins with `;` (R127), and without blanks at its ends. -/
def stripLine (t : Text) : Text :=
  (((t.takeWhile (· != ';')).dropWhile isBlank).reverse.dropWhile isBlank).reverse

/-- The characters of an identifier: letters, digits, `_` and `.` (log 12). -/
def isIdentChar (c : Char) : Bool := c.isAlphanum || c == '_' || c == '.'

/-- An identifier does not begin with a digit (log 12). -/
def isIdent : Text → Bool
  | [] => false
  | c :: cs => !c.isDigit && isIdentChar c && cs.all isIdentChar

/-- A stripped line's label, if it has the form `identifier:` before the rest (R127). -/
def splitLabel (t : Text) : Option (Text × Text) :=
  let l := t.takeWhile isIdentChar
  match t.dropWhile isIdentChar with
  | ':' :: rest => if isIdent l then some (l, stripLine rest) else none
  | _ => none

/-- An entry of the instruction list (R131): a zero-width label marker, or an instruction line with
its whole text and the part after its label. -/
inductive Entry where
  | marker (label : Text)
  | instr (text body : Text)
  deriving DecidableEq, Repr

/-- The entry of a stripped line; an empty line has none (R127; log 13). -/
def entryOf (t : Text) : Option Entry :=
  if t = [] then none
  else match splitLabel t with
    | some (l, []) => some (.marker l)
    | some (_, body) => some (.instr t body)
    | none => some (.instr t t)

/-- The entries of a source text, in order. -/
def entries (src : Text) : List Entry := (splitAt '\n' src).filterMap fun t => entryOf (stripLine t)

/-- The number of instruction slots of a list of entries. -/
def slotCount : List Entry → Nat
  | [] => 0
  | .marker _ :: es => slotCount es
  | .instr _ _ :: es => slotCount es + 1

/-! ## Numbers -/

/-- The value of a character as a digit of a base up to 16. -/
def digitVal (c : Char) : Option Nat :=
  if c.isDigit then some (c.toNat - 48)
  else if 'a' ≤ c ∧ c ≤ 'f' then some (c.toNat - 87)
  else if 'A' ≤ c ∧ c ≤ 'F' then some (c.toNat - 55)
  else none

/-- The value of the digits of a base, most significant first, after `acc`. -/
def digitsFrom (base : Nat) : Nat → Text → Option Nat
  | acc, [] => some acc
  | acc, c :: cs =>
    match digitVal c with
    | some d => if d < base then digitsFrom base (acc * base + d) cs else none
    | none => none

/-- A nonempty string of digits. -/
def number (base : Nat) (t : Text) : Option Nat := if t = [] then none else digitsFrom base 0 t

/-! ## The label resolver (R131) -/

/-- Whether a text contains another. -/
def contains (pat : Text) : Text → Bool
  | [] => pat.isEmpty
  | c :: cs => pat.isPrefixOf (c :: cs) || contains pat cs

/-- The address of slot i, BASE + 4·i (R33). -/
def slotAddr (base : Word) (i : Nat) : Word := base + BitVec.ofNat 64 (4 * i)

/-- The scan of R131 from slot `i` on: a marker binds to the next instruction's address, and as the
last entry to BASE + 4·N (D32); an instruction binds if its text contains `label:`. A marker that
another marker follows binds as that one does. DESIGN CHOICE, R131 names no binding (log 21). -/
def scanLabel (base : Word) (label : Text) : List Entry → Nat → Option Word
  | [], _ => none
  | .marker l :: es, i => if l = label then some (slotAddr base i) else scanLabel base label es i
  | .instr text _ :: es, i =>
    if contains (label ++ [':']) text then some (slotAddr base i)
    else scanLabel base label es (i + 1)

/-- `resolve(label, instructionList)` (R131): a 0-based index, valid iff within bounds, or a label. -/
def resolve (base : Word) (label : Text) (es : List Entry) : Option Word :=
  match number 10 label with
  | some n => if n < slotCount es then some (slotAddr base n) else none
  | none => scanLabel base label es 0

/-! ## Operands (R128 to R130) -/

/-- The tokens of an operand list. -/
inductive Tok where
  | word (t : Text)
  | comma
  | lbrack
  | rbrack
  deriving DecidableEq, Repr

/-- Ends the word being read. -/
def flush (acc : Text) (rest : List Tok) : List Tok :=
  if acc = [] then rest else .word acc.reverse :: rest

/-- Splits a line into tokens; `acc` is the word being read, backwards. -/
def lex : Text → Text → List Tok
  | [], acc => flush acc []
  | c :: cs, acc =>
    if isBlank c then flush acc (lex cs [])
    else if c = ',' then flush acc (.comma :: lex cs [])
    else if c = '[' then flush acc (.lbrack :: lex cs [])
    else if c = ']' then flush acc (.rbrack :: lex cs [])
    else lex cs (c :: acc)

/-- A register operand (R128, R40): XZR, SP, FP, LR, or Xn with n in 0..31, in any letter case.
Leading zeros in n are accepted: X05 is X5. DESIGN CHOICE, the spec leaves it open (log 19). -/
def parseReg (t : Text) : Option Reg :=
  match t.map Char.toUpper with
  | ['X', 'Z', 'R'] => some xzr
  | ['S', 'P'] => some sp
  | ['F', 'P'] => some 29
  | ['L', 'R'] => some lr
  | 'X' :: ds =>
    match number 10 ds with
    | some n => if n < 32 then some (BitVec.ofNat 5 n) else none
    | none => none
  | _ => none

/-- An immediate (R130): `#`, then an optional `-` and a decimal number, or `0x` and a hexadecimal
number. -/
def parseImm : Text → Option Int
  | '#' :: '-' :: ds => (number 10 ds).map fun n => -(n : Int)
  | '#' :: '0' :: 'x' :: ds => (number 16 ds).map fun n => (n : Int)
  | '#' :: ds => (number 10 ds).map fun n => (n : Int)
  | _ => none

/-- An immediate in a range (R130: out of range is InvalidOperand). -/
def immIn (lo hi : Int) (t : Text) : Option Int :=
  match parseImm t with
  | some n => if lo ≤ n ∧ n ≤ hi then some n else none
  | none => none

/-- The field of an I-format immediate, −2048..2047. -/
def imm12 (t : Text) : Option (BitVec 12) := (immIn (-2048) 2047 t).map (BitVec.ofInt 12)
/-- The field of a D-format offset, −256..255. -/
def off9 (t : Text) : Option (BitVec 9) := (immIn (-256) 255 t).map (BitVec.ofInt 9)
/-- The field of a shift amount, 0..63. -/
def shamt6 (t : Text) : Option (BitVec 6) := (immIn 0 63 t).map (BitVec.ofInt 6)
/-- The field of a wide immediate, 0..65535. -/
def imm16 (t : Text) : Option (BitVec 16) := (immIn 0 65535 t).map (BitVec.ofInt 16)

/-- The hw field of a shift of a wide move, one of 0, 16, 32, 48 (R130). -/
def shiftHw (t : Text) : Option (BitVec 2) :=
  match parseImm t with
  | some n => if n = 0 then some 0 else if n = 16 then some 1 else if n = 32 then some 2
              else if n = 48 then some 3 else none
  | none => none

/-- A branch target operand is a label or a non-negative decimal index (R129). -/
def isTarget (t : Text) : Bool := isIdent t || (number 10 t).isSome

/-- The label branches (R129, R132), without their offset. -/
inductive BranchForm where
  | b | bl
  | cbz (rt : Reg) | cbnz (rt : Reg)
  | cond (c : Cond)
  deriving DecidableEq, Repr

/-- The instruction of a label branch with a word offset. -/
def BranchForm.instr : BranchForm → Int → Instr
  | .b, d => .b (BitVec.ofInt 26 d)
  | .bl, d => .bl (BitVec.ofInt 26 d)
  | .cbz rt, d => .cbz rt (BitVec.ofInt 19 d)
  | .cbnz rt, d => .cbnz rt (BitVec.ofInt 19 d)
  | .cond c, d => .bcond c (BitVec.ofInt 19 d)

/-- The width of a label branch's offset field (R114, R115). -/
def BranchForm.width : BranchForm → Nat
  | .b => 26 | .bl => 26 | .cbz _ => 19 | .cbnz _ => 19 | .cond _ => 19

/-- Whether a word offset fits the field (R132). -/
def BranchForm.fits (f : BranchForm) (d : Int) : Bool :=
  decide (-(2 : Int) ^ (f.width - 1) ≤ d) && decide (d < (2 : Int) ^ (f.width - 1))

/-- A parsed line: an instruction, or a label branch with its target. -/
inductive Parsed where
  | instr (i : Instr)
  | branch (f : BranchForm) (target : Text)
  deriving DecidableEq, Repr

/-! ## Operand lists (R129): `none` is wrong arity or an operand that does not parse -/

/-- `Xd, Xn, Xm`. -/
def regs3 (f : Reg → Reg → Reg → Instr) : List Tok → Option Parsed
  | [.word d, .comma, .word n, .comma, .word m] =>
    match parseReg d, parseReg n, parseReg m with
    | some rd, some rn, some rm => some (.instr (f rd rn rm))
    | _, _, _ => none
  | _ => none

/-- `Xd, Xn, #imm`. -/
def regs2imm (f : Reg → Reg → BitVec 12 → Instr) : List Tok → Option Parsed
  | [.word d, .comma, .word n, .comma, .word k] =>
    match parseReg d, parseReg n, imm12 k with
    | some rd, some rn, some imm => some (.instr (f rd rn imm))
    | _, _, _ => none
  | _ => none

/-- `Xd, Xn, #shamt`. -/
def regs2shift (f : Reg → Reg → BitVec 6 → Instr) : List Tok → Option Parsed
  | [.word d, .comma, .word n, .comma, .word k] =>
    match parseReg d, parseReg n, shamt6 k with
    | some rd, some rn, some sh => some (.instr (f rd rn sh))
    | _, _, _ => none
  | _ => none

/-- `Xd, #imm16` or `Xd, #imm16, LSL #s`. -/
def wide (f : Reg → BitVec 2 → BitVec 16 → Instr) : List Tok → Option Parsed
  | [.word d, .comma, .word k] =>
    match parseReg d, imm16 k with
    | some rd, some imm => some (.instr (f rd 0 imm))
    | _, _ => none
  | [.word d, .comma, .word k, .comma, .word l, .word s] =>
    match parseReg d, imm16 k, shiftHw s with
    | some rd, some imm, some hw =>
      if l = ['L', 'S', 'L'] then some (.instr (f rd hw imm)) else none
    | _, _, _ => none
  | _ => none

/-- `Xn, Xm`, of CMP and MOV. -/
def regs2 (f : Reg → Reg → Instr) : List Tok → Option Parsed
  | [.word n, .comma, .word m] =>
    match parseReg n, parseReg m with
    | some rn, some rm => some (.instr (f rn rm))
    | _, _ => none
  | _ => none

/-- `Xn, #imm`, of CMPI. -/
def reg1imm (f : Reg → BitVec 12 → Instr) : List Tok → Option Parsed
  | [.word n, .comma, .word k] =>
    match parseReg n, imm12 k with
    | some rn, some imm => some (.instr (f rn imm))
    | _, _ => none
  | _ => none

/-- `Xt, [Xn, #off]`, or `Xt, [Xn]` for offset 0. -/
def memOp (f : Reg → Reg → BitVec 9 → Instr) : List Tok → Option Parsed
  | [.word t, .comma, .lbrack, .word n, .rbrack] =>
    match parseReg t, parseReg n with
    | some rt, some rn => some (.instr (f rt rn 0))
    | _, _ => none
  | [.word t, .comma, .lbrack, .word n, .comma, .word k, .rbrack] =>
    match parseReg t, parseReg n, off9 k with
    | some rt, some rn, some off => some (.instr (f rt rn off))
    | _, _, _ => none
  | _ => none

/-- `Xs, Xt, [Xn]`, or `Xs, Xt, [Xn, #0]`. -/
def stxrOp : List Tok → Option Parsed
  | [.word s, .comma, .word t, .comma, .lbrack, .word n, .rbrack] =>
    match parseReg s, parseReg t, parseReg n with
    | some rs, some rt, some rn => some (.instr (.stxr rs rt rn))
    | _, _, _ => none
  | [.word s, .comma, .word t, .comma, .lbrack, .word n, .comma, .word k, .rbrack] =>
    match parseReg s, parseReg t, parseReg n with
    | some rs, some rt, some rn =>
      if parseImm k = some 0 then some (.instr (.stxr rs rt rn)) else none
    | _, _, _ => none
  | _ => none

/-- `target`. -/
def targetOp (f : BranchForm) : List Tok → Option Parsed
  | [.word l] => if isTarget l then some (.branch f l) else none
  | _ => none

/-- `Xt, target`. -/
def regTarget (f : Reg → BranchForm) : List Tok → Option Parsed
  | [.word t, .comma, .word l] =>
    match parseReg t with
    | some rt => if isTarget l then some (.branch (f rt) l) else none
    | none => none
  | _ => none

/-- `Xn`, of BR. -/
def reg1 (f : Reg → Instr) : List Tok → Option Parsed
  | [.word n] => (parseReg n).map fun rn => .instr (f rn)
  | _ => none

/-- No operand. -/
def noOp (i : Instr) : List Tok → Option Parsed
  | [] => some (.instr i)
  | _ => none

/-- The condition of a `B.<cond>` mnemonic: exactly the fifteen names (R129, D34). -/
def condName (m : String) : Option Cond :=
  if m = "B.EQ" then some .eq else if m = "B.NE" then some .ne else if m = "B.HS" then some .hs
  else if m = "B.LO" then some .lo else if m = "B.MI" then some .mi
  else if m = "B.PL" then some .pl else if m = "B.VS" then some .vs
  else if m = "B.VC" then some .vc else if m = "B.HI" then some .hi
  else if m = "B.LS" then some .ls else if m = "B.GE" then some .ge
  else if m = "B.LT" then some .lt else if m = "B.GT" then some .gt
  else if m = "B.LE" then some .le else if m = "B.AL" then some .al
  else none

/-- The operand form of each mnemonic of R2's list (R129); `none` is an unknown mnemonic. The
letter case must be as written (log 14). -/
def operandForm (m : String) : Option (List Tok → Option Parsed) :=
  if m = "ADD" then some (regs3 .add) else if m = "ADDS" then some (regs3 .adds)
  else if m = "SUB" then some (regs3 .sub) else if m = "SUBS" then some (regs3 .subs)
  else if m = "AND" then some (regs3 .and) else if m = "ANDS" then some (regs3 .ands)
  else if m = "ORR" then some (regs3 .orr) else if m = "EOR" then some (regs3 .eor)
  else if m = "ADDI" then some (regs2imm .addi) else if m = "ADDIS" then some (regs2imm .addis)
  else if m = "SUBI" then some (regs2imm .subi) else if m = "SUBIS" then some (regs2imm .subis)
  else if m = "ANDI" then some (regs2imm .andi) else if m = "ANDIS" then some (regs2imm .andis)
  else if m = "ORRI" then some (regs2imm .orri) else if m = "EORI" then some (regs2imm .eori)
  else if m = "LSL" then some (regs2shift .lsl) else if m = "LSR" then some (regs2shift .lsr)
  else if m = "MOVZ" then some (wide .movz) else if m = "MOVK" then some (wide .movk)
  else if m = "MOV" then some (regs2 .mov) else if m = "CMP" then some (regs2 .cmp)
  else if m = "CMPI" then some (reg1imm .cmpi)
  else if m = "LDUR" then some (memOp .ldur) else if m = "LDURB" then some (memOp .ldurb)
  else if m = "LDURH" then some (memOp .ldurh) else if m = "LDURSW" then some (memOp .ldursw)
  else if m = "STUR" then some (memOp .stur) else if m = "STURB" then some (memOp .sturb)
  else if m = "STURH" then some (memOp .sturh) else if m = "STURW" then some (memOp .sturw)
  else if m = "LDXR" then some (memOp .ldxr) else if m = "STXR" then some stxrOp
  else if m = "B" then some (targetOp .b) else if m = "BL" then some (targetOp .bl)
  else if m = "BR" then some (reg1 .br)
  else if m = "CBZ" then some (regTarget .cbz) else if m = "CBNZ" then some (regTarget .cbnz)
  else if m = "NOP" then some (noOp .nop)
  else (condName m).map fun c => targetOp (.cond c)

/-- A line's instruction: unknown mnemonics and bad operands are the two encoder errors (R133). -/
def parseLine (body : Text) : Except AsmError Parsed :=
  let m := body.takeWhile fun c => !isBlank c
  let rest := body.dropWhile fun c => !isBlank c
  match operandForm (String.ofList m) with
  | none => .error .unknownInstruction
  | some f =>
    match f (lex rest []) with
    | some p => .ok p
    | none => .error .invalidOperand

/-! ## Slots (R33, R132, R133) -/

/-- The slot of a line with an error: word 0 and the error (R133). -/
def errorSlot (e : AsmError) : Slot := ⟨0#32, false, some e⟩

/-- The word offset from a branch at `p` to a target `t`, `(t − p)/4` (R132): the difference is of
addresses, so modulo 2^64 (R13), and is read as signed (R114, R115; log 6). -/
def wordOffset (p t : Word) : Int := (t - p).toInt / 4

/-- The slot of a label branch at address `p` (R132): the placeholder offset and `unresolved` where
the label does not resolve, InvalidOperand where the offset does not fit. -/
def branchSlot (f : BranchForm) (p : Word) (target : Option Word) : Slot :=
  match target with
  | none => ⟨encode (f.instr 0), true, none⟩
  | some t =>
    if f.fits (wordOffset p t) then ⟨encode (f.instr (wordOffset p t)), false, none⟩
    else errorSlot .invalidOperand

/-- The slot of a line at address `p` of a program with entries `es`. -/
def slotOf (base : Word) (es : List Entry) (p : Word) (body : Text) : Slot :=
  match parseLine body with
  | .error e => errorSlot e
  | .ok (.instr i) => ⟨encode i, false, none⟩
  | .ok (.branch f l) => branchSlot f p (resolve base l es)

/-- The slots of the entries from slot `i` on. -/
def slotsFrom (base : Word) (all : List Entry) : List Entry → Nat → List Slot
  | [], _ => []
  | .marker _ :: es, i => slotsFrom base all es i
  | .instr _ body :: es, i =>
    slotOf base all (slotAddr base i) body :: slotsFrom base all es (i + 1)

/-- The slots of a source text, one per instruction line, in order (R33, R127). -/
def assemble (base : Word) (src : String) : List Slot :=
  slotsFrom base (entries src.toList) (entries src.toList) 0

end Sys2Proof.Machine.Asm
end

