-- ==== Sys2Proof/Machine/HostOps.lean ====
section
/-! DEFINITION. The host's four operations and what it may read between them (70_reset_and_hazards.md
R340 to R345). -/

namespace Sys2Proof.Machine

/-- `reset()` (R340): every piece of state at its reset value, the loaded program unchanged. -/
def State.hostReset (s : State) : State := State.initial s.base s.spInit s.imem

/-- `loadProgram(P)` (R341): the program is replaced, then reset is applied. -/
def State.loadProgram (s : State) (p : List Slot) : State := State.initial s.base s.spInit p

/-- `step()` repeated, stopping early once the status is not Running (R343). -/
def runSteps : Nat → State → Result
  | 0, s => .next s
  | n + 1, s =>
    if s.status = .running then
      match step s with
      | .next t => runSteps n t
      | .fault r => .fault r
      | .refused r => .refused r
    else .next s

/-- `jumpToStep(n)` (R343): reset, then n + 1 steps (90_conflicts.md C4). -/
def State.jumpToStep (s : State) (n : Nat) : Result := runSteps (n + 1) s.hostReset

/-- An event as the row of R310's table records it: code, name, pc (no pc for MemoryWidthError), and
the word or the target where the row has one. -/
structure EventRecord where
  code   : Nat
  name   : String
  pc     : Option Word
  word   : Option InstrWord
  target : Option Word
  deriving DecidableEq, Repr

/-- The target that R310's row records with an InvalidBranchTarget event. -/
def Event.target? (e : Event) : Option Word :=
  match e.kind, e.info with
  | .invalidBranchTarget, .target t => some t
  | _, _ => none

/-- The row of R310 for an event of the trace. -/
def State.eventRecord (s : State) (e : Event) : EventRecord :=
  { code := e.kind.code
    name := e.kind.name
    pc := if e.kind = .memoryWidthError then none else some e.pc
    word := s.eventWord? e
    target := e.target? }

/-- What the host may read after any operation (R345): the 32 registers, the flags, the memory map,
pc, the current instruction index, status, trace (as it is, and by R310's table) and the snapshot. -/
structure HostView where
  regs   : List Word
  flags  : Flags
  mem    : Memory
  pc     : Word
  index  : Nat
  status : Status
  trace  : List Event
  events : List EventRecord
  last   : Option Snapshot
  deriving DecidableEq, Repr

/-- The host's view of a state (R345). -/
def State.view (s : State) : HostView :=
  { regs := (List.range 32).map fun i => s.readReg (BitVec.ofNat 5 i)
    flags := s.flags
    mem := s.mem
    pc := s.pc
    index := s.index
    status := s.status
    trace := s.trace
    events := s.trace.map s.eventRecord
    last := s.last }

/-- How a run stands (R347): the status says it. -/
inductive RunState where
  | finished | faulted | stillRunning
  deriving DecidableEq, Repr

/-- The run state of R347. -/
def State.runState (s : State) : RunState :=
  match s.status with
  | .halted => .finished
  | .faulted => .faulted
  | .running => .stillRunning

end Sys2Proof.Machine
end

