-- ==== Sys2Proof/Safety.lean ====
section
/-! DEFINITION. The terms the statements are written in: what an instruction reads and writes, the
frames ("and nothing else changed"), and the invariant of a run. -/

namespace Sys2Proof

/-! ## What an instruction reads and writes (10_state.md R41) -/

/-- The general register an instruction writes (R41); BL writes X30. -/
def Instr.dest : Instr → Option Reg
  | .add rd _ _ | .adds rd _ _ | .sub rd _ _ | .subs rd _ _ | .and rd _ _ | .ands rd _ _
  | .orr rd _ _ | .eor rd _ _ | .addi rd _ _ | .addis rd _ _ | .subi rd _ _ | .subis rd _ _
  | .andi rd _ _ | .andis rd _ _ | .orri rd _ _ | .eori rd _ _ | .lsl rd _ _ | .lsr rd _ _
  | .movz rd _ _ | .movk rd _ _ | .mov rd _ => some rd
  | .ldur rt _ _ | .ldurb rt _ _ | .ldurh rt _ _ | .ldursw rt _ _ | .ldxr rt _ _ => some rt
  | .stxr rs _ _ => some rs
  | .bl _ => some lr
  | .stur _ _ _ | .sturb _ _ _ | .sturh _ _ _ | .sturw _ _ _ | .b _ | .br _ | .cbz _ _
  | .cbnz _ _ | .bEq _ | .bNe _ | .bHs _ | .bLo _ | .bMi _ | .bPl _ | .bVs _ | .bVc _ | .bHi _
  | .bLs _ | .bGe _ | .bLt _ | .bGt _ | .bLe _ | .bAl _ | .nop | .cmp _ _ | .cmpi _ _ => none

/-- The general registers an instruction reads (R41). -/
def Instr.sources : Instr → List Reg
  | .add _ rn rm | .adds _ rn rm | .sub _ rn rm | .subs _ rn rm | .and _ rn rm | .ands _ rn rm
  | .orr _ rn rm | .eor _ rn rm | .cmp rn rm => [rn, rm]
  | .addi _ rn _ | .addis _ rn _ | .subi _ rn _ | .subis _ rn _ | .andi _ rn _ | .andis _ rn _
  | .orri _ rn _ | .eori _ rn _ | .cmpi rn _ => [rn]
  | .lsl _ rn _ | .lsr _ rn _ => [rn]
  | .movz _ _ _ => []
  | .movk rd _ _ => [rd]
  | .mov _ rm => [rm]
  | .ldur _ rn _ | .ldurb _ rn _ | .ldurh _ rn _ | .ldursw _ rn _ | .ldxr _ rn _ => [rn]
  | .stur rt rn _ | .sturb rt rn _ | .sturh rt rn _ | .sturw rt rn _ => [rn, rt]
  | .stxr _ rt rn => [rn, rt]
  | .cbz rt _ | .cbnz rt _ => [rt]
  | .br rn => [rn]
  | .b _ | .bl _ | .bEq _ | .bNe _ | .bHs _ | .bLo _ | .bMi _ | .bPl _ | .bVs _ | .bVc _
  | .bHi _ | .bLs _ | .bGe _ | .bLt _ | .bGt _ | .bLe _ | .bAl _ | .nop => []

/-- LDXR and STXR, the only instructions that touch the exclusive monitor (R242). -/
def Instr.isExclusive : Instr → Bool
  | .ldxr _ _ _ => true
  | .stxr _ _ _ => true
  | _ => false

/-- The instructions whose slot may carry the unresolved bit (R261), with the target that a
resolved one branches to (R114, R115). -/
def Instr.labelTarget? (i : Instr) (s : Machine.State) : Option Word :=
  match i with
  | .b off | .bl off => some (s.target26 off)
  | .cbz _ off | .cbnz _ off | .bEq off | .bNe off | .bHs off | .bLo off | .bMi off | .bPl off
  | .bVs off | .bVc off | .bHi off | .bLs off | .bGe off | .bLt off | .bGt off | .bLe off
  | .bAl off => some (s.target19 off)
  | _ => none

/-- Whether a label branch is to be taken by its own rule, its slot's unresolved bit aside (R262,
R263, R266, R267, R271); false for every other instruction. -/
def Instr.branchCondition (i : Instr) (s : Machine.State) : Bool :=
  match i with
  | .b _ | .bl _ => true
  | .cbz rt _ => s.readReg rt == 0
  | .cbnz rt _ => s.readReg rt != 0
  | .bEq _ => Machine.condHolds .eq s.flags
  | .bNe _ => Machine.condHolds .ne s.flags
  | .bHs _ => Machine.condHolds .hs s.flags
  | .bLo _ => Machine.condHolds .lo s.flags
  | .bMi _ => Machine.condHolds .mi s.flags
  | .bPl _ => Machine.condHolds .pl s.flags
  | .bVs _ => Machine.condHolds .vs s.flags
  | .bVc _ => Machine.condHolds .vc s.flags
  | .bHi _ => Machine.condHolds .hi s.flags
  | .bLs _ => Machine.condHolds .ls s.flags
  | .bGe _ => Machine.condHolds .ge s.flags
  | .bLt _ => Machine.condHolds .lt s.flags
  | .bGt _ => Machine.condHolds .gt s.flags
  | .bLe _ => Machine.condHolds .le s.flags
  | .bAl _ => Machine.condHolds .al s.flags
  | _ => false

/-- The target an instruction's rule answers `Taken` with (R42), whether or not it is valid; none
where the rule answers `Seq`: no branch, a false condition, or an unresolved slot (R261). -/
def Instr.takenTo? (i : Instr) (s : Machine.State) : Option Word :=
  match i with
  | .br rn => some (s.readReg rn)
  | _ => if s.unresolvedHere = false ∧ i.branchCondition s = true then i.labelTarget? s else none

/-- The bytes an instruction stores to: their address, by the expression its meaning uses, and
their number (R78); none where nothing is stored, as in a failing STXR (R241). -/
def Instr.storesTo (i : Instr) (s : Machine.State) : Option (Word × Nat) :=
  match i with
  | .stur _ rn off => some (s.ea rn off, 8)
  | .sturb _ rn off => some (s.ea rn off, 1)
  | .sturh _ rn off => some (s.ea rn off, 2)
  | .sturw _ rn off => some (s.ea rn off, 4)
  | .stxr _ _ rn =>
    if s.excl.valid = true ∧ s.excl.addr = s.readReg rn then some (s.readReg rn, 8) else none
  | _ => none

namespace Machine

/-! ## Frames -/

/-- The registers other than `r` are unchanged. -/
def SameRegsBut (s t : State) (r : Reg) : Prop := ∀ q : Reg, q ≠ r → t.readReg q = s.readReg q

/-- Every register is unchanged. -/
def SameRegs (s t : State) : Prop := ∀ q : Reg, t.readReg q = s.readReg q

/-- Every byte of memory reads as before. -/
def SameMem (s t : State) : Prop := ∀ a : Nat, readByte t.mem a = readByte s.mem a

/-- Every byte of memory outside the `n` bytes at `ea` (addresses modulo 2^64) reads as before. -/
def SameMemBut (s t : State) (ea : Word) (n : Nat) : Prop :=
  ∀ a : Nat, (∀ k < n, a ≠ (ea + BitVec.ofNat 64 k).toNat) → readByte t.mem a = readByte s.mem a

/-- The `n` bytes at `ea` hold a value, little-endian. -/
def Holds (t : State) (ea : Word) (n : Nat) (v : Word) : Prop :=
  ∀ k < n, readByte t.mem (ea + BitVec.ofNat 64 k).toNat = v.extractLsb' (8 * k) 8

/-- The state around the instruction is unchanged: status, trace, snapshot, program, parameters. -/
structure SameRun (s t : State) : Prop where
  status : t.status = s.status
  trace  : t.trace = s.trace
  last   : t.last = s.last
  imem   : t.imem = s.imem
  base   : t.base = s.base
  spInit : t.spInit = s.spInit

/-- `t` is `s` with register `rd` given `v` (discarded if it is XZR) and the pc advanced; nothing else
is changed. -/
structure ResultOnly (s t : State) (rd : Reg) (v : Word) : Prop where
  result : t.readReg rd = if rd = xzr then 0 else v
  regs   : SameRegsBut s t rd
  flags  : t.flags = s.flags
  pc     : t.pc = s.pc + 4
  mem    : SameMem s t
  excl   : t.excl = s.excl
  run    : SameRun s t

/-- As `ResultOnly`, with the four flags given `f`. -/
structure ResultAndFlags (s t : State) (rd : Reg) (v : Word) (f : Flags) : Prop where
  result : t.readReg rd = if rd = xzr then 0 else v
  regs   : SameRegsBut s t rd
  flags  : t.flags = f
  pc     : t.pc = s.pc + 4
  mem    : SameMem s t
  excl   : t.excl = s.excl
  run    : SameRun s t

/-- `t` is `s` with the flags given `f` and the pc advanced; nothing else is changed. -/
structure FlagsOnly (s t : State) (f : Flags) : Prop where
  regs  : SameRegs s t
  flags : t.flags = f
  pc    : t.pc = s.pc + 4
  mem   : SameMem s t
  excl  : t.excl = s.excl
  run   : SameRun s t

/-- `t` is `s` with the low `n` bytes of `v` stored at `ea` and the pc advanced; nothing else is
changed. -/
structure StoreOnly (s t : State) (ea : Word) (n : Nat) (v : Word) : Prop where
  stored : Holds t ea n v
  others : SameMemBut s t ea n
  regs   : SameRegs s t
  flags  : t.flags = s.flags
  pc     : t.pc = s.pc + 4
  excl   : t.excl = s.excl
  run    : SameRun s t

/-- `t` is `s` with the pc advanced; nothing else is changed. -/
structure AdvanceOnly (s t : State) : Prop where
  regs  : SameRegs s t
  flags : t.flags = s.flags
  pc    : t.pc = s.pc + 4
  mem   : SameMem s t
  excl  : t.excl = s.excl
  run   : SameRun s t

/-- `t` is `s` with the pc at `target` and branchTaken set in the snapshot of the running
instruction; flags, memory, monitor, status, trace and program are unchanged. The registers are
for the statement to say. -/
structure Jumped (s t : State) (target : Word) : Prop where
  pc     : t.pc = target
  flags  : t.flags = s.flags
  mem    : SameMem s t
  excl   : t.excl = s.excl
  status : t.status = s.status
  trace  : t.trace = s.trace
  last   : t.last = s.last.map fun l => { l with ctrl := { l.ctrl with branchTaken := true } }
  imem   : t.imem = s.imem
  base   : t.base = s.base
  spInit : t.spInit = s.spInit

/-- `t` is `s` with one event of a kind appended, at the pc of `s`, and the status given; registers,
flags, memory, monitor, snapshot, program and parameters are unchanged. -/
structure Raised (s t : State) (k : EventKind) (info : EventInfo) (pc : Word) (st : Status) :
    Prop where
  trace  : t.trace = s.trace ++ [⟨k, s.pc, info⟩]
  pc     : t.pc = pc
  status : t.status = st
  regs   : SameRegs s t
  flags  : t.flags = s.flags
  mem    : SameMem s t
  excl   : t.excl = s.excl
  last   : t.last = s.last
  imem   : t.imem = s.imem
  base   : t.base = s.base
  spInit : t.spInit = s.spInit

/-- The whole meaning of a label branch `i` in state `s` (R260, R261, R265), in four cases that
exclude each other: the slot is unresolved; the branch is not taken; it is taken to a valid target;
it is taken to an invalid one. `regsAfter` says what the registers are after a taken branch. -/
def LabelBranchMeans (i : Instr) (s : State) (take : Prop) (target : Word)
    (regsAfter : State → Prop) : Prop :=
  (s.unresolvedHere = true →
    ∃ t, exec i s = .next t ∧ Raised s t .unresolvedLabel .none (s.pc + 4) s.status) ∧
  (s.unresolvedHere = false → ¬ take → ∃ t, exec i s = .next t ∧ AdvanceOnly s t) ∧
  (s.unresolvedHere = false → take → s.validTarget target = true →
    ∃ t, exec i s = .next t ∧ Jumped s t target ∧ regsAfter t) ∧
  (s.unresolvedHere = false → take → s.validTarget target = false →
    ∃ t, exec i s = .next t ∧
      Raised s t .invalidBranchTarget (.target target) s.pc .faulted)

/-- The address of slot `i`, BASE + 4·i (R33), as a number. -/
def slotNat (s : State) (i : Nat) : Nat := s.base.toNat + 4 * i

/-- `n` steps, one after another, with no test of the status between them. -/
def stepTimes : Nat → State → Result
  | 0, s => .next s
  | n + 1, s =>
    match step s with
    | .next t => stepTimes n t
    | .fault r => .fault r
    | .refused r => .refused r

/-- A row of the opcode map with the fields it reads: every word of the row decodes to `f w`. -/
def RowReads (pattern mask : InstrWord) (f : InstrWord → Instr) : Prop :=
  ∀ w : InstrWord, w &&& mask = pattern → decode w = .ok (f w)

/-! ## The invariant of a run -/

/-- What holds of every state from loadProgram on: the parameters meet R10, memory is canonical,
the pc is BASE + 4·i with 0 ≤ i ≤ N (R34), it names a slot unless the run is Halted, a Halted run
has it one past the last slot (R43), no event is MemoryWidthError (R317), and the snapshot is of
a slot of the program (R39). Where BASE + 4·N is 2^64 the pc holds it as 0 (log 6). -/
structure State.Inv (s : State) : Prop where
  fits     : programFits s.base s.imem.length = true
  mem      : s.mem.wf = true
  pcIn     : ∃ i ≤ s.imem.length, s.pc = s.base + BitVec.ofNat 64 (4 * i)
  atSlot   : s.status ≠ .halted → s.validTarget s.pc = true
  atEnd    : s.status = .halted → s.pc = s.endAddr
  noWidth  : ∀ e ∈ s.trace, e.kind ≠ .memoryWidthError
  snapshot : ∀ l, s.last = some l → ∃ sl, s.imem[l.index]? = some sl ∧ l.word = sl.word

/-- A program that can be loaded at a BASE: R10's constraint. -/
def loadable (base : Word) (p : List Slot) : Prop := programFits base p.length = true

/-- The instructions of a list run one after another, by `exec`. -/
def execAll : List Instr → State → Result
  | [], s => .next s
  | i :: is, s =>
    match exec i s with
    | .next t => execAll is t
    | .fault r => .fault r
    | .refused r => .refused r

end Machine

end Sys2Proof
end

