-- ==== Sys2Proof/Certificates/Slice0/Obligations.lean ====
section
/-! DEFINITION. The statements for the provers. Each docstring names the rules of spec/ that the
statement formalises or rests on. -/

open Sys2Proof Sys2Proof.Machine

/-- Encoding then decoding gives every instruction and every operand back; the three aliases give the core instruction (R134). -/
def Obligations.DecodeOfEncodeGivesTheInstructionBack : Prop :=
  (∀ i : Instr, i.wellFormed = true → decode (encode i) = .ok i) ∧
  (∀ rn rm, decode (encode (.cmp rn rm)) = .ok (.subs 31 rn rm)) ∧
  (∀ rn imm, decode (encode (.cmpi rn imm)) = .ok (.subis 31 rn imm)) ∧
  (∀ rd rm, decode (encode (.mov rd rm)) = .ok (.orr rd 31 rm))

/-- Encoding what a word decodes to gives the word back with zeros in the bits execution ignores (zeros there are the model's choice, log 10) (R118, R117). -/
def Obligations.EncodeOfDecodeKeepsEveryReadBit : Prop :=
  (∀ w i, decode w = .ok i → encode i = w &&& ~~~(ignoredBits i) ∧ i.wellFormed = true) ∧
  (∀ i j : Instr, i.wellFormed = true → j.wellFormed = true → encode i = encode j → i = j)

/-- A word decodes to a row's instruction iff it matches the row, and no word matches two rows (R117). -/
def Obligations.DecodeFollowsTheOpcodeMap : Prop :=
  (∀ r ∈ opcodeRows, ∀ w : InstrWord, w &&& r.mask = r.pattern ↔
    ∃ i, decode w = .ok i ∧ i.mnemonic = r.mnemonic) ∧
  (∀ w i, decode w = .ok i → ∃ r ∈ opcodeRows, i.mnemonic = r.mnemonic) ∧
  (∀ w : InstrWord, ∀ r ∈ opcodeRows, ∀ q ∈ opcodeRows,
    w &&& r.mask = r.pattern → w &&& q.mask = q.pattern → r = q)

/-- R-format words: Rm is word[20:16], shamt word[15:10], Rn word[9:5], Rd word[4:0] (R104). -/
def Obligations.DecodeReadsRegisterFormat : Prop :=
  RowReads 0x8B000000#32 0xFFE00000#32 (fun w =>
    .add (w.extractLsb' 0 5) (w.extractLsb' 5 5) (w.extractLsb' 16 5)) ∧
  RowReads 0xAB000000#32 0xFFE00000#32 (fun w =>
    .adds (w.extractLsb' 0 5) (w.extractLsb' 5 5) (w.extractLsb' 16 5)) ∧
  RowReads 0xCB000000#32 0xFFE00000#32 (fun w =>
    .sub (w.extractLsb' 0 5) (w.extractLsb' 5 5) (w.extractLsb' 16 5)) ∧
  RowReads 0xEB000000#32 0xFFE00000#32 (fun w =>
    .subs (w.extractLsb' 0 5) (w.extractLsb' 5 5) (w.extractLsb' 16 5)) ∧
  RowReads 0x8A000000#32 0xFFE00000#32 (fun w =>
    .and (w.extractLsb' 0 5) (w.extractLsb' 5 5) (w.extractLsb' 16 5)) ∧
  RowReads 0xEA000000#32 0xFFE00000#32 (fun w =>
    .ands (w.extractLsb' 0 5) (w.extractLsb' 5 5) (w.extractLsb' 16 5)) ∧
  RowReads 0xAA000000#32 0xFFE00000#32 (fun w =>
    .orr (w.extractLsb' 0 5) (w.extractLsb' 5 5) (w.extractLsb' 16 5)) ∧
  RowReads 0xCA000000#32 0xFFE00000#32 (fun w =>
    .eor (w.extractLsb' 0 5) (w.extractLsb' 5 5) (w.extractLsb' 16 5)) ∧
  RowReads 0xD3600000#32 0xFFE00000#32 (fun w =>
    .lsl (w.extractLsb' 0 5) (w.extractLsb' 5 5) (w.extractLsb' 10 6)) ∧
  RowReads 0xD3400000#32 0xFFE00000#32 (fun w =>
    .lsr (w.extractLsb' 0 5) (w.extractLsb' 5 5) (w.extractLsb' 10 6)) ∧
  RowReads 0xD6000000#32 0xFFE00000#32 (fun w => .br (w.extractLsb' 5 5))

/-- I-format words: imm is word[21:10]; IM-format words: hw is word[22:21], imm word[20:5] (R105, R107). -/
def Obligations.DecodeReadsImmediateFormats : Prop :=
  RowReads 0x91000000#32 0xFFC00000#32 (fun w =>
    .addi (w.extractLsb' 0 5) (w.extractLsb' 5 5) (w.extractLsb' 10 12)) ∧
  RowReads 0xB1000000#32 0xFFC00000#32 (fun w =>
    .addis (w.extractLsb' 0 5) (w.extractLsb' 5 5) (w.extractLsb' 10 12)) ∧
  RowReads 0xD1000000#32 0xFFC00000#32 (fun w =>
    .subi (w.extractLsb' 0 5) (w.extractLsb' 5 5) (w.extractLsb' 10 12)) ∧
  RowReads 0xF1000000#32 0xFFC00000#32 (fun w =>
    .subis (w.extractLsb' 0 5) (w.extractLsb' 5 5) (w.extractLsb' 10 12)) ∧
  RowReads 0x92000000#32 0xFFC00000#32 (fun w =>
    .andi (w.extractLsb' 0 5) (w.extractLsb' 5 5) (w.extractLsb' 10 12)) ∧
  RowReads 0xF2000000#32 0xFFC00000#32 (fun w =>
    .andis (w.extractLsb' 0 5) (w.extractLsb' 5 5) (w.extractLsb' 10 12)) ∧
  RowReads 0xB2000000#32 0xFFC00000#32 (fun w =>
    .orri (w.extractLsb' 0 5) (w.extractLsb' 5 5) (w.extractLsb' 10 12)) ∧
  RowReads 0xD2000000#32 0xFFC00000#32 (fun w =>
    .eori (w.extractLsb' 0 5) (w.extractLsb' 5 5) (w.extractLsb' 10 12)) ∧
  RowReads 0xD2800000#32 0xFF800000#32 (fun w =>
    .movz (w.extractLsb' 0 5) (w.extractLsb' 21 2) (w.extractLsb' 5 16)) ∧
  RowReads 0xF2800000#32 0xFF800000#32 (fun w =>
    .movk (w.extractLsb' 0 5) (w.extractLsb' 21 2) (w.extractLsb' 5 16))

/-- D-format words: address is word[20:12], op2 must be 00; STXR reads Rs from word[20:16] (R106, R110). -/
def Obligations.DecodeReadsMemoryFormat : Prop :=
  RowReads 0xF8400000#32 0xFFE00C00#32 (fun w =>
    .ldur (w.extractLsb' 0 5) (w.extractLsb' 5 5) (w.extractLsb' 12 9)) ∧
  RowReads 0x38400000#32 0xFFE00C00#32 (fun w =>
    .ldurb (w.extractLsb' 0 5) (w.extractLsb' 5 5) (w.extractLsb' 12 9)) ∧
  RowReads 0x78400000#32 0xFFE00C00#32 (fun w =>
    .ldurh (w.extractLsb' 0 5) (w.extractLsb' 5 5) (w.extractLsb' 12 9)) ∧
  RowReads 0xB8800000#32 0xFFE00C00#32 (fun w =>
    .ldursw (w.extractLsb' 0 5) (w.extractLsb' 5 5) (w.extractLsb' 12 9)) ∧
  RowReads 0xF8000000#32 0xFFE00C00#32 (fun w =>
    .stur (w.extractLsb' 0 5) (w.extractLsb' 5 5) (w.extractLsb' 12 9)) ∧
  RowReads 0x38000000#32 0xFFE00C00#32 (fun w =>
    .sturb (w.extractLsb' 0 5) (w.extractLsb' 5 5) (w.extractLsb' 12 9)) ∧
  RowReads 0x78000000#32 0xFFE00C00#32 (fun w =>
    .sturh (w.extractLsb' 0 5) (w.extractLsb' 5 5) (w.extractLsb' 12 9)) ∧
  RowReads 0xB8000000#32 0xFFE00C00#32 (fun w =>
    .sturw (w.extractLsb' 0 5) (w.extractLsb' 5 5) (w.extractLsb' 12 9)) ∧
  RowReads 0xC8400000#32 0xFFE00C00#32 (fun w =>
    .ldxr (w.extractLsb' 0 5) (w.extractLsb' 5 5) (w.extractLsb' 12 9)) ∧
  RowReads 0xC8000000#32 0xFFE00C00#32 (fun w =>
    .stxr (w.extractLsb' 16 5) (w.extractLsb' 0 5) (w.extractLsb' 5 5)) ∧
  (∀ w : InstrWord, ∀ r ∈ opcodeRowsD, w &&& 0xFFE00000#32 = r.pattern →
    w.extractLsb' 10 2 ≠ 0 → decode w = .error .op2NotZero)

/-- B-format words: address is word[25:0]; CB-format words: address is word[23:5], Rt or the condition word[4:0] (R108, R109). -/
def Obligations.DecodeReadsBranchFormats : Prop :=
  RowReads 0x14000000#32 0xFC000000#32 (fun w => .b (w.extractLsb' 0 26)) ∧
  RowReads 0x94000000#32 0xFC000000#32 (fun w => .bl (w.extractLsb' 0 26)) ∧
  RowReads 0xB4000000#32 0xFF000000#32 (fun w => .cbz (w.extractLsb' 0 5) (w.extractLsb' 5 19)) ∧
  RowReads 0xB5000000#32 0xFF000000#32 (fun w => .cbnz (w.extractLsb' 0 5) (w.extractLsb' 5 19)) ∧
  RowReads 0x54000000#32 0xFF00001F#32 (fun w => .bEq (w.extractLsb' 5 19)) ∧
  RowReads 0x54000001#32 0xFF00001F#32 (fun w => .bNe (w.extractLsb' 5 19)) ∧
  RowReads 0x54000002#32 0xFF00001F#32 (fun w => .bHs (w.extractLsb' 5 19)) ∧
  RowReads 0x54000003#32 0xFF00001F#32 (fun w => .bLo (w.extractLsb' 5 19)) ∧
  RowReads 0x54000004#32 0xFF00001F#32 (fun w => .bMi (w.extractLsb' 5 19)) ∧
  RowReads 0x54000005#32 0xFF00001F#32 (fun w => .bPl (w.extractLsb' 5 19)) ∧
  RowReads 0x54000006#32 0xFF00001F#32 (fun w => .bVs (w.extractLsb' 5 19)) ∧
  RowReads 0x54000007#32 0xFF00001F#32 (fun w => .bVc (w.extractLsb' 5 19)) ∧
  RowReads 0x54000008#32 0xFF00001F#32 (fun w => .bHi (w.extractLsb' 5 19)) ∧
  RowReads 0x54000009#32 0xFF00001F#32 (fun w => .bLs (w.extractLsb' 5 19)) ∧
  RowReads 0x5400000A#32 0xFF00001F#32 (fun w => .bGe (w.extractLsb' 5 19)) ∧
  RowReads 0x5400000B#32 0xFF00001F#32 (fun w => .bLt (w.extractLsb' 5 19)) ∧
  RowReads 0x5400000C#32 0xFF00001F#32 (fun w => .bGt (w.extractLsb' 5 19)) ∧
  RowReads 0x5400000D#32 0xFF00001F#32 (fun w => .bLe (w.extractLsb' 5 19)) ∧
  RowReads 0x5400000E#32 0xFF00001F#32 (fun w => .bAl (w.extractLsb' 5 19))

/-- A word is Unknown iff it matches no row; the classes the spec names are Unknown (R119, R103). -/
def Obligations.UnknownWordsAreThoseOfNoRow : Prop :=
  (∀ w : InstrWord, (∃ e, decode w = .error e) ↔ ∀ r ∈ opcodeRows, w &&& r.mask ≠ r.pattern) ∧
  (∀ w : InstrWord, w.extractLsb' 24 8 = 0x54#8 → 15 ≤ (w.extractLsb' 0 5).toNat →
    decode w = .error .condReserved) ∧
  (∀ w : InstrWord, w.extractLsb' 21 11 = 0x6A8#11 → w ≠ 0xD503201F#32 →
    decode w = .error .nopSpace) ∧
  decode 0#32 = .error .opcodeUnused

/-- Words that differ only in the don't-care fields of an instruction decode to the same instruction (R118). -/
def Obligations.DontCareBitsAreIgnored : Prop :=
  (∀ w w' i, decode w = .ok i → w &&& ~~~(ignoredBits i) = w' &&& ~~~(ignoredBits i) →
    decode w' = .ok i) ∧
  (∀ w i, decode w = .ok i → ignoredBits i =
    (if i.mnemonic ∈ ["ADD", "ADDS", "SUB", "SUBS", "AND", "ANDS", "ORR", "EOR"] then 0x0000FC00#32
     else if i.mnemonic ∈ ["LSL", "LSR"] then 0x001F0000#32
     else if i.mnemonic = "BR" then 0x001FFC1F#32
     else if i.mnemonic = "STXR" then 0x0000F000#32 else 0#32))

/-- Words written out in the spec's test vectors decode to the instruction they stand for (95_test_vectors.md 2.1, 95_test_vectors.md 2.2, R103). -/
def Obligations.WordsOfTheSpecDecode : Prop :=
  decode 0x8B020023#32 = .ok (.add 3 1 2) ∧
  decode 0xD360FC01#32 = .ok (.lsl 1 0 63) ∧
  decode 0x91002BE1#32 = .ok (.addi 1 31 10) ∧
  decode 0xF85F8002#32 = .ok (.ldur 2 0 (-8)) ∧
  decode 0xC8020001#32 = .ok (.stxr 2 1 0) ∧
  decode 0xD2A24681#32 = .ok (.movz 1 1 0x1234) ∧
  decode 0x17FFFFFE#32 = .ok (.b (-2)) ∧
  decode 0xB4000040#32 = .ok (.cbz 0 2) ∧
  decode 0x5400008D#32 = .ok (.bLe 4) ∧
  decode 0xD503201F#32 = .ok .nop

/-- The fields of a machine-code breakdown put together give the word back (R135, R104, R105, R106, R107, R108, R109). -/
def Obligations.BreakdownFieldsTileTheWord : Prop :=
  ∀ w i, decode w = .ok i → i.format ≠ .none →
    ((breakdown w).fields.map fun f => f.value <<< f.lo).sum = w.toNat

/-- Additive flags: the source's formulas, and their meaning as carry-out and signed overflow (R162). -/
def Obligations.AddFlagsAreCarryOutAndSignedOverflow : Prop :=
  ∀ a b : Word,
    ((addFlags a b (a + b)).z = true ↔ a + b = 0) ∧
    ((addFlags a b (a + b)).n = true ↔ (a + b).toInt < 0) ∧
    ((addFlags a b (a + b)).c = true ↔ (a + b).toNat < a.toNat ∨ (a + b).toNat < b.toNat) ∧
    ((a + b).toNat < a.toNat ↔ (a + b).toNat < b.toNat) ∧
    ((addFlags a b (a + b)).c = true ↔ 2 ^ 64 ≤ a.toNat + b.toNat) ∧
    ((addFlags a b (a + b)).v = true ↔
      ((a ^^^ (a + b)) &&& (b ^^^ (a + b))).toInt < 0) ∧
    ((addFlags a b (a + b)).v = true ↔
      (a.toInt < 0 ↔ b.toInt < 0) ∧ ¬ ((a + b).toInt < 0 ↔ a.toInt < 0))

/-- Subtractive flags: no borrow compared unsigned, and signed overflow (R163). -/
def Obligations.SubFlagsAreNoBorrowAndSignedOverflow : Prop :=
  ∀ a b : Word,
    ((subFlags a b (a - b)).z = true ↔ a - b = 0) ∧
    ((subFlags a b (a - b)).n = true ↔ (a - b).toInt < 0) ∧
    ((subFlags a b (a - b)).c = true ↔ b.toNat ≤ a.toNat) ∧
    ((subFlags a b (a - b)).c = true ↔ 2 ^ 64 ≤ a.toNat + (~~~b).toNat + 1) ∧
    ((subFlags a b (a - b)).v = true ↔
      ((a ^^^ b) &&& (a ^^^ (a - b))).toInt < 0) ∧
    ((subFlags a b (a - b)).v = true ↔
      (a.toInt - b.toInt < -(2 : Int) ^ 63 ∨ (2 : Int) ^ 63 ≤ a.toInt - b.toInt))

/-- ADD, ADDI, SUB, SUBI: result modulo 2^64, register 31 discarded, nothing else changed (R170, R172, R174, R176). -/
def Obligations.AddAndSubtractResults : Prop :=
  (∀ s rd rn rm, ∃ t, exec (.add rd rn rm) s = .next t ∧
    ResultOnly s t rd (s.readReg rn + s.readReg rm)) ∧
  (∀ s rd rn imm, ∃ t, exec (.addi rd rn imm) s = .next t ∧
    ResultOnly s t rd (s.readReg rn + BitVec.signExtend 64 (imm : BitVec 12))) ∧
  (∀ s rd rn rm, ∃ t, exec (.sub rd rn rm) s = .next t ∧
    ResultOnly s t rd (s.readReg rn - s.readReg rm)) ∧
  (∀ s rd rn imm, ∃ t, exec (.subi rd rn imm) s = .next t ∧
    ResultOnly s t rd (s.readReg rn - BitVec.signExtend 64 (imm : BitVec 12)))

/-- ADDS, ADDIS, SUBS, SUBIS: result and all four flags, nothing else changed (R171, R173, R175, R177). -/
def Obligations.AddAndSubtractFlagSettingResults : Prop :=
  (∀ s rd rn rm, ∃ t, exec (.adds rd rn rm) s = .next t ∧
    ResultAndFlags s t rd (s.readReg rn + s.readReg rm)
      (addFlags (s.readReg rn) (s.readReg rm) (s.readReg rn + s.readReg rm))) ∧
  (∀ s rd rn imm, ∃ t, exec (.addis rd rn imm) s = .next t ∧
    ResultAndFlags s t rd (s.readReg rn + BitVec.signExtend 64 (imm : BitVec 12))
      (addFlags (s.readReg rn) (BitVec.signExtend 64 (imm : BitVec 12)) (s.readReg rn + BitVec.signExtend 64 (imm : BitVec 12)))) ∧
  (∀ s rd rn rm, ∃ t, exec (.subs rd rn rm) s = .next t ∧
    ResultAndFlags s t rd (s.readReg rn - s.readReg rm)
      (subFlags (s.readReg rn) (s.readReg rm) (s.readReg rn - s.readReg rm))) ∧
  (∀ s rd rn imm, ∃ t, exec (.subis rd rn imm) s = .next t ∧
    ResultAndFlags s t rd (s.readReg rn - BitVec.signExtend 64 (imm : BitVec 12))
      (subFlags (s.readReg rn) (BitVec.signExtend 64 (imm : BitVec 12)) (s.readReg rn - BitVec.signExtend 64 (imm : BitVec 12))))

/-- CMP and CMPI set the subtractive flags and write no register; they act as SUBS and SUBIS with Rd = 31 (R178, R179). -/
def Obligations.CompareSetsFlagsOnly : Prop :=
  (∀ s rn rm, ∃ t, exec (.cmp rn rm) s = .next t ∧
    FlagsOnly s t (subFlags (s.readReg rn) (s.readReg rm) (s.readReg rn - s.readReg rm)) ∧
    exec (.subs 31 rn rm) s = .next t) ∧
  (∀ s rn imm, ∃ t, exec (.cmpi rn imm) s = .next t ∧
    FlagsOnly s t (subFlags (s.readReg rn) (BitVec.signExtend 64 (imm : BitVec 12)) (s.readReg rn - BitVec.signExtend 64 (imm : BitVec 12))) ∧
    exec (.subis 31 rn imm) s = .next t)

/-- AND, ANDI, ORR, ORRI, EOR, EORI, MOV: bitwise result, nothing else changed; MOV acts as ORR with Rn = 31 (R180, R182, R184, R185, R186, R187, R189). -/
def Obligations.LogicalResults : Prop :=
  (∀ s rd rn rm, ∃ t, exec (.and rd rn rm) s = .next t ∧
    ResultOnly s t rd (s.readReg rn &&& s.readReg rm)) ∧
  (∀ s rd rn imm, ∃ t, exec (.andi rd rn imm) s = .next t ∧
    ResultOnly s t rd (s.readReg rn &&& BitVec.signExtend 64 (imm : BitVec 12))) ∧
  (∀ s rd rn rm, ∃ t, exec (.orr rd rn rm) s = .next t ∧
    ResultOnly s t rd (s.readReg rn ||| s.readReg rm)) ∧
  (∀ s rd rn imm, ∃ t, exec (.orri rd rn imm) s = .next t ∧
    ResultOnly s t rd (s.readReg rn ||| BitVec.signExtend 64 (imm : BitVec 12))) ∧
  (∀ s rd rn rm, ∃ t, exec (.eor rd rn rm) s = .next t ∧
    ResultOnly s t rd (s.readReg rn ^^^ s.readReg rm)) ∧
  (∀ s rd rn imm, ∃ t, exec (.eori rd rn imm) s = .next t ∧
    ResultOnly s t rd (s.readReg rn ^^^ BitVec.signExtend 64 (imm : BitVec 12))) ∧
  (∀ s rd rm, ∃ t, exec (.mov rd rm) s = .next t ∧ ResultOnly s t rd (s.readReg rm) ∧
    exec (.orr rd 31 rm) s = .next t)

/-- ANDS and ANDIS: bitwise AND with Z and N of the result and C = V = 0, nothing else changed (R181, R183, R164). -/
def Obligations.LogicalFlagSettingResults : Prop :=
  (∀ s rd rn rm, ∃ t, exec (.ands rd rn rm) s = .next t ∧
    ResultAndFlags s t rd (s.readReg rn &&& s.readReg rm)
      (⟨decide (s.readReg rn &&& s.readReg rm = 0), decide ((s.readReg rn &&& s.readReg rm).toInt < 0), false, false⟩)) ∧
  (∀ s rd rn imm, ∃ t, exec (.andis rd rn imm) s = .next t ∧
    ResultAndFlags s t rd (s.readReg rn &&& BitVec.signExtend 64 (imm : BitVec 12))
      (⟨decide (s.readReg rn &&& BitVec.signExtend 64 (imm : BitVec 12) = 0), decide ((s.readReg rn &&& BitVec.signExtend 64 (imm : BitVec 12)).toInt < 0), false, false⟩))

/-- LSL and LSR by the immediate shamt: bits moved, zeros filled, nothing else changed (R190, R191). -/
def Obligations.ShiftResults : Prop :=
  (∀ s rd rn (sh : BitVec 6), ∃ t, exec (.lsl rd rn sh) s = .next t ∧
    ResultOnly s t rd (BitVec.ofNat 64 ((s.readReg rn).toNat * 2 ^ sh.toNat))) ∧
  (∀ s rd rn (sh : BitVec 6), ∃ t, exec (.lsr rd rn sh) s = .next t ∧
    ResultOnly s t rd (BitVec.ofNat 64 ((s.readReg rn).toNat / 2 ^ sh.toNat)))

/-- MOVZ and MOVK: the immediate in its halfword, zero or the old halfwords elsewhere, nothing else changed (R195, R196). -/
def Obligations.WideMoveResults : Prop :=
  (∀ s rd (hw : BitVec 2) (imm : BitVec 16), ∃ t v, exec (.movz rd hw imm) s = .next t ∧
    ResultOnly s t rd v ∧ v = imm.setWidth 64 <<< (16 * hw.toNat) ∧
    ∀ j < 4, v.extractLsb' (16 * j) 16 = if j = hw.toNat then imm else 0) ∧
  (∀ s rd (hw : BitVec 2) (imm : BitVec 16), ∃ t v, exec (.movk rd hw imm) s = .next t ∧
    ResultOnly s t rd v ∧
    v = (s.readReg rd &&& ~~~(0xFFFF#64 <<< (16 * hw.toNat))) |||
      (imm.setWidth 64 <<< (16 * hw.toNat)) ∧
    ∀ j < 4, v.extractLsb' (16 * j) 16 =
      if j = hw.toNat then imm else (s.readReg rd).extractLsb' (16 * j) 16)

/-- The flag-setting instructions write all four flags, whatever their destination; no other instruction changes a flag (R161). -/
def Obligations.FlagsChangeOnlyByFlagSettingInstructions : Prop :=
  (∀ i : Instr, (ctrlOf i).flagWrite = true ↔ i.mnemonic ∈
    (["ADDS", "ADDIS", "SUBS", "SUBIS", "ANDS", "ANDIS", "CMP", "CMPI"] : List String)) ∧
  (∀ i s f, (ctrlOf i).flagWrite = true → exec i (s.setFlags f) = exec i s) ∧
  (∀ i s t, (ctrlOf i).flagWrite = false → exec i s = .next t → t.flags = s.flags)

/-- A register read gives the value written; register 31 reads 0 and discards writes (R14, R32). -/
def Obligations.RegisterReadAfterWrite : Prop :=
  (∀ (s : State) (i j : Reg) (v : Word), (s.writeReg i v).readReg j =
    if j = 31 then 0 else if j = i then v else s.readReg j) ∧
  (∀ s : State, s.readReg 31 = 0) ∧
  (∀ (s : State) (v : Word), s.writeReg 31 v = s)

/-- No instruction changes a general register other than its destination (R41, R46). -/
def Obligations.OnlyTheDestinationRegisterChanges : Prop :=
  ∀ i s t (q : Reg), exec i s = .next t → i.dest ≠ some q → t.readReg q = s.readReg q

/-- An instruction's effect does not depend on a register it does not read (R41, R17). -/
def Obligations.RegistersNotReadDoNotMatter : Prop :=
  ∀ i s t (q : Reg) (v : Word), q ∉ i.sources → i.dest ≠ some q → exec i s = .next t →
    exec i (s.writeReg q v) = .next (t.writeReg q v)

/-- MemRead: byte i of the value is the byte at address + i, modulo 2^64; an unwritten byte reads 0 (R71). -/
def Obligations.MemReadIsLittleEndian : Prop :=
  (∀ (m : Memory) (a : Word) (n : Nat), n = 1 ∨ n = 2 ∨ n = 4 ∨ n = 8 → ∀ k < n,
    (memRead m a n).extractLsb' (8 * k) 8 = readByte m ((a.toNat + k) % 2 ^ 64)) ∧
  (∀ a : Nat, readByte [] a = 0)

/-- MemWrite puts byte k of the value at address + k, modulo 2^64, and changes no other byte (R72). -/
def Obligations.MemWriteChangesExactlyItsBytes : Prop :=
  ∀ (m : Memory) (a : Word) (n : Nat) (v : BitVec (8 * n)), n = 1 ∨ n = 2 ∨ n = 4 ∨ n = 8 →
    (∀ k < n, readByte (memWrite m a n v) ((a.toNat + k) % 2 ^ 64) = v.extractLsb' (8 * k) 8) ∧
    (∀ b : Nat, (∀ k < n, b ≠ (a.toNat + k) % 2 ^ 64) →
      readByte (memWrite m a n v) b = readByte m b)

/-- Store then load at the same address and width returns the stored value, sign-extended by a signed load (R95). -/
def Obligations.StoreThenLoadReturnsTheValue : Prop :=
  (∀ (m : Memory) (a v : Word) (n : Nat), n = 1 ∨ n = 2 ∨ n = 4 ∨ n = 8 →
    memRead (memWrite m a n (v.setWidth (8 * n))) a n = v.setWidth (8 * n)) ∧
  (∀ (m : Memory) (a v : Word),
    (memRead (memWrite m a 4 (v.setWidth 32)) a 4).signExtend 64 =
      (v.setWidth 32).signExtend 64) ∧
  (∀ s t u (rt rt' rn : Reg) (off : BitVec 9), rt' ≠ 31 → exec (.stur rt rn off) s = .next t →
    exec (.ldur rt' rn off) t = .next u →
    u.readReg rt' = s.readReg rt) ∧
  (∀ s t u (rt rt' rn : Reg) (off : BitVec 9), rt' ≠ 31 → exec (.sturb rt rn off) s = .next t →
    exec (.ldurb rt' rn off) t = .next u →
    u.readReg rt' = ((s.readReg rt).setWidth 8).setWidth 64) ∧
  (∀ s t u (rt rt' rn : Reg) (off : BitVec 9), rt' ≠ 31 → exec (.sturh rt rn off) s = .next t →
    exec (.ldurh rt' rn off) t = .next u →
    u.readReg rt' = ((s.readReg rt).setWidth 16).setWidth 64) ∧
  (∀ s t u (rt rt' rn : Reg) (off : BitVec 9), rt' ≠ 31 → exec (.sturw rt rn off) s = .next t →
    exec (.ldursw rt' rn off) t = .next u →
    u.readReg rt' = ((s.readReg rt).setWidth 32).signExtend 64)

/-- A narrower read at a write's address gives its low bytes; a read that overlaps two writes takes each byte from the latest (R73). -/
def Obligations.MixedWidthAccessesSeeBytes : Prop :=
  (∀ (m : Memory) (a v : Word) (n k : Nat), (n = 1 ∨ n = 2 ∨ n = 4 ∨ n = 8) →
    (k = 1 ∨ k = 2 ∨ k = 4 ∨ k = 8) → k ≤ n →
    memRead (memWrite m a n (v.setWidth (8 * n))) a k = v.setWidth (8 * k)) ∧
  (∀ (m : Memory) (a b c : Word) (n k r : Nat) (v : BitVec (8 * n)) (w : BitVec (8 * k)),
    (n = 1 ∨ n = 2 ∨ n = 4 ∨ n = 8) → (k = 1 ∨ k = 2 ∨ k = 4 ∨ k = 8) → (r = 1 ∨ r = 2 ∨ r = 4 ∨ r = 8) →
    ∀ l < r,
    (∀ j < k, (c.toNat + l) % 2 ^ 64 = (b.toNat + j) % 2 ^ 64 →
      (memRead (memWrite (memWrite m a n v) b k w) c r).extractLsb' (8 * l) 8 =
        w.extractLsb' (8 * j) 8) ∧
    (∀ j < n, (c.toNat + l) % 2 ^ 64 = (a.toNat + j) % 2 ^ 64 →
      (∀ i < k, (c.toNat + l) % 2 ^ 64 ≠ (b.toNat + i) % 2 ^ 64) →
      (memRead (memWrite (memWrite m a n v) b k w) c r).extractLsb' (8 * l) 8 =
        v.extractLsb' (8 * j) 8) ∧
    ((∀ i < k, (c.toNat + l) % 2 ^ 64 ≠ (b.toNat + i) % 2 ^ 64) →
      (∀ j < n, (c.toNat + l) % 2 ^ 64 ≠ (a.toNat + j) % 2 ^ 64) →
      (memRead (memWrite (memWrite m a n v) b k w) c r).extractLsb' (8 * l) 8 =
        readByte m ((c.toNat + l) % 2 ^ 64)))

/-- Memory writes keep the canonical form, and canonical memories that read alike are equal (R70, 20_memory.md 1). -/
def Obligations.MemoryKeepsItsCanonicalForm : Prop :=
  (∀ (m : Memory) (a : Word) (n : Nat) (v : BitVec (8 * n)), m.wf = true →
    (memWrite m a n v).wf = true) ∧
  State.reset.mem.wf = true ∧
  (∀ m m' : Memory, m.wf = true → m'.wf = true →
    (∀ a, readByte m a = readByte m' a) → m = m')

/-- LDUR, LDURB, LDURH zero-extend, LDURSW sign-extends; any address; nothing else changed (R222, R223, R224, R225). -/
def Obligations.LoadResults : Prop :=
  (∀ s rt rn (off : BitVec 9), ∃ t, exec (.ldur rt rn off) s = .next t ∧
    ResultOnly s t rt ((memRead s.mem (s.ea rn off) 8).setWidth 64)) ∧
  (∀ s rt rn (off : BitVec 9), ∃ t, exec (.ldurb rt rn off) s = .next t ∧
    ResultOnly s t rt ((memRead s.mem (s.ea rn off) 1).setWidth 64)) ∧
  (∀ s rt rn (off : BitVec 9), ∃ t, exec (.ldurh rt rn off) s = .next t ∧
    ResultOnly s t rt ((memRead s.mem (s.ea rn off) 2).setWidth 64)) ∧
  (∀ s rt rn (off : BitVec 9), ∃ t, exec (.ldursw rt rn off) s = .next t ∧
    ResultOnly s t rt ((memRead s.mem (s.ea rn off) 4).signExtend 64)) ∧
  (∀ (s : State) (rn : Reg) (off : BitVec 9), s.ea rn off = s.readReg rn + off.signExtend 64)

/-- STUR, STURB, STURH, STURW store the low 8, 1, 2, 4 bytes of Rt; every other byte and the rest unchanged (R230, R231, R232, R233). -/
def Obligations.StoreResults : Prop :=
  (∀ s rt rn (off : BitVec 9), ∃ t, exec (.stur rt rn off) s = .next t ∧
    StoreOnly s t (s.ea rn off) 8 (s.readReg rt)) ∧
  (∀ s rt rn (off : BitVec 9), ∃ t, exec (.sturb rt rn off) s = .next t ∧
    StoreOnly s t (s.ea rn off) 1 (s.readReg rt)) ∧
  (∀ s rt rn (off : BitVec 9), ∃ t, exec (.sturh rt rn off) s = .next t ∧
    StoreOnly s t (s.ea rn off) 2 (s.readReg rt)) ∧
  (∀ s rt rn (off : BitVec 9), ∃ t, exec (.sturw rt rn off) s = .next t ∧
    StoreOnly s t (s.ea rn off) 4 (s.readReg rt))

/-- LDXR loads eight bytes and reserves its address, also when Rt is 31 (R240). -/
def Obligations.LoadExclusiveResult : Prop :=
  ∀ s rt rn (off : BitVec 9), ∃ t, exec (.ldxr rt rn off) s = .next t ∧
    t.excl = ⟨true, s.readReg rn + off.signExtend 64⟩ ∧
    t.readReg rt = (if rt = 31 then 0 else memRead s.mem (s.ea rn off) 8) ∧
    SameRegsBut s t rt ∧ t.flags = s.flags ∧ t.pc = s.pc + 4 ∧ SameMem s t ∧ SameRun s t

/-- STXR stores and writes status 0 iff the monitor is valid for its address, else writes 1 and leaves memory; it ends the reservation (R241). -/
def Obligations.StoreExclusiveResult : Prop :=
  ∀ s rs rt rn, ∃ t, exec (.stxr rs rt rn) s = .next t ∧
    t.excl = ⟨false, s.excl.addr⟩ ∧ SameRegsBut s t rs ∧ t.flags = s.flags ∧ t.pc = s.pc + 4 ∧
    SameRun s t ∧
    (s.excl.valid = true ∧ s.excl.addr = s.readReg rn →
      Holds t (s.readReg rn) 8 (s.readReg rt) ∧ SameMemBut s t (s.readReg rn) 8 ∧
      t.readReg rs = 0) ∧
    (¬ (s.excl.valid = true ∧ s.excl.addr = s.readReg rn) →
      SameMem s t ∧ t.readReg rs = if rs = 31 then 0 else 1)

/-- Only LDXR, STXR, reset and loadProgram touch the reservation; ordinary stores do not, and the match is exact (R242). -/
def Obligations.ReservationEndsOnlyByStxrOrReset : Prop :=
  (∀ i s t, i.isExclusive = false → exec i s = .next t → t.excl = s.excl) ∧
  (∀ s t rs rt rn, exec (.stxr rs rt rn) s = .next t → t.excl.valid = false) ∧
  (∀ (s : State) (p : List Slot), s.hostReset.excl.valid = false ∧
    (s.loadProgram p).excl.valid = false) ∧
  (∀ s t : State, s.issue = .skip t → t.excl = s.excl) ∧
  (∀ s t rs rt rn, s.excl.addr ≠ s.readReg rn → exec (.stxr rs rt rn) s = .next t →
    SameMem s t)

/-- STXR after LDXR of the same address succeeds whatever other instructions run between them (R92, R240, R241). -/
def Obligations.LoadExclusiveThenStoreExclusiveSucceeds : Prop :=
  ∀ s s1 s2 t (rt rn rs rt' rn' : Reg) (off : BitVec 9) (is : List Instr),
    exec (.ldxr rt rn off) s = .next s1 → (∀ i ∈ is, i.isExclusive = false) →
    execAll is s1 = .next s2 → s2.readReg rn' = s.ea rn off →
    exec (.stxr rs rt' rn') s2 = .next t →
    t.readReg rs = 0 ∧ Holds t (s.ea rn off) 8 (s2.readReg rt')

/-- Every byte of memory outside the bytes an instruction stores to is unchanged (R78, R72, R41). -/
def Obligations.OnlyStoresChangeMemory : Prop :=
  (∀ i s t ea n, exec i s = .next t → i.storesTo s = some (ea, n) → SameMemBut s t ea n) ∧
  (∀ i s t, exec i s = .next t → i.storesTo s = none → SameMem s t)

/-- A target is valid iff it is the address of a slot of the loaded program (R260, R33). -/
def Obligations.ValidTargetsAreTheSlotAddresses : Prop :=
  ∀ (s : State) (t : Word), s.validTarget t = true ↔
    ∃ i < s.imem.length, t.toNat = slotNat s i

/-- B, BL and BR: target, link, unresolved slot and invalid target (R262, R263, R264). -/
def Obligations.UnconditionalBranchMeanings : Prop :=
  (∀ s off, LabelBranchMeans (.b off) s True (s.pc + BitVec.signExtend 64 (off : BitVec 26) <<< 2) (SameRegs s)) ∧
  (∀ s off, LabelBranchMeans (.bl off) s True (s.pc + BitVec.signExtend 64 (off : BitVec 26) <<< 2)
    (fun t => t.readReg 30 = s.pc + 4 ∧ SameRegsBut s t 30)) ∧
  (∀ s rn,
    (s.validTarget (s.readReg rn) = true →
      ∃ t, exec (.br rn) s = .next t ∧ Jumped s t (s.readReg rn) ∧ SameRegs s t) ∧
    (s.validTarget (s.readReg rn) = false →
      ∃ t, exec (.br rn) s = .next t ∧
        Raised s t .invalidBranchTarget (.target (s.readReg rn)) s.pc .faulted))

/-- CBZ and CBNZ: taken iff the tested register is zero, or not zero (R266, R267). -/
def Obligations.CompareBranchMeanings : Prop :=
  (∀ s rt off, LabelBranchMeans (.cbz rt off) s (s.readReg rt = 0) (s.pc + BitVec.signExtend 64 (off : BitVec 19) <<< 2) (SameRegs s)) ∧
  (∀ s rt off, LabelBranchMeans (.cbnz rt off) s (s.readReg rt ≠ 0) (s.pc + BitVec.signExtend 64 (off : BitVec 19) <<< 2) (SameRegs s))

/-- The fifteen B.cond instructions branch iff their condition on the flags holds (R270, R271). -/
def Obligations.ConditionalBranchMeanings : Prop :=
  (∀ s off, LabelBranchMeans (.bEq off) s (s.flags.z = true)
    (s.pc + BitVec.signExtend 64 (off : BitVec 19) <<< 2) (SameRegs s)) ∧
  (∀ s off, LabelBranchMeans (.bNe off) s (s.flags.z = false)
    (s.pc + BitVec.signExtend 64 (off : BitVec 19) <<< 2) (SameRegs s)) ∧
  (∀ s off, LabelBranchMeans (.bHs off) s (s.flags.c = true)
    (s.pc + BitVec.signExtend 64 (off : BitVec 19) <<< 2) (SameRegs s)) ∧
  (∀ s off, LabelBranchMeans (.bLo off) s (s.flags.c = false)
    (s.pc + BitVec.signExtend 64 (off : BitVec 19) <<< 2) (SameRegs s)) ∧
  (∀ s off, LabelBranchMeans (.bMi off) s (s.flags.n = true)
    (s.pc + BitVec.signExtend 64 (off : BitVec 19) <<< 2) (SameRegs s)) ∧
  (∀ s off, LabelBranchMeans (.bPl off) s (s.flags.n = false)
    (s.pc + BitVec.signExtend 64 (off : BitVec 19) <<< 2) (SameRegs s)) ∧
  (∀ s off, LabelBranchMeans (.bVs off) s (s.flags.v = true)
    (s.pc + BitVec.signExtend 64 (off : BitVec 19) <<< 2) (SameRegs s)) ∧
  (∀ s off, LabelBranchMeans (.bVc off) s (s.flags.v = false)
    (s.pc + BitVec.signExtend 64 (off : BitVec 19) <<< 2) (SameRegs s)) ∧
  (∀ s off, LabelBranchMeans (.bHi off) s (s.flags.c = true ∧ s.flags.z = false)
    (s.pc + BitVec.signExtend 64 (off : BitVec 19) <<< 2) (SameRegs s)) ∧
  (∀ s off, LabelBranchMeans (.bLs off) s (¬ (s.flags.c = true ∧ s.flags.z = false))
    (s.pc + BitVec.signExtend 64 (off : BitVec 19) <<< 2) (SameRegs s)) ∧
  (∀ s off, LabelBranchMeans (.bGe off) s (s.flags.n = s.flags.v)
    (s.pc + BitVec.signExtend 64 (off : BitVec 19) <<< 2) (SameRegs s)) ∧
  (∀ s off, LabelBranchMeans (.bLt off) s (s.flags.n ≠ s.flags.v)
    (s.pc + BitVec.signExtend 64 (off : BitVec 19) <<< 2) (SameRegs s)) ∧
  (∀ s off, LabelBranchMeans (.bGt off) s (s.flags.z = false ∧ s.flags.n = s.flags.v)
    (s.pc + BitVec.signExtend 64 (off : BitVec 19) <<< 2) (SameRegs s)) ∧
  (∀ s off, LabelBranchMeans (.bLe off) s (s.flags.z = true ∨ s.flags.n ≠ s.flags.v)
    (s.pc + BitVec.signExtend 64 (off : BitVec 19) <<< 2) (SameRegs s)) ∧
  (∀ s off, LabelBranchMeans (.bAl off) s (True)
    (s.pc + BitVec.signExtend 64 (off : BitVec 19) <<< 2) (SameRegs s))

/-- An unresolved label branch falls through with its warning, whatever its condition (R315). -/
def Obligations.UnresolvedBranchesFallThrough : Prop :=
  (∀ i s target, i.labelTarget? s = some target → s.unresolvedHere = true →
    ∃ t, exec i s = .next t ∧ Raised s t .unresolvedLabel .none (s.pc + 4) s.status) ∧
  (∀ i s target, i.labelTarget? s = some target → s.unresolvedHere = false →
    i.branchCondition s = false → ∃ t, exec i s = .next t ∧ AdvanceOnly s t)

/-- NOP is the one word 0xD503201F and only advances the pc (R300). -/
def Obligations.NopOnlyAdvances : Prop :=
  (∀ s, ∃ t, exec .nop s = .next t ∧ AdvanceOnly s t) ∧
  (∀ w : InstrWord, decode w = .ok .nop ↔ w = 0xD503201F#32)

/-- When the slot at the pc decodes to i, a step is exec of i with the snapshot taken, then the end-of-run test (R42, R43). -/
def Obligations.StepRunsTheDecodedInstruction : Prop :=
  ∀ (s u : State) (sl : Slot) (i : Instr), s.status = .running → s.slotHere? = some sl →
    sl.asmError = none → decode sl.word = .ok i →
    exec i { s with last := some ⟨(s.pc - s.base).toNat / 4, sl.word, ctrlOf i⟩ } = .next u →
    step s = .next (if u.status = .running ∧ (∀ l, u.last = some l → l.ctrl.branchTaken = false) ∧
        u.pc = u.base + BitVec.ofNat 64 (4 * u.imem.length)
      then { u with status := .halted } else u)

/-- A step in status Halted or Faulted changes nothing; reset and loadProgram leave it (R38, R342, R340). -/
def Obligations.StoppedRunsStay : Prop :=
  (∀ s, s.status ≠ .running → step s = .next s ∧ ∀ n, stepTimes n s = .next s) ∧
  (∀ s : State, 0 < s.imem.length → s.hostReset.status = .running) ∧
  (∀ (s : State) (p : List Slot), 0 < p.length → (s.loadProgram p).status = .running)

/-- A step on an Unknown word raises UnknownInstruction with the word, advances the pc and changes nothing else (Halted at the end: log 6) (R301, R312, R42, R43). -/
def Obligations.UnknownWordsActAsNop : Prop :=
  ∀ (s : State) (sl : Slot) (e : UnknownWord), s.status = .running → s.slotHere? = some sl →
    sl.asmError = none → decode sl.word = .error e → ∃ t, step s = .next t ∧
    t.trace = s.trace ++ [⟨.unknownInstruction, s.pc, .word sl.word⟩] ∧ t.pc = s.pc + 4 ∧
    t.last = some ⟨(s.pc - s.base).toNat / 4, sl.word, zeroCtrl⟩ ∧
    t.status = (if s.pc + 4 = s.endAddr then .halted else .running) ∧
    SameRegs s t ∧ t.flags = s.flags ∧ SameMem s t ∧ t.excl = s.excl ∧ t.imem = s.imem ∧
    t.base = s.base ∧ t.spInit = s.spInit

/-- A step on a slot with an assembler error raises that error, with the pc only (log 8), and skips the slot (R314, R42, R43, R310). -/
def Obligations.SlotsWithAssemblerErrorsAreSkipped : Prop :=
  (∀ (s : State) (sl : Slot), s.status = .running → s.slotHere? = some sl →
    sl.asmError = some .unknownInstruction → ∃ t, step s = .next t ∧
    t.trace = s.trace ++ [⟨.unknownInstruction, s.pc, .none⟩] ∧ t.pc = s.pc + 4 ∧
    t.last = some ⟨(s.pc - s.base).toNat / 4, sl.word, zeroCtrl⟩ ∧
    t.status = (if s.pc + 4 = s.endAddr then .halted else .running) ∧
    SameRegs s t ∧ t.flags = s.flags ∧ SameMem s t ∧ t.excl = s.excl ∧ t.imem = s.imem ∧
    t.base = s.base ∧ t.spInit = s.spInit ∧
    t.eventWord? ⟨.unknownInstruction, s.pc, .none⟩ = some sl.word) ∧
  (∀ (s : State) (sl : Slot), s.status = .running → s.slotHere? = some sl →
    sl.asmError = some .invalidOperand → ∃ t, step s = .next t ∧
    t.trace = s.trace ++ [⟨.invalidOperand, s.pc, .none⟩] ∧ t.pc = s.pc + 4 ∧
    t.last = some ⟨(s.pc - s.base).toNat / 4, sl.word, zeroCtrl⟩ ∧
    t.status = (if s.pc + 4 = s.endAddr then .halted else .running) ∧
    SameRegs s t ∧ t.flags = s.flags ∧ SameMem s t ∧ t.excl = s.excl ∧ t.imem = s.imem ∧
    t.base = s.base ∧ t.spInit = s.spInit)

/-- A step raises at most one event, and the checks come in the order asmError, Unknown, unresolved, target (R318). -/
def Obligations.OneEventPerStepInOrder : Prop :=
  (∀ s t, step s = .next t → t.trace = s.trace ∨
    ∃ k info, t.trace = s.trace ++ [⟨k, s.pc, info⟩]) ∧
  (∀ (s t : State) (sl : Slot), s.status = .running → s.slotHere? = some sl → step s = .next t →
    (∀ a, sl.asmError = some a →
      ∃ info, t.trace = s.trace ++ [⟨asmErrorKind a, s.pc, info⟩]) ∧
    (∀ e, sl.asmError = none → decode sl.word = .error e →
      ∃ info, t.trace = s.trace ++ [⟨.unknownInstruction, s.pc, info⟩]) ∧
    (∀ i target, sl.asmError = none → decode sl.word = .ok i → i.labelTarget? s = some target →
      sl.unresolved = true → t.trace = s.trace ++ [⟨.unresolvedLabel, s.pc, .none⟩]) ∧
    (∀ i, sl.asmError = none → decode sl.word = .ok i →
      (i.labelTarget? s = none ∨ sl.unresolved = false) →
      t.trace = s.trace ∨ ∃ a, t.trace = s.trace ++ [⟨.invalidBranchTarget, s.pc, .target a⟩]))

/-- InvalidBranchTarget is the only fatal event, and the state is the one before the instruction plus status, trace and the snapshot (log 7) (R313, R42, R39). -/
def Obligations.FatalFaultIsPrecise : Prop :=
  (∀ s t, s.status = .running → step s = .next t → t.status = .faulted →
    (∃ sl i a, s.slotHere? = some sl ∧ decode sl.word = .ok i ∧ i.takenTo? s = some a ∧
      s.validTarget a = false ∧ (ctrlOf i).branchTaken = false ∧
      t = { s with
        status := .faulted
        trace := s.trace ++ [⟨.invalidBranchTarget, s.pc, .target a⟩]
        last := some ⟨(s.pc - s.base).toNat / 4, sl.word, ctrlOf i⟩ }) ∧
    ∀ n, stepTimes n t = .next t) ∧
  (∀ s t a, step s = .next t → t.trace = s.trace ++ [⟨.invalidBranchTarget, s.pc, a⟩] →
    t.status = .faulted)

/-- No step raises MemoryWidthError (R317). -/
def Obligations.MemoryWidthErrorNeverOccurs : Prop :=
  ∀ s t, step s = .next t → ∀ e ∈ t.trace, e ∈ s.trace ∨ e.kind ≠ .memoryWidthError

/-- No step changes the loaded program, BASE or SP_INIT (R33, R93, R47). -/
def Obligations.TheProgramIsImmutable : Prop :=
  ∀ s t, step s = .next t → t.imem = s.imem ∧ t.base = s.base ∧ t.spInit = s.spInit

/-- After a Running step the snapshot has the slot's index, word and signals, branchTaken 1 iff a branch was taken (fatal step: log 7) (R39, R42, R126). -/
def Obligations.SnapshotIsOfTheExecutedSlot : Prop :=
  ∀ (s t : State) (sl : Slot), s.status = .running → s.slotHere? = some sl → step s = .next t →
    ∃ c, t.last = some ⟨(s.pc - s.base).toNat / 4, sl.word, c⟩ ∧
    ((sl.asmError ≠ none ∨ ∃ e, decode sl.word = .error e) → c = zeroCtrl) ∧
    (∀ i, sl.asmError = none → decode sl.word = .ok i →
      (∀ a, i.takenTo? s = some a → s.validTarget a = true →
        c = { ctrlOf i with branchTaken := true } ∧ t.pc = a) ∧
      ((∀ a, i.takenTo? s = some a → s.validTarget a = false) →
        c = ctrlOf i ∧ c.branchTaken = false))

/-- reset and loadProgram put every piece of state at its reset value; reset keeps the program, loadProgram replaces it (R45, R340, R341). -/
def Obligations.ResetAndLoadProgramValues : Prop :=
  (∀ s : State, s.hostReset.readReg 28 = s.spInit ∧ (∀ q : Reg, q ≠ 28 → s.hostReset.readReg q = 0) ∧
    s.hostReset.flags = ⟨false, false, false, false⟩ ∧ s.hostReset.pc = s.base ∧
    (∀ a, readByte s.hostReset.mem a = 0) ∧ s.hostReset.excl = ⟨false, 0⟩ ∧
    s.hostReset.status = (if 0 < s.imem.length then .running else .halted) ∧ s.hostReset.trace = [] ∧
    s.hostReset.last = none ∧ s.hostReset.imem = s.imem ∧ s.hostReset.base = s.base ∧ s.hostReset.spInit = s.spInit) ∧
  (∀ (s : State) (p : List Slot), (s.loadProgram p).readReg 28 = s.spInit ∧ (∀ q : Reg, q ≠ 28 → (s.loadProgram p).readReg q = 0) ∧
    (s.loadProgram p).flags = ⟨false, false, false, false⟩ ∧ (s.loadProgram p).pc = s.base ∧
    (∀ a, readByte (s.loadProgram p).mem a = 0) ∧ (s.loadProgram p).excl = ⟨false, 0⟩ ∧
    (s.loadProgram p).status = (if 0 < p.length then .running else .halted) ∧ (s.loadProgram p).trace = [] ∧
    (s.loadProgram p).last = none ∧ (s.loadProgram p).imem = p ∧ (s.loadProgram p).base = s.base ∧ (s.loadProgram p).spInit = s.spInit)

/-- The reset state, and the state after loading any program that fits, meet the invariant of a run (R45, R10). -/
def Obligations.ResetStateMeetsTheInvariant : Prop :=
  State.reset.Inv ∧
  (∀ (s : State) (p : List Slot), loadable s.base p → (s.loadProgram p).Inv) ∧
  (∀ s : State, s.Inv → s.hostReset.Inv)

/-- Every step from a state that meets the invariant of a run gives a state that meets it (R34, R42, R43, R38, R39, R70, R317). -/
def Obligations.InvariantIsKeptByEveryStep : Prop :=
  ∀ s s' : State, s.Inv → step s = .next s' → s'.Inv

/-- From a state that meets the invariant every step, and every number of steps, answers a next state (R43, R47, R316, R34). -/
def Obligations.StepsNeverStopTheMachine : Prop :=
  ∀ s : State, s.Inv → ∀ n, ∃ t, stepTimes n s = .next t ∧ t.Inv

/-- The pc is always a multiple of 4 and BASE + 4i with 0 <= i <= N, and is BASE + 4N only when Halted (R34, R77). -/
def Obligations.PcStaysAlignedInTheProgram : Prop :=
  (∀ s : State, s.Inv → s.pc.toNat % 4 = 0 ∧
    (s.status = .halted → s.pc = s.base + BitVec.ofNat 64 (4 * s.imem.length)) ∧
    (s.status ≠ .halted → ∃ i < s.imem.length, s.pc.toNat = s.base.toNat + 4 * i)) ∧
  (∀ s t : State, s.status = .running → step s = .next t →
    t.pc = s.pc + 4 ∨ s.validTarget t.pc = true ∨ (t.status = .faulted ∧ t.pc = s.pc))

/-- A step of a run halts it exactly when sequential advance takes the pc one past the last slot (modulo 2^64, log 6) (R43, R42). -/
def Obligations.RunsHaltExactlyPastTheLastSlot : Prop :=
  ∀ s t : State, s.Inv → s.status = .running → step s = .next t →
    (t.status = .halted ↔ s.index + 1 = s.imem.length ∧ t.pc = s.pc + 4 ∧
      ∀ l, t.last = some l → l.ctrl.branchTaken = false) ∧
    (t.status = .halted → t.pc = s.base + BitVec.ofNat 64 (4 * s.imem.length) ∧
      ∃ u : State, u.status = .running ∧ t = { u with status := .halted } ∧
        (s.issue = .skip u ∨ ∃ i v, s.issue = .run i v ∧ exec i v = .next u)) ∧
    (t.status = .running → t.validTarget t.pc = true)

/-- jumpToStep(n) is a fresh load and n + 1 steps, and jumpToStep(n) then one step is jumpToStep(n + 1) (R344). -/
def Obligations.ReplayIsDeterministic : Prop :=
  (∀ (s : State) (n : Nat), s.jumpToStep n = stepTimes (n + 1) (s.loadProgram s.imem)) ∧
  (∀ (s t : State) (n : Nat), s.jumpToStep n = .next t → step t = s.jumpToStep (n + 1))

/-- The word the assembler makes for a resolved branch decodes to that branch, whose target is the label's address (modulo 2^64, log 6) (R268, R132, R133, R114, R115). -/
def Obligations.ResolvedBranchesReachTheirLabel : Prop :=
  ∀ (f : Asm.BranchForm) (p t : Word) (s : State), p.toNat % 4 = t.toNat % 4 →
    f.fits (Asm.wordOffset p t) = true → s.pc = p →
    (Asm.branchSlot f p (some t)).unresolved = false ∧
    (Asm.branchSlot f p (some t)).asmError = none ∧
    decode (Asm.branchSlot f p (some t)).word = .ok (f.instr (Asm.wordOffset p t)) ∧
    (f.instr (Asm.wordOffset p t)).labelTarget? s = some t

/-- Every slot the assembler makes is well-formed: word 0 with an error, placeholder offset with unresolved (R132, R133, R33). -/
def Obligations.AssembledSlotsAreWellFormed : Prop :=
  (∀ (base : Word) (src : String), ∀ sl ∈ Asm.assemble base src, sl.wellFormed = true) ∧
  (∀ (base : Word) (src : String),
    (Asm.assemble base src).length = Asm.slotCount (Asm.entries src.toList))
end

