-- ==== Sys2Proof/Laws/Decode.lean ====
section
/-! SUPPORT. The fields of an encoded word, format by format (30_encoding.md R104 to R109): what each
extractor of the decoder reads from a word the encoder builds, and a word put together again
from its own fields. -/

namespace Sys2Proof

/-! ### rWord -/

section
variable (op : BitVec 11) (rm : Reg) (sh : BitVec 6) (rn rd : Reg)

theorem op6_rWord : op6 (rWord op rm sh rn rd) = op.extractLsb' 5 6 := by
  unfold op6 rWord; ext i hi; simp; grind
theorem op8_rWord : op8 (rWord op rm sh rn rd) = op.extractLsb' 3 8 := by
  unfold op8 rWord; ext i hi; simp; grind
theorem op9_rWord : op9 (rWord op rm sh rn rd) = op.extractLsb' 2 9 := by
  unfold op9 rWord; ext i hi; simp; grind
theorem op10_rWord : op10 (rWord op rm sh rn rd) = op.extractLsb' 1 10 := by
  unfold op10 rWord; ext i hi; simp; grind
theorem op11_rWord : op11 (rWord op rm sh rn rd) = op := by
  unfold op11 rWord; ext i hi; simp; grind
theorem rmField_rWord : rmField (rWord op rm sh rn rd) = rm := by
  unfold rmField rWord; ext i hi; simp; grind
theorem shamtField_rWord : shamtField (rWord op rm sh rn rd) = sh := by
  unfold shamtField rWord; ext i hi; simp; grind
theorem rnField_rWord : rnField (rWord op rm sh rn rd) = rn := by
  unfold rnField rWord; ext i hi; simp; grind
theorem rdField_rWord : rdField (rWord op rm sh rn rd) = rd := by
  unfold rdField rWord; ext i hi; simp; grind

end

/-! ### iWord -/

section
variable (op : BitVec 10) (imm : BitVec 12) (rn rd : Reg)

theorem op6_iWord : op6 (iWord op imm rn rd) = op.extractLsb' 4 6 := by
  unfold op6 iWord; ext i hi; simp; grind
theorem op8_iWord : op8 (iWord op imm rn rd) = op.extractLsb' 2 8 := by
  unfold op8 iWord; ext i hi; simp; grind
theorem op9_iWord : op9 (iWord op imm rn rd) = op.extractLsb' 1 9 := by
  unfold op9 iWord; ext i hi; simp; grind
theorem op10_iWord : op10 (iWord op imm rn rd) = op := by
  unfold op10 iWord; ext i hi; simp; grind
theorem imm12Field_iWord : imm12Field (iWord op imm rn rd) = imm := by
  unfold imm12Field iWord; ext i hi; simp; grind
theorem rnField_iWord : rnField (iWord op imm rn rd) = rn := by
  unfold rnField iWord; ext i hi; simp; grind
theorem rdField_iWord : rdField (iWord op imm rn rd) = rd := by
  unfold rdField iWord; ext i hi; simp; grind

end

/-! ### dWord -/

section
variable (op : BitVec 11) (off : BitVec 9) (rn rt : Reg)

theorem op6_dWord : op6 (dWord op off rn rt) = op.extractLsb' 5 6 := by
  unfold op6 dWord; ext i hi; simp; grind
theorem op8_dWord : op8 (dWord op off rn rt) = op.extractLsb' 3 8 := by
  unfold op8 dWord; ext i hi; simp; grind
theorem op9_dWord : op9 (dWord op off rn rt) = op.extractLsb' 2 9 := by
  unfold op9 dWord; ext i hi; simp; grind
theorem op10_dWord : op10 (dWord op off rn rt) = op.extractLsb' 1 10 := by
  unfold op10 dWord; ext i hi; simp; grind
theorem op11_dWord : op11 (dWord op off rn rt) = op := by
  unfold op11 dWord; ext i hi; simp; grind
theorem addr9Field_dWord : addr9Field (dWord op off rn rt) = off := by
  unfold addr9Field dWord; ext i hi; simp; grind
theorem op2Field_dWord : op2Field (dWord op off rn rt) = 0#2 := by
  unfold op2Field dWord; ext i hi; simp; grind
theorem rnField_dWord : rnField (dWord op off rn rt) = rn := by
  unfold rnField dWord; ext i hi; simp; grind
theorem rdField_dWord : rdField (dWord op off rn rt) = rt := by
  unfold rdField dWord; ext i hi; simp; grind

end

/-! ### imWord -/

section
variable (op : BitVec 9) (hw : BitVec 2) (imm : BitVec 16) (rd : Reg)

theorem op6_imWord : op6 (imWord op hw imm rd) = op.extractLsb' 3 6 := by
  unfold op6 imWord; ext i hi; simp; grind
theorem op8_imWord : op8 (imWord op hw imm rd) = op.extractLsb' 1 8 := by
  unfold op8 imWord; ext i hi; simp; grind
theorem op9_imWord : op9 (imWord op hw imm rd) = op := by
  unfold op9 imWord; ext i hi; simp; grind
theorem hwField_imWord : hwField (imWord op hw imm rd) = hw := by
  unfold hwField imWord; ext i hi; simp; grind
theorem imm16Field_imWord : imm16Field (imWord op hw imm rd) = imm := by
  unfold imm16Field imWord; ext i hi; simp; grind
theorem rdField_imWord : rdField (imWord op hw imm rd) = rd := by
  unfold rdField imWord; ext i hi; simp; grind

end

/-! ### bWord -/

section
variable (op : BitVec 6) (off : BitVec 26)

theorem op6_bWord : op6 (bWord op off) = op := by
  unfold op6 bWord; ext i hi; simp; grind
theorem addr26Field_bWord : addr26Field (bWord op off) = off := by
  unfold addr26Field bWord; ext i hi; simp; grind

end

/-! ### cbWord -/

section
variable (op : BitVec 8) (off : BitVec 19) (rt : BitVec 5)

theorem op6_cbWord : op6 (cbWord op off rt) = op.extractLsb' 2 6 := by
  unfold op6 cbWord; ext i hi; simp; grind
theorem op8_cbWord : op8 (cbWord op off rt) = op := by
  unfold op8 cbWord; ext i hi; simp; grind
theorem addr19Field_cbWord : addr19Field (cbWord op off rt) = off := by
  unfold addr19Field cbWord; ext i hi; simp; grind
theorem rdField_cbWord : rdField (cbWord op off rt) = rt := by
  unfold rdField cbWord; ext i hi; simp; grind

end

/-- Rs of an STXR word (R110). -/
theorem rmField_dWord_stxr (op : BitVec 11) (rs rn rt : Reg) :
    rmField (dWord op (rs ++ 0#4 : BitVec (5 + 4)) rn rt) = rs := by
  unfold rmField dWord; ext i hi; simp; grind

/-! ### A word is put together from its own fields -/

theorem rWord_fields (w : InstrWord) :
    rWord (op11 w) (rmField w) (shamtField w) (rnField w) (rdField w) = w := by
  unfold rWord op11 rmField shamtField rnField rdField
  ext i hi; simp; grind

theorem iWord_fields (w : InstrWord) :
    iWord (op10 w) (imm12Field w) (rnField w) (rdField w) = w := by
  unfold iWord op10 imm12Field rnField rdField
  ext i hi; simp; grind

theorem dWord_fields (w : InstrWord) (h : op2Field w = 0) :
    dWord (op11 w) (addr9Field w) (rnField w) (rdField w) = w := by
  have h' : ∀ j, (op2Field w).getLsbD j = false := by simp [h]
  unfold op2Field at h'
  unfold dWord op11 addr9Field rnField rdField
  ext i hi
  have := h' (i - 10)
  simp at *
  grind

theorem imWord_fields (w : InstrWord) :
    imWord (op9 w) (hwField w) (imm16Field w) (rdField w) = w := by
  unfold imWord op9 hwField imm16Field rdField
  ext i hi; simp; grind

theorem bWord_fields (w : InstrWord) : bWord (op6 w) (addr26Field w) = w := by
  unfold bWord op6 addr26Field
  ext i hi; simp; grind

theorem cbWord_fields (w : InstrWord) : cbWord (op8 w) (addr19Field w) (rdField w) = w := by
  unfold cbWord op8 addr19Field rdField
  ext i hi; simp; grind

/-! ### A row's mask and pattern, as the fields they test (R117) -/

theorem append_inj {n m : Nat} {a b : BitVec n} {c d : BitVec m} :
    a ++ c = b ++ d ↔ a = b ∧ c = d := by
  refine ⟨fun h => ⟨?_, ?_⟩, fun h => by rw [h.1, h.2]⟩
  · simpa [BitVec.extractLsb'_append_eq_left] using congrArg (BitVec.extractLsb' m n) h
  · simpa [BitVec.setWidth_append] using congrArg (BitVec.setWidth m) h

theorem and_mask_append {n m : Nat} (a op : BitVec n) (b : BitVec m) :
    (a ++ b) &&& (BitVec.allOnes n ++ 0#m) = op ++ 0#m ↔ a = op := by
  rw [BitVec.and_append, BitVec.and_allOnes, BitVec.and_zero]
  simp [append_inj]

theorem mask_op6 (w : InstrWord) (op : BitVec 6) :
    w &&& 0xFC000000#32 = (op ++ 0#26 : BitVec (6 + 26)) ↔ op6 w = op := by
  have h : w = (op6 w ++ w.extractLsb' 0 26 : BitVec (6 + 26)) := by
    unfold op6; ext i hi; simp; grind
  conv_lhs => rw [h]
  exact and_mask_append ..

theorem mask_op8 (w : InstrWord) (op : BitVec 8) :
    w &&& 0xFF000000#32 = (op ++ 0#24 : BitVec (8 + 24)) ↔ op8 w = op := by
  have h : w = (op8 w ++ w.extractLsb' 0 24 : BitVec (8 + 24)) := by
    unfold op8; ext i hi; simp; grind
  conv_lhs => rw [h]
  exact and_mask_append ..

theorem mask_op9 (w : InstrWord) (op : BitVec 9) :
    w &&& 0xFF800000#32 = (op ++ 0#23 : BitVec (9 + 23)) ↔ op9 w = op := by
  have h : w = (op9 w ++ w.extractLsb' 0 23 : BitVec (9 + 23)) := by
    unfold op9; ext i hi; simp; grind
  conv_lhs => rw [h]
  exact and_mask_append ..

theorem mask_op10 (w : InstrWord) (op : BitVec 10) :
    w &&& 0xFFC00000#32 = (op ++ 0#22 : BitVec (10 + 22)) ↔ op10 w = op := by
  have h : w = (op10 w ++ w.extractLsb' 0 22 : BitVec (10 + 22)) := by
    unfold op10; ext i hi; simp; grind
  conv_lhs => rw [h]
  exact and_mask_append ..

theorem mask_op11 (w : InstrWord) (op : BitVec 11) :
    w &&& 0xFFE00000#32 = (op ++ 0#21 : BitVec (11 + 21)) ↔ op11 w = op := by
  have h : w = (op11 w ++ w.extractLsb' 0 21 : BitVec (11 + 21)) := by
    unfold op11; ext i hi; simp; grind
  conv_lhs => rw [h]
  exact and_mask_append ..

/-- The D-format rows also test op2 (R106). -/
theorem mask_op11_op2 (w : InstrWord) (op : BitVec 11) :
    w &&& 0xFFE00C00#32 = (op ++ 0#21 : BitVec (11 + 21)) ↔ op11 w = op ∧ op2Field w = 0 := by
  have h : w = (op11 w ++ (addr9Field w ++ (op2Field w ++ w.extractLsb' 0 10 :
      BitVec (2 + 10)) : BitVec (9 + (2 + 10))) : BitVec (11 + (9 + (2 + 10)))) := by
    unfold op11 addr9Field op2Field; ext i hi; simp; grind
  have hm : 0xFFE00C00#32 = (BitVec.allOnes 11 ++ (0#9 ++ (BitVec.allOnes 2 ++ 0#10 :
      BitVec (2 + 10)) : BitVec (9 + (2 + 10))) : BitVec (11 + (9 + (2 + 10)))) := rfl
  have hz : (0#21 : BitVec (9 + (2 + 10))) = 0#9 ++ (0#2 ++ 0#10) := rfl
  conv_lhs => rw [h, hm, BitVec.and_append, BitVec.and_append, BitVec.and_append]
  simp only [BitVec.and_allOnes, BitVec.and_zero]
  have hr : (op ++ 0#21 : BitVec (11 + 21)) = (op ++ (0#9 ++ (0#2 ++ 0#10 : BitVec (2 + 10)) :
      BitVec (9 + (2 + 10))) : BitVec (11 + (9 + (2 + 10)))) := congrArg (op ++ ·) hz
  rw [hr, append_inj, append_inj, append_inj]
  simp

/-- The B.cond rows test the opcode and the condition code (R116). -/
theorem mask_op8_rd (w : InstrWord) (op : BitVec 8) (c : BitVec 5) :
    w &&& 0xFF00001F#32 = (op ++ (0#19 ++ c : BitVec (19 + 5)) : BitVec (8 + (19 + 5))) ↔
      op8 w = op ∧ rdField w = c := by
  have h : w = (op8 w ++ (addr19Field w ++ rdField w : BitVec (19 + 5)) :
      BitVec (8 + (19 + 5))) := by
    unfold op8 addr19Field rdField; ext i hi; simp; grind
  have hm : 0xFF00001F#32 = (BitVec.allOnes 8 ++ (0#19 ++ BitVec.allOnes 5 : BitVec (19 + 5)) :
      BitVec (8 + (19 + 5))) := rfl
  conv_lhs => rw [h, hm, BitVec.and_append, BitVec.and_append]
  simp only [BitVec.and_allOnes, BitVec.and_zero]
  rw [append_inj, append_inj]
  simp

/-! ### The decoder on an encoded word, format by format -/

/-- An 11-bit opcode none of whose prefixes is the opcode of a B, CB, IM or I row (R101). -/
def longOpcode (op : BitVec 11) : Bool :=
  [Opcode.b, Opcode.bl].all (· != op.extractLsb' 5 6) &&
  [Opcode.cbz, Opcode.cbnz, Opcode.bcond].all (· != op.extractLsb' 3 8) &&
  [Opcode.movz, Opcode.movk].all (· != op.extractLsb' 2 9) &&
  [Opcode.addi, Opcode.addis, Opcode.subi, Opcode.subis, Opcode.andi, Opcode.andis, Opcode.orri,
    Opcode.eori].all (· != op.extractLsb' 1 10)

/-- The same of a 10-bit opcode and the rows with a shorter one. -/
def longOpcode10 (op : BitVec 10) : Bool :=
  [Opcode.b, Opcode.bl].all (· != op.extractLsb' 4 6) &&
  [Opcode.cbz, Opcode.cbnz, Opcode.bcond].all (· != op.extractLsb' 2 8) &&
  [Opcode.movz, Opcode.movk].all (· != op.extractLsb' 1 9)

theorem decodeI_eq_none {w : InstrWord} {op : BitVec 11} (h : longOpcode op = true)
    (hw : op10 w = op.extractLsb' 1 10) : decodeI w = none := by
  simp only [longOpcode, List.all_cons, List.all_nil, Bool.and_true, Bool.and_eq_true, bne_iff_ne,
    ne_eq] at h
  simp only [decodeI, hw]
  grind

theorem decode_of_decodeR {w : InstrWord} {op : BitVec 11} {i : Instr} (h : longOpcode op = true)
    (h6 : op6 w = op.extractLsb' 5 6) (h8 : op8 w = op.extractLsb' 3 8)
    (h9 : op9 w = op.extractLsb' 2 9) (h10 : op10 w = op.extractLsb' 1 10)
    (hi : decodeR w = some i) : decode w = .ok i := by
  have hI := decodeI_eq_none h h10
  simp only [longOpcode, List.all_cons, List.all_nil, Bool.and_true, Bool.and_eq_true, bne_iff_ne,
    ne_eq] at h
  simp only [decode, h6, h8, h9, hI, hi]
  grind

theorem decode_of_decodeD {w : InstrWord} {op : BitVec 11} {i : Instr} (h : longOpcode op = true)
    (h6 : op6 w = op.extractLsb' 5 6) (h8 : op8 w = op.extractLsb' 3 8)
    (h9 : op9 w = op.extractLsb' 2 9) (h10 : op10 w = op.extractLsb' 1 10)
    (hR : decodeR w = none) (hi : decodeD w = some i) : decode w = dFormat w i := by
  have hI := decodeI_eq_none h h10
  simp only [longOpcode, List.all_cons, List.all_nil, Bool.and_true, Bool.and_eq_true, bne_iff_ne,
    ne_eq] at h
  simp only [decode, h6, h8, h9, hI, hR, hi]
  grind

theorem decode_of_decodeI {w : InstrWord} {op : BitVec 10} {i : Instr} (h : longOpcode10 op = true)
    (h6 : op6 w = op.extractLsb' 4 6) (h8 : op8 w = op.extractLsb' 2 8)
    (h9 : op9 w = op.extractLsb' 1 9) (hi : decodeI w = some i) : decode w = .ok i := by
  simp only [longOpcode10, List.all_cons, List.all_nil, Bool.and_true, Bool.and_eq_true,
    bne_iff_ne, ne_eq] at h
  simp only [decode, h6, h8, h9, hi]
  grind

/-- The R-format rows on an R-format word: only the opcode decides. -/
theorem decode_rWord {op : BitVec 11} {rm rn rd : Reg} {sh : BitVec 6} {i : Instr}
    (h : longOpcode op = true)
    (hi : (if op = Opcode.add then some (Instr.add rd rn rm)
      else if op = Opcode.adds then some (.adds rd rn rm)
      else if op = Opcode.sub then some (.sub rd rn rm)
      else if op = Opcode.subs then some (.subs rd rn rm)
      else if op = Opcode.and then some (.and rd rn rm)
      else if op = Opcode.ands then some (.ands rd rn rm)
      else if op = Opcode.orr then some (.orr rd rn rm)
      else if op = Opcode.eor then some (.eor rd rn rm)
      else if op = Opcode.lsl then some (.lsl rd rn sh)
      else if op = Opcode.lsr then some (.lsr rd rn sh)
      else if op = Opcode.br then some (.br rn) else none) = some i) :
    decode (rWord op rm sh rn rd) = .ok i := by
  refine decode_of_decodeR h (op6_rWord ..) (op8_rWord ..) (op9_rWord ..) (op10_rWord ..) ?_
  simp only [decodeR, op11_rWord, rdField_rWord, rnField_rWord, rmField_rWord, shamtField_rWord, hi]

/-- The I-format rows on an I-format word. -/
theorem decode_iWord {op : BitVec 10} {imm : BitVec 12} {rn rd : Reg} {i : Instr}
    (h : longOpcode10 op = true)
    (hi : (if op = Opcode.addi then some (Instr.addi rd rn imm)
      else if op = Opcode.addis then some (.addis rd rn imm)
      else if op = Opcode.subi then some (.subi rd rn imm)
      else if op = Opcode.subis then some (.subis rd rn imm)
      else if op = Opcode.andi then some (.andi rd rn imm)
      else if op = Opcode.andis then some (.andis rd rn imm)
      else if op = Opcode.orri then some (.orri rd rn imm)
      else if op = Opcode.eori then some (.eori rd rn imm) else none) = some i) :
    decode (iWord op imm rn rd) = .ok i := by
  refine decode_of_decodeI h (op6_iWord ..) (op8_iWord ..) (op9_iWord ..) ?_
  simp only [decodeI, op10_iWord, rdField_iWord, rnField_iWord, imm12Field_iWord, hi]

/-- A D-format word whose opcode is no R-format row's. -/
theorem decode_dWord_of {op : BitVec 11} {off : BitVec 9} {rn rt : Reg} {i : Instr}
    (h : longOpcode op = true)
    (hR : [Opcode.add, Opcode.adds, Opcode.sub, Opcode.subs, Opcode.and, Opcode.ands, Opcode.orr,
      Opcode.eor, Opcode.lsl, Opcode.lsr, Opcode.br].all (· != op) = true)
    (hi : decodeD (dWord op off rn rt) = some i) : decode (dWord op off rn rt) = .ok i := by
  rw [decode_of_decodeD h (op6_dWord ..) (op8_dWord ..) (op9_dWord ..) (op10_dWord ..) ?_ hi]
  · simp only [dFormat, op2Field_dWord]; rfl
  · simp only [List.all_cons, List.all_nil, Bool.and_true, Bool.and_eq_true, bne_iff_ne,
      ne_eq] at hR
    simp only [decodeR, op11_dWord]
    grind

/-- The D-format rows but STXR on a D-format word. -/
theorem decode_dWord {op : BitVec 11} {off : BitVec 9} {rn rt : Reg} {i : Instr}
    (h : longOpcode op = true)
    (hR : [Opcode.add, Opcode.adds, Opcode.sub, Opcode.subs, Opcode.and, Opcode.ands, Opcode.orr,
      Opcode.eor, Opcode.lsl, Opcode.lsr, Opcode.br].all (· != op) = true)
    (hs : op ≠ Opcode.stxr)
    (hi : (if op = Opcode.ldur then some (Instr.ldur rt rn off)
      else if op = Opcode.ldurb then some (.ldurb rt rn off)
      else if op = Opcode.ldurh then some (.ldurh rt rn off)
      else if op = Opcode.ldursw then some (.ldursw rt rn off)
      else if op = Opcode.stur then some (.stur rt rn off)
      else if op = Opcode.sturb then some (.sturb rt rn off)
      else if op = Opcode.sturh then some (.sturh rt rn off)
      else if op = Opcode.sturw then some (.sturw rt rn off)
      else if op = Opcode.ldxr then some (.ldxr rt rn off) else none) = some i) :
    decode (dWord op off rn rt) = .ok i := by
  refine decode_dWord_of h hR ?_
  rw [← hi]
  simp only [decodeD, op11_dWord, rdField_dWord, rnField_dWord, addr9Field_dWord, hs, if_false]

/-- The STXR row (R110). -/
theorem decode_stxrWord (rs rt rn : Reg) :
    decode (dWord Opcode.stxr (rs ++ 0#4 : BitVec (5 + 4)) rn rt) = .ok (.stxr rs rt rn) := by
  refine decode_dWord_of (by decide) (by decide) ?_
  simp only [decodeD, op11_dWord, rdField_dWord, rnField_dWord, rmField_dWord_stxr]
  rfl

/-- The IM-format rows. -/
theorem decode_imWord {op : BitVec 9} {hw : BitVec 2} {imm : BitVec 16} {rd : Reg} {i : Instr}
    (h6 : [Opcode.b, Opcode.bl].all (· != op.extractLsb' 3 6) = true)
    (h8 : [Opcode.cbz, Opcode.cbnz, Opcode.bcond].all (· != op.extractLsb' 1 8) = true)
    (hi : (if op = Opcode.movz then some (Instr.movz rd hw imm)
      else if op = Opcode.movk then some (.movk rd hw imm) else none) = some i) :
    decode (imWord op hw imm rd) = .ok i := by
  simp only [List.all_cons, List.all_nil, Bool.and_true, Bool.and_eq_true, bne_iff_ne,
    ne_eq] at h6 h8
  simp only [decode, op6_imWord, op8_imWord, op9_imWord, rdField_imWord, hwField_imWord,
    imm16Field_imWord]
  grind

/-- The B-format rows. -/
theorem decode_bWord {op : BitVec 6} {off : BitVec 26} {i : Instr}
    (hi : (if op = Opcode.b then some (Instr.b off)
      else if op = Opcode.bl then some (.bl off) else none) = some i) :
    decode (bWord op off) = .ok i := by
  simp only [decode, op6_bWord, addr26Field_bWord]
  grind

/-- The compare-and-branch rows. -/
theorem decode_cbWord {op : BitVec 8} {off : BitVec 19} {rt : Reg} {i : Instr}
    (h6 : [Opcode.b, Opcode.bl].all (· != op.extractLsb' 2 6) = true)
    (hi : (if op = Opcode.cbz then some (Instr.cbz rt off)
      else if op = Opcode.cbnz then some (.cbnz rt off) else none) = some i) :
    decode (cbWord op off rt) = .ok i := by
  simp only [List.all_cons, List.all_nil, Bool.and_true, Bool.and_eq_true, bne_iff_ne,
    ne_eq] at h6
  simp only [decode, op6_cbWord, op8_cbWord, rdField_cbWord, addr19Field_cbWord]
  grind

/-- The condition of a condition's code is the condition (R116). -/
theorem Cond.ofCode_code (c : Cond) : Cond.ofCode c.code = some c := by
  cases c <;> rfl

/-- The B.cond rows. -/
theorem decode_bcondWord (c : Cond) (off : BitVec 19) :
    decode (cbWord Opcode.bcond off c.code) = .ok (.bcond c off) := by
  have h : decode (cbWord Opcode.bcond off c.code) =
      condFormat (cbWord Opcode.bcond off c.code) := by
    simp only [decode, op6_cbWord, op8_cbWord]
    rfl
  rw [h]
  simp only [condFormat, rdField_cbWord, addr19Field_cbWord, Cond.ofCode_code]

end Sys2Proof
end

