-- ==== Sys2Proof/Laws/Memory.lean ====
section
/-! SUPPORT. The laws of data memory: read over write, the canonical form, MemRead and MemWrite byte
by byte (20_memory.md R70 to R73, R95). -/

namespace Sys2Proof.Machine

/-! ### One byte -/

theorem readByte_eraseByte (m : Memory) (a b : Nat) :
    readByte (eraseByte m a) b = if b = a then 0 else readByte m b := by
  induction m with
  | nil => simp [eraseByte, readByte]
  | cons c rest ih =>
    obtain ⟨k, w⟩ := c
    by_cases hk : k = a <;> by_cases hb : b = a <;> by_cases hkb : k = b <;>
      simp_all [eraseByte, readByte]

theorem readByte_insertByte_same (m : Memory) (a : Nat) (v : Byte)
    (h : ∀ b w, (b, w) ∈ m → b ≠ a) : readByte (insertByte m a v) a = v := by
  induction m with
  | nil => simp [insertByte, readByte]
  | cons c rest ih =>
    obtain ⟨k, w⟩ := c
    have hk : k ≠ a := h k w (by simp)
    unfold insertByte
    split
    · simp [readByte]
    · simp [readByte, hk, ih fun b w hm => h b w (by simp [hm])]

theorem readByte_insertByte_other (m : Memory) {a b : Nat} (v : Byte) (h : b ≠ a) :
    readByte (insertByte m a v) b = readByte m b := by
  induction m with
  | nil => simp [insertByte, readByte, Ne.symm h]
  | cons c rest ih =>
    obtain ⟨k, w⟩ := c
    unfold insertByte
    split
    · simp [readByte, Ne.symm h]
    · simp [readByte, ih]

theorem ne_of_mem_eraseByte {m : Memory} {a b : Nat} {w : Byte} (h : (b, w) ∈ eraseByte m a) :
    b ≠ a := by
  induction m with
  | nil => simp [eraseByte] at h
  | cons c rest ih =>
    obtain ⟨k, x⟩ := c
    by_cases hk : k = a
    · simp [eraseByte, hk] at h; exact ih h
    · simp [eraseByte, hk] at h
      rcases h with ⟨rfl, rfl⟩ | h
      · exact hk
      · exact ih h

/-- Reading after writing a byte: the byte written there, the old byte elsewhere (R72). -/
theorem readByte_writeByte (m : Memory) (a b : Nat) (v : Byte) :
    readByte (writeByte m a v) b = if b = a then v else readByte m b := by
  unfold writeByte
  split
  · rename_i hv; subst hv; rw [readByte_eraseByte]
  · by_cases hb : b = a
    · subst hb
      simp [readByte_insertByte_same _ _ _ fun b w hm => ne_of_mem_eraseByte hm]
    · simp [hb, readByte_insertByte_other, readByte_eraseByte]

/-! ### The canonical form -/

theorem wfFrom_cons {lo k : Nat} {b : Byte} {rest : Memory} :
    Memory.wfFrom lo ((k, b) :: rest) = true ↔
      lo ≤ k ∧ k < 2 ^ 64 ∧ b ≠ 0 ∧ Memory.wfFrom (k + 1) rest = true := by
  simp [Memory.wfFrom, and_assoc]

theorem wfFrom_mono {lo lo' : Nat} {m : Memory} (h : Memory.wfFrom lo m = true) (hl : lo' ≤ lo) :
    Memory.wfFrom lo' m = true := by
  cases m with
  | nil => rfl
  | cons c rest =>
    obtain ⟨k, b⟩ := c
    rw [wfFrom_cons] at h ⊢
    exact ⟨hl.trans h.1, h.2⟩

theorem wfFrom_eraseByte {lo : Nat} {m : Memory} (a : Nat) (h : Memory.wfFrom lo m = true) :
    Memory.wfFrom lo (eraseByte m a) = true := by
  induction m generalizing lo with
  | nil => rfl
  | cons c rest ih =>
    obtain ⟨k, b⟩ := c
    rw [wfFrom_cons] at h
    unfold eraseByte
    split
    · exact wfFrom_mono (ih h.2.2.2) (by omega)
    · rw [wfFrom_cons]
      exact ⟨h.1, h.2.1, h.2.2.1, ih h.2.2.2⟩

theorem wfFrom_insertByte {lo a : Nat} {m : Memory} {v : Byte} (h : Memory.wfFrom lo m = true)
    (hlo : lo ≤ a) (ha : a < 2 ^ 64) (hv : v ≠ 0) (hne : ∀ b w, (b, w) ∈ m → b ≠ a) :
    Memory.wfFrom lo (insertByte m a v) = true := by
  induction m generalizing lo with
  | nil => rw [insertByte, wfFrom_cons]; exact ⟨hlo, ha, hv, rfl⟩
  | cons c rest ih =>
    obtain ⟨k, b⟩ := c
    rw [wfFrom_cons] at h
    have hk : k ≠ a := hne k b (by simp)
    unfold insertByte
    split
    · rw [wfFrom_cons, wfFrom_cons]
      exact ⟨hlo, ha, hv, by omega, h.2.1, h.2.2.1, h.2.2.2⟩
    · rw [wfFrom_cons]
      exact ⟨h.1, h.2.1, h.2.2.1,
        ih h.2.2.2 (by omega) fun b w hm => hne b w (by simp [hm])⟩

/-- Writing a byte keeps the canonical form. -/
theorem writeByte_wf {m : Memory} {a : Nat} (v : Byte) (h : m.wf = true) (ha : a < 2 ^ 64) :
    (writeByte m a v).wf = true := by
  have he := wfFrom_eraseByte a h
  unfold writeByte
  split
  · exact he
  · exact wfFrom_insertByte he (Nat.zero_le a) ha ‹_› fun b w hm => ne_of_mem_eraseByte hm

/-- MemWrite keeps the canonical form. -/
theorem memWrite_wf {m : Memory} (n : Nat) (a : Word) (v : BitVec (8 * n)) (h : m.wf = true) :
    (memWrite m a n v).wf = true := by
  induction n generalizing m a with
  | zero => exact h
  | succ n ih => exact ih _ _ (writeByte_wf _ h a.isLt)

theorem readByte_of_lt {lo a : Nat} {m : Memory} (h : Memory.wfFrom lo m = true) (ha : a < lo) :
    readByte m a = 0 := by
  induction m generalizing lo with
  | nil => rfl
  | cons c rest ih =>
    obtain ⟨k, b⟩ := c
    rw [wfFrom_cons] at h
    have hk : k ≠ a := by omega
    simp [readByte, hk, ih h.2.2.2 (by omega)]

theorem eq_of_readByte_wfFrom {lo : Nat} {m m' : Memory} (h : Memory.wfFrom lo m = true)
    (h' : Memory.wfFrom lo m' = true) (hr : ∀ a, readByte m a = readByte m' a) : m = m' := by
  induction m generalizing lo m' with
  | nil =>
    cases m' with
    | nil => rfl
    | cons c rest =>
      obtain ⟨k, b⟩ := c
      rw [wfFrom_cons] at h'
      have := hr k
      simp [readByte] at this
      exact absurd this.symm h'.2.2.1
  | cons c rest ih =>
    obtain ⟨k, b⟩ := c
    have hc := wfFrom_cons.mp h
    cases m' with
    | nil =>
      have := hr k
      simp [readByte] at this
      exact absurd this hc.2.2.1
    | cons c' rest' =>
      obtain ⟨k', b'⟩ := c'
      have hc' := wfFrom_cons.mp h'
      have hkk : k = k' := by
        rcases Nat.lt_trichotomy k k' with hlt | he | hgt
        · have h1 := hr k
          rw [readByte_of_lt (wfFrom_cons.mpr ⟨le_refl k', hc'.2⟩) hlt] at h1
          simp [readByte] at h1
          exact absurd h1 hc.2.2.1
        · exact he
        · have h1 := hr k'
          rw [readByte_of_lt (wfFrom_cons.mpr ⟨le_refl k, hc.2⟩) hgt] at h1
          simp [readByte] at h1
          exact absurd h1.symm hc'.2.2.1
      subst hkk
      have hbb : b = b' := by simpa [readByte] using hr k
      subst hbb
      congr 1
      refine ih hc.2.2.2 hc'.2.2.2 fun a => ?_
      by_cases ha : k = a
      · subst ha
        rw [readByte_of_lt hc.2.2.2 (by omega), readByte_of_lt hc'.2.2.2 (by omega)]
      · simpa [readByte, ha] using hr a

/-! ### MemRead and MemWrite, byte by byte -/

theorem addr_shift (a : Word) (k : Nat) :
    a + 1 + BitVec.ofNat 64 k = a + BitVec.ofNat 64 (k + 1) := by
  rw [BitVec.add_assoc]
  congr 1
  apply BitVec.eq_of_toNat_eq
  simp [BitVec.toNat_add, BitVec.toNat_ofNat]
  omega

/-- Byte k of what MemRead gives is the byte at address a + k (R71). -/
theorem memRead_byte (m : Memory) (a : Word) (n k : Nat) (h : k < n) :
    (memRead m a n).extractLsb' (8 * k) 8 = readByte m (a + BitVec.ofNat 64 k).toNat := by
  induction n generalizing a k with
  | zero => omega
  | succ n ih =>
    show (memRead m (a + 1) n ++ readByte m a.toNat : BitVec (8 * n + 8)).extractLsb' (8 * k) 8 = _
    cases k with
    | zero => simp [BitVec.extractLsb'_append_eq_of_add_le]
    | succ k =>
      rw [BitVec.extractLsb'_append_eq_of_le (by omega)]
      have e : 8 * (k + 1) - 8 = 8 * k := by omega
      rw [e, ih (a + 1) k (by omega), addr_shift]

/-- MemWrite leaves every byte outside the bytes addressed as it was (R72). -/
theorem readByte_memWrite_other (m : Memory) (a : Word) (n : Nat) (v : BitVec (8 * n)) (b : Nat)
    (h : ∀ k < n, b ≠ (a + BitVec.ofNat 64 k).toNat) :
    readByte (memWrite m a n v) b = readByte m b := by
  induction n generalizing m a with
  | zero => rfl
  | succ n ih =>
    have h0 : b ≠ a.toNat := by simpa using h 0 (by omega)
    show readByte (memWrite (writeByte m a.toNat (v.setWidth 8)) (a + 1) n _) b = _
    rw [ih _ _ _ fun k hk => by rw [addr_shift]; exact h (k + 1) (by omega)]
    simp [readByte_writeByte, h0]

/-- MemWrite puts byte k of the value at address a + k (R72), for up to 2^64 bytes. -/
theorem readByte_memWrite_byte (m : Memory) (a : Word) (n : Nat) (v : BitVec (8 * n)) (k : Nat)
    (hk : k < n) (hn : n ≤ 2 ^ 64) :
    readByte (memWrite m a n v) (a + BitVec.ofNat 64 k).toNat = v.extractLsb' (8 * k) 8 := by
  induction n generalizing m a k with
  | zero => omega
  | succ n ih =>
    show readByte (memWrite (writeByte m a.toNat (v.setWidth 8)) (a + 1) n
      (v.extractLsb' 8 (8 * n))) _ = _
    cases k with
    | zero =>
      rw [readByte_memWrite_other]
      · rw [BitVec.add_zero, readByte_writeByte, if_pos rfl]
        apply BitVec.eq_of_getLsbD_eq
        intro i hi
        simp [hi]
      · intro j hj e
        have e' := BitVec.eq_of_toNat_eq e
        rw [addr_shift] at e'
        have : (BitVec.ofNat 64 (j + 1)).toNat = 0 := by
          have := congrArg (fun x => (x - a).toNat) e'
          simpa [BitVec.add_comm a] using this.symm
        rw [BitVec.toNat_ofNat] at this
        omega
    | succ k =>
      rw [← addr_shift, ih _ (a + 1) _ k (by omega) (by omega)]
      apply BitVec.eq_of_getLsbD_eq
      intro i hi
      simp only [BitVec.getLsbD_extractLsb']
      have e1 : 8 * k + i < 8 * n := by omega
      have e2 : 8 + (8 * k + i) = 8 * (k + 1) + i := by omega
      simp [hi, e1, e2]

/-- Two values of n bytes with the same bytes are equal. -/
theorem eq_of_bytes {n : Nat} {v w : BitVec (8 * n)}
    (h : ∀ k < n, v.extractLsb' (8 * k) 8 = w.extractLsb' (8 * k) 8) : v = w := by
  apply BitVec.eq_of_getLsbD_eq
  intro i hi
  have h1 := congrArg (fun x : BitVec 8 => x.getLsbD (i % 8)) (h (i / 8) (by omega))
  have e : 8 * (i / 8) + i % 8 = i := by omega
  have l : i % 8 < 8 := by omega
  simpa [BitVec.getLsbD_extractLsb', e, l] using h1

/-- MemRead after MemWrite at the same address and width gives the value back (R95). -/
theorem memRead_memWrite (m : Memory) (a : Word) (n : Nat) (v : BitVec (8 * n)) (hn : n ≤ 2 ^ 64) :
    memRead (memWrite m a n v) a n = v :=
  eq_of_bytes fun k hk => by rw [memRead_byte _ _ _ _ hk, readByte_memWrite_byte _ _ _ _ _ hk hn]

/-- MemRead depends only on the bytes it reads (R73, R90). -/
theorem memRead_congr (m m' : Memory) (a : Word) (n : Nat)
    (h : ∀ k < n, readByte m (a + BitVec.ofNat 64 k).toNat =
      readByte m' (a + BitVec.ofNat 64 k).toNat) :
    memRead m a n = memRead m' a n :=
  eq_of_bytes fun k hk => by rw [memRead_byte _ _ _ _ hk, memRead_byte _ _ _ _ hk, h k hk]

end Sys2Proof.Machine
end

