-- ==== Sys2Proof/Laws/State.lean ====
section
/-! SUPPORT. One lemma per field per update of the state, and register reads across updates, so that
no later proof unfolds a record update. -/

namespace Sys2Proof.Machine

variable (s : State)

/-! ### setFlags -/

@[simp] theorem State.setFlags_x (f : Flags) : (s.setFlags f).x = s.x := rfl
@[simp] theorem State.setFlags_flags (f : Flags) : (s.setFlags f).flags = f := rfl
@[simp] theorem State.setFlags_pc (f : Flags) : (s.setFlags f).pc = s.pc := rfl
@[simp] theorem State.setFlags_mem (f : Flags) : (s.setFlags f).mem = s.mem := rfl
@[simp] theorem State.setFlags_excl (f : Flags) : (s.setFlags f).excl = s.excl := rfl
@[simp] theorem State.setFlags_status (f : Flags) : (s.setFlags f).status = s.status := rfl
@[simp] theorem State.setFlags_trace (f : Flags) : (s.setFlags f).trace = s.trace := rfl
@[simp] theorem State.setFlags_last (f : Flags) : (s.setFlags f).last = s.last := rfl
@[simp] theorem State.setFlags_imem (f : Flags) : (s.setFlags f).imem = s.imem := rfl
@[simp] theorem State.setFlags_base (f : Flags) : (s.setFlags f).base = s.base := rfl
@[simp] theorem State.setFlags_spInit (f : Flags) : (s.setFlags f).spInit = s.spInit := rfl
@[simp] theorem State.readReg_setFlags (f : Flags) (q : Reg) : (s.setFlags f).readReg q = s.readReg q := rfl

/-! ### store -/

@[simp] theorem State.store_x (w : Width) (ea : Word) (v : BitVec (8 * w.bytes)) : (s.store w ea v).x = s.x := rfl
@[simp] theorem State.store_flags (w : Width) (ea : Word) (v : BitVec (8 * w.bytes)) : (s.store w ea v).flags = s.flags := rfl
@[simp] theorem State.store_pc (w : Width) (ea : Word) (v : BitVec (8 * w.bytes)) : (s.store w ea v).pc = s.pc := rfl
@[simp] theorem State.store_mem (w : Width) (ea : Word) (v : BitVec (8 * w.bytes)) : (s.store w ea v).mem = memWrite s.mem ea w.bytes v := rfl
@[simp] theorem State.store_excl (w : Width) (ea : Word) (v : BitVec (8 * w.bytes)) : (s.store w ea v).excl = s.excl := rfl
@[simp] theorem State.store_status (w : Width) (ea : Word) (v : BitVec (8 * w.bytes)) : (s.store w ea v).status = s.status := rfl
@[simp] theorem State.store_trace (w : Width) (ea : Word) (v : BitVec (8 * w.bytes)) : (s.store w ea v).trace = s.trace := rfl
@[simp] theorem State.store_last (w : Width) (ea : Word) (v : BitVec (8 * w.bytes)) : (s.store w ea v).last = s.last := rfl
@[simp] theorem State.store_imem (w : Width) (ea : Word) (v : BitVec (8 * w.bytes)) : (s.store w ea v).imem = s.imem := rfl
@[simp] theorem State.store_base (w : Width) (ea : Word) (v : BitVec (8 * w.bytes)) : (s.store w ea v).base = s.base := rfl
@[simp] theorem State.store_spInit (w : Width) (ea : Word) (v : BitVec (8 * w.bytes)) : (s.store w ea v).spInit = s.spInit := rfl
@[simp] theorem State.readReg_store (w : Width) (ea : Word) (v : BitVec (8 * w.bytes)) (q : Reg) : (s.store w ea v).readReg q = s.readReg q := rfl

/-! ### reserve -/

@[simp] theorem State.reserve_x (ea : Word) : (s.reserve ea).x = s.x := rfl
@[simp] theorem State.reserve_flags (ea : Word) : (s.reserve ea).flags = s.flags := rfl
@[simp] theorem State.reserve_pc (ea : Word) : (s.reserve ea).pc = s.pc := rfl
@[simp] theorem State.reserve_mem (ea : Word) : (s.reserve ea).mem = s.mem := rfl
@[simp] theorem State.reserve_excl (ea : Word) : (s.reserve ea).excl = ⟨true, ea⟩ := rfl
@[simp] theorem State.reserve_status (ea : Word) : (s.reserve ea).status = s.status := rfl
@[simp] theorem State.reserve_trace (ea : Word) : (s.reserve ea).trace = s.trace := rfl
@[simp] theorem State.reserve_last (ea : Word) : (s.reserve ea).last = s.last := rfl
@[simp] theorem State.reserve_imem (ea : Word) : (s.reserve ea).imem = s.imem := rfl
@[simp] theorem State.reserve_base (ea : Word) : (s.reserve ea).base = s.base := rfl
@[simp] theorem State.reserve_spInit (ea : Word) : (s.reserve ea).spInit = s.spInit := rfl
@[simp] theorem State.readReg_reserve (ea : Word) (q : Reg) : (s.reserve ea).readReg q = s.readReg q := rfl

/-! ### clearReservation -/

@[simp] theorem State.clearReservation_x : (s.clearReservation).x = s.x := rfl
@[simp] theorem State.clearReservation_flags : (s.clearReservation).flags = s.flags := rfl
@[simp] theorem State.clearReservation_pc : (s.clearReservation).pc = s.pc := rfl
@[simp] theorem State.clearReservation_mem : (s.clearReservation).mem = s.mem := rfl
@[simp] theorem State.clearReservation_excl : (s.clearReservation).excl = { s.excl with valid := false } := rfl
@[simp] theorem State.clearReservation_status : (s.clearReservation).status = s.status := rfl
@[simp] theorem State.clearReservation_trace : (s.clearReservation).trace = s.trace := rfl
@[simp] theorem State.clearReservation_last : (s.clearReservation).last = s.last := rfl
@[simp] theorem State.clearReservation_imem : (s.clearReservation).imem = s.imem := rfl
@[simp] theorem State.clearReservation_base : (s.clearReservation).base = s.base := rfl
@[simp] theorem State.clearReservation_spInit : (s.clearReservation).spInit = s.spInit := rfl
@[simp] theorem State.readReg_clearReservation (q : Reg) : (s.clearReservation).readReg q = s.readReg q := rfl

/-! ### advance -/

@[simp] theorem State.advance_x : (s.advance).x = s.x := rfl
@[simp] theorem State.advance_flags : (s.advance).flags = s.flags := rfl
@[simp] theorem State.advance_pc : (s.advance).pc = s.pc + 4 := rfl
@[simp] theorem State.advance_mem : (s.advance).mem = s.mem := rfl
@[simp] theorem State.advance_excl : (s.advance).excl = s.excl := rfl
@[simp] theorem State.advance_status : (s.advance).status = s.status := rfl
@[simp] theorem State.advance_trace : (s.advance).trace = s.trace := rfl
@[simp] theorem State.advance_last : (s.advance).last = s.last := rfl
@[simp] theorem State.advance_imem : (s.advance).imem = s.imem := rfl
@[simp] theorem State.advance_base : (s.advance).base = s.base := rfl
@[simp] theorem State.advance_spInit : (s.advance).spInit = s.spInit := rfl
@[simp] theorem State.readReg_advance (q : Reg) : (s.advance).readReg q = s.readReg q := rfl

/-! ### raise -/

@[simp] theorem State.raise_x (k : EventKind) (info : EventInfo) : (s.raise k info).x = s.x := rfl
@[simp] theorem State.raise_flags (k : EventKind) (info : EventInfo) : (s.raise k info).flags = s.flags := rfl
@[simp] theorem State.raise_pc (k : EventKind) (info : EventInfo) : (s.raise k info).pc = s.pc := rfl
@[simp] theorem State.raise_mem (k : EventKind) (info : EventInfo) : (s.raise k info).mem = s.mem := rfl
@[simp] theorem State.raise_excl (k : EventKind) (info : EventInfo) : (s.raise k info).excl = s.excl := rfl
@[simp] theorem State.raise_status (k : EventKind) (info : EventInfo) : (s.raise k info).status = s.status := rfl
@[simp] theorem State.raise_trace (k : EventKind) (info : EventInfo) : (s.raise k info).trace = s.trace ++ [⟨k, s.pc, info⟩] := rfl
@[simp] theorem State.raise_last (k : EventKind) (info : EventInfo) : (s.raise k info).last = s.last := rfl
@[simp] theorem State.raise_imem (k : EventKind) (info : EventInfo) : (s.raise k info).imem = s.imem := rfl
@[simp] theorem State.raise_base (k : EventKind) (info : EventInfo) : (s.raise k info).base = s.base := rfl
@[simp] theorem State.raise_spInit (k : EventKind) (info : EventInfo) : (s.raise k info).spInit = s.spInit := rfl
@[simp] theorem State.readReg_raise (k : EventKind) (info : EventInfo) (q : Reg) : (s.raise k info).readReg q = s.readReg q := rfl

/-! ### invalidBranchTarget -/

@[simp] theorem State.invalidBranchTarget_x (t : Word) : (s.invalidBranchTarget t).x = s.x := rfl
@[simp] theorem State.invalidBranchTarget_flags (t : Word) : (s.invalidBranchTarget t).flags = s.flags := rfl
@[simp] theorem State.invalidBranchTarget_pc (t : Word) : (s.invalidBranchTarget t).pc = s.pc := rfl
@[simp] theorem State.invalidBranchTarget_mem (t : Word) : (s.invalidBranchTarget t).mem = s.mem := rfl
@[simp] theorem State.invalidBranchTarget_excl (t : Word) : (s.invalidBranchTarget t).excl = s.excl := rfl
@[simp] theorem State.invalidBranchTarget_status (t : Word) : (s.invalidBranchTarget t).status = .faulted := rfl
@[simp] theorem State.invalidBranchTarget_trace (t : Word) : (s.invalidBranchTarget t).trace = s.trace ++ [⟨.invalidBranchTarget, s.pc, .target t⟩] := rfl
@[simp] theorem State.invalidBranchTarget_last (t : Word) : (s.invalidBranchTarget t).last = s.last := rfl
@[simp] theorem State.invalidBranchTarget_imem (t : Word) : (s.invalidBranchTarget t).imem = s.imem := rfl
@[simp] theorem State.invalidBranchTarget_base (t : Word) : (s.invalidBranchTarget t).base = s.base := rfl
@[simp] theorem State.invalidBranchTarget_spInit (t : Word) : (s.invalidBranchTarget t).spInit = s.spInit := rfl
@[simp] theorem State.readReg_invalidBranchTarget (t : Word) (q : Reg) : (s.invalidBranchTarget t).readReg q = s.readReg q := rfl

/-! ### markTaken -/

@[simp] theorem State.markTaken_x : (s.markTaken).x = s.x := rfl
@[simp] theorem State.markTaken_flags : (s.markTaken).flags = s.flags := rfl
@[simp] theorem State.markTaken_pc : (s.markTaken).pc = s.pc := rfl
@[simp] theorem State.markTaken_mem : (s.markTaken).mem = s.mem := rfl
@[simp] theorem State.markTaken_excl : (s.markTaken).excl = s.excl := rfl
@[simp] theorem State.markTaken_status : (s.markTaken).status = s.status := rfl
@[simp] theorem State.markTaken_trace : (s.markTaken).trace = s.trace := rfl
@[simp] theorem State.markTaken_last : (s.markTaken).last = s.last.map fun l => { l with ctrl := { l.ctrl with branchTaken := true } } := rfl
@[simp] theorem State.markTaken_imem : (s.markTaken).imem = s.imem := rfl
@[simp] theorem State.markTaken_base : (s.markTaken).base = s.base := rfl
@[simp] theorem State.markTaken_spInit : (s.markTaken).spInit = s.spInit := rfl
@[simp] theorem State.readReg_markTaken (q : Reg) : (s.markTaken).readReg q = s.readReg q := rfl

/-! ### jump -/

@[simp] theorem State.jump_x (t : Word) : (s.jump t).x = s.x := rfl
@[simp] theorem State.jump_flags (t : Word) : (s.jump t).flags = s.flags := rfl
@[simp] theorem State.jump_pc (t : Word) : (s.jump t).pc = t := rfl
@[simp] theorem State.jump_mem (t : Word) : (s.jump t).mem = s.mem := rfl
@[simp] theorem State.jump_excl (t : Word) : (s.jump t).excl = s.excl := rfl
@[simp] theorem State.jump_status (t : Word) : (s.jump t).status = s.status := rfl
@[simp] theorem State.jump_trace (t : Word) : (s.jump t).trace = s.trace := rfl
@[simp] theorem State.jump_last (t : Word) : (s.jump t).last = s.last.map fun l => { l with ctrl := { l.ctrl with branchTaken := true } } := rfl
@[simp] theorem State.jump_imem (t : Word) : (s.jump t).imem = s.imem := rfl
@[simp] theorem State.jump_base (t : Word) : (s.jump t).base = s.base := rfl
@[simp] theorem State.jump_spInit (t : Word) : (s.jump t).spInit = s.spInit := rfl
@[simp] theorem State.readReg_jump (t : Word) (q : Reg) : (s.jump t).readReg q = s.readReg q := rfl

/-! ### snapshot -/

@[simp] theorem State.snapshot_x (w : InstrWord) (c : ControlSignals) : (s.snapshot w c).x = s.x := rfl
@[simp] theorem State.snapshot_flags (w : InstrWord) (c : ControlSignals) : (s.snapshot w c).flags = s.flags := rfl
@[simp] theorem State.snapshot_pc (w : InstrWord) (c : ControlSignals) : (s.snapshot w c).pc = s.pc := rfl
@[simp] theorem State.snapshot_mem (w : InstrWord) (c : ControlSignals) : (s.snapshot w c).mem = s.mem := rfl
@[simp] theorem State.snapshot_excl (w : InstrWord) (c : ControlSignals) : (s.snapshot w c).excl = s.excl := rfl
@[simp] theorem State.snapshot_status (w : InstrWord) (c : ControlSignals) : (s.snapshot w c).status = s.status := rfl
@[simp] theorem State.snapshot_trace (w : InstrWord) (c : ControlSignals) : (s.snapshot w c).trace = s.trace := rfl
@[simp] theorem State.snapshot_last (w : InstrWord) (c : ControlSignals) : (s.snapshot w c).last = some ⟨s.index, w, c⟩ := rfl
@[simp] theorem State.snapshot_imem (w : InstrWord) (c : ControlSignals) : (s.snapshot w c).imem = s.imem := rfl
@[simp] theorem State.snapshot_base (w : InstrWord) (c : ControlSignals) : (s.snapshot w c).base = s.base := rfl
@[simp] theorem State.snapshot_spInit (w : InstrWord) (c : ControlSignals) : (s.snapshot w c).spInit = s.spInit := rfl
@[simp] theorem State.readReg_snapshot (w : InstrWord) (c : ControlSignals) (q : Reg) : (s.snapshot w c).readReg q = s.readReg q := rfl

/-! ### writeReg -/

@[simp] theorem State.writeReg_flags (r : Reg) (v : Word) : (s.writeReg r v).flags = s.flags := by
  unfold State.writeReg; split <;> rfl
@[simp] theorem State.writeReg_pc (r : Reg) (v : Word) : (s.writeReg r v).pc = s.pc := by
  unfold State.writeReg; split <;> rfl
@[simp] theorem State.writeReg_mem (r : Reg) (v : Word) : (s.writeReg r v).mem = s.mem := by
  unfold State.writeReg; split <;> rfl
@[simp] theorem State.writeReg_excl (r : Reg) (v : Word) : (s.writeReg r v).excl = s.excl := by
  unfold State.writeReg; split <;> rfl
@[simp] theorem State.writeReg_status (r : Reg) (v : Word) : (s.writeReg r v).status = s.status := by
  unfold State.writeReg; split <;> rfl
@[simp] theorem State.writeReg_trace (r : Reg) (v : Word) : (s.writeReg r v).trace = s.trace := by
  unfold State.writeReg; split <;> rfl
@[simp] theorem State.writeReg_last (r : Reg) (v : Word) : (s.writeReg r v).last = s.last := by
  unfold State.writeReg; split <;> rfl
@[simp] theorem State.writeReg_imem (r : Reg) (v : Word) : (s.writeReg r v).imem = s.imem := by
  unfold State.writeReg; split <;> rfl
@[simp] theorem State.writeReg_base (r : Reg) (v : Word) : (s.writeReg r v).base = s.base := by
  unfold State.writeReg; split <;> rfl
@[simp] theorem State.writeReg_spInit (r : Reg) (v : Word) : (s.writeReg r v).spInit = s.spInit := by
  unfold State.writeReg; split <;> rfl

/-! ### writeResult and writeResultFlags -/

@[simp] theorem State.writeResult_flags (rd : Reg) (v : Word) : (s.writeResult rd v).flags = s.flags := by
  simp [State.writeResult]
@[simp] theorem State.writeResult_pc (rd : Reg) (v : Word) : (s.writeResult rd v).pc = s.pc + 4#64 := by
  simp [State.writeResult]
@[simp] theorem State.writeResult_mem (rd : Reg) (v : Word) : (s.writeResult rd v).mem = s.mem := by
  simp [State.writeResult]
@[simp] theorem State.writeResult_excl (rd : Reg) (v : Word) : (s.writeResult rd v).excl = s.excl := by
  simp [State.writeResult]
@[simp] theorem State.writeResult_status (rd : Reg) (v : Word) : (s.writeResult rd v).status = s.status := by
  simp [State.writeResult]
@[simp] theorem State.writeResult_trace (rd : Reg) (v : Word) : (s.writeResult rd v).trace = s.trace := by
  simp [State.writeResult]
@[simp] theorem State.writeResult_last (rd : Reg) (v : Word) : (s.writeResult rd v).last = s.last := by
  simp [State.writeResult]
@[simp] theorem State.writeResult_imem (rd : Reg) (v : Word) : (s.writeResult rd v).imem = s.imem := by
  simp [State.writeResult]
@[simp] theorem State.writeResult_base (rd : Reg) (v : Word) : (s.writeResult rd v).base = s.base := by
  simp [State.writeResult]
@[simp] theorem State.writeResult_spInit (rd : Reg) (v : Word) : (s.writeResult rd v).spInit = s.spInit := by
  simp [State.writeResult]

@[simp] theorem State.writeResultFlags_flags (rd : Reg) (v : Word) (f : Flags) : (s.writeResultFlags rd v f).flags = f := by
  simp [State.writeResultFlags]
@[simp] theorem State.writeResultFlags_pc (rd : Reg) (v : Word) (f : Flags) : (s.writeResultFlags rd v f).pc = s.pc + 4#64 := by
  simp [State.writeResultFlags]
@[simp] theorem State.writeResultFlags_mem (rd : Reg) (v : Word) (f : Flags) : (s.writeResultFlags rd v f).mem = s.mem := by
  simp [State.writeResultFlags]
@[simp] theorem State.writeResultFlags_excl (rd : Reg) (v : Word) (f : Flags) : (s.writeResultFlags rd v f).excl = s.excl := by
  simp [State.writeResultFlags]
@[simp] theorem State.writeResultFlags_status (rd : Reg) (v : Word) (f : Flags) : (s.writeResultFlags rd v f).status = s.status := by
  simp [State.writeResultFlags]
@[simp] theorem State.writeResultFlags_trace (rd : Reg) (v : Word) (f : Flags) : (s.writeResultFlags rd v f).trace = s.trace := by
  simp [State.writeResultFlags]
@[simp] theorem State.writeResultFlags_last (rd : Reg) (v : Word) (f : Flags) : (s.writeResultFlags rd v f).last = s.last := by
  simp [State.writeResultFlags]
@[simp] theorem State.writeResultFlags_imem (rd : Reg) (v : Word) (f : Flags) : (s.writeResultFlags rd v f).imem = s.imem := by
  simp [State.writeResultFlags]
@[simp] theorem State.writeResultFlags_base (rd : Reg) (v : Word) (f : Flags) : (s.writeResultFlags rd v f).base = s.base := by
  simp [State.writeResultFlags]
@[simp] theorem State.writeResultFlags_spInit (rd : Reg) (v : Word) (f : Flags) : (s.writeResultFlags rd v f).spInit = s.spInit := by
  simp [State.writeResultFlags]

/-! ### Registers -/

/-- Register 31 reads 0 in every state (R32). -/
@[simp] theorem State.readReg_xzr : s.readReg 31#5 = 0 := rfl

/-- A write to register 31 changes nothing (R32). -/
@[simp] theorem State.writeReg_xzr (v : Word) : s.writeReg 31#5 v = s := rfl

theorem reg_toNat_lt_of_ne_xzr {r : Reg} (h : r ≠ 31#5) : r.toNat < 31 := by
  have h1 : r.toNat ≠ 31 := fun e => h (BitVec.eq_of_toNat_eq e)
  have h2 := r.isLt
  omega

theorem State.readReg_writeReg_same {r : Reg} (h : r ≠ 31#5) (v : Word) :
    (s.writeReg r v).readReg r = v := by
  have h1 := reg_toNat_lt_of_ne_xzr h
  simp [State.writeReg, State.readReg, h1]

theorem State.readReg_writeReg_other {r q : Reg} (h : q ≠ r) (v : Word) :
    (s.writeReg r v).readReg q = s.readReg q := by
  have hn : r.toNat ≠ q.toNat := fun e => h (BitVec.eq_of_toNat_eq e.symm)
  unfold State.writeReg State.readReg
  split
  · split
    · simp [hn]
    · rfl
  · rfl

/-- What a register read gives after a register write (R14). -/
theorem State.readReg_writeReg (r q : Reg) (v : Word) :
    (s.writeReg r v).readReg q = if q = r then (if r = 31#5 then 0 else v) else s.readReg q := by
  by_cases hq : q = r
  · subst hq
    by_cases hx : q = 31#5
    · subst hx; simp
    · simp [hx, State.readReg_writeReg_same]
  · simp [hq, State.readReg_writeReg_other]

/-- Two states with the same registers by name hold the same register file. -/
theorem State.x_eq_of_readReg {s t : State} (h : ∀ q, t.readReg q = s.readReg q) : t.x = s.x := by
  refine Vector.ext fun i hi => ?_
  have := h (BitVec.ofNat 5 i)
  have e : i % 32 = i := by omega
  simpa [State.readReg, e, hi] using this

end Sys2Proof.Machine
end

