-- ==== Sys2Proof/Laws/Ops.lean ====
section
/-! SUPPORT. One spec lemma per shared operation: everything it can do, said once, so that proofs cite
it in place of unfolding it; then what every instruction and every step can do. -/

namespace Sys2Proof.Machine

/-! ### The answers of a step -/

@[simp] theorem next_inj {s t : State} : (Host.Outcome.next s : Result) = .next t ↔ s = t :=
  ⟨fun h => by cases h; rfl, fun h => by rw [h]⟩

@[simp] theorem fault_ne_next (r : Fault) (t : State) :
    (Host.Outcome.fault r : Result) ≠ .next t := fun h => nomatch h

@[simp] theorem refused_ne_next (r : Refusal) (t : State) :
    (Host.Outcome.refused r : Result) ≠ .next t := fun h => nomatch h

/-! ### Register results -/

theorem State.readReg_writeResult (s : State) (rd q : Reg) (v : Word) :
    (s.writeResult rd v).readReg q =
      if q = rd then (if rd = 31#5 then 0 else v) else s.readReg q := by
  simp [State.writeResult, State.readReg_writeReg]

theorem State.readReg_writeResultFlags (s : State) (rd q : Reg) (v : Word) (f : Flags) :
    (s.writeResultFlags rd v f).readReg q =
      if q = rd then (if rd = 31#5 then 0 else v) else s.readReg q := by
  simp [State.writeResultFlags, State.readReg_writeReg]

theorem SameRun.refl (s : State) : SameRun s s := ⟨rfl, rfl, rfl, rfl, rfl, rfl⟩

/-- All that `writeResult` does. -/
theorem State.writeResult_spec (s : State) (rd : Reg) (v : Word) :
    ResultOnly s (s.writeResult rd v) rd v where
  result := by simp [State.readReg_writeResult, xzr]
  regs q hq := by simp [State.readReg_writeResult, hq]
  flags := by simp [State.writeResult]
  pc := by simp [State.writeResult]
  mem a := by simp [State.writeResult]
  excl := by simp [State.writeResult]
  run := by constructor <;> simp [State.writeResult]

/-- All that `writeResultFlags` does. -/
theorem State.writeResultFlags_spec (s : State) (rd : Reg) (v : Word) (f : Flags) :
    ResultAndFlags s (s.writeResultFlags rd v f) rd v f where
  result := by simp [State.readReg_writeResultFlags, xzr]
  regs q hq := by simp [State.readReg_writeResultFlags, hq]
  flags := by simp [State.writeResultFlags]
  pc := by simp [State.writeResultFlags]
  mem a := by simp [State.writeResultFlags]
  excl := by simp [State.writeResultFlags]
  run := by constructor <;> simp [State.writeResultFlags]

/-- All that sequential advance does. -/
theorem State.advance_spec (s : State) : AdvanceOnly s s.advance :=
  ⟨fun _ => rfl, rfl, rfl, fun _ => rfl, rfl, ⟨rfl, rfl, rfl, rfl, rfl, rfl⟩⟩

/-- All that a store and sequential advance do. -/
theorem State.store_spec (s : State) (w : Width) (ea v : Word) :
    StoreOnly s ((s.store w ea (v.setWidth _)).advance) ea w.bytes v where
  stored k hk := by
    have hn : w.bytes ≤ 2 ^ 64 := by cases w <;> decide
    simp only [State.advance_mem, State.store_mem]
    rw [readByte_memWrite_byte _ _ _ _ _ hk hn]
    apply BitVec.eq_of_getLsbD_eq
    intro i hi
    have e : 8 * k + i < 8 * w.bytes := by omega
    simp [hi, e]
  others a ha := by
    simp only [State.advance_mem, State.store_mem]
    exact readByte_memWrite_other _ _ _ _ _ ha
  regs q := rfl
  flags := rfl
  pc := rfl
  excl := rfl
  run := ⟨rfl, rfl, rfl, rfl, rfl, rfl⟩

/-! ### STXR's writes -/

@[simp] theorem State.storeExclusive_flags (s : State) (rs rt : Reg) (ea : Word) :
    (s.storeExclusive rs rt ea).flags = s.flags := by
  unfold State.storeExclusive; split <;> simp
@[simp] theorem State.storeExclusive_pc (s : State) (rs rt : Reg) (ea : Word) :
    (s.storeExclusive rs rt ea).pc = s.pc := by
  unfold State.storeExclusive; split <;> simp
@[simp] theorem State.storeExclusive_excl (s : State) (rs rt : Reg) (ea : Word) :
    (s.storeExclusive rs rt ea).excl = s.excl := by
  unfold State.storeExclusive; split <;> simp
@[simp] theorem State.storeExclusive_status (s : State) (rs rt : Reg) (ea : Word) :
    (s.storeExclusive rs rt ea).status = s.status := by
  unfold State.storeExclusive; split <;> simp
@[simp] theorem State.storeExclusive_trace (s : State) (rs rt : Reg) (ea : Word) :
    (s.storeExclusive rs rt ea).trace = s.trace := by
  unfold State.storeExclusive; split <;> simp
@[simp] theorem State.storeExclusive_last (s : State) (rs rt : Reg) (ea : Word) :
    (s.storeExclusive rs rt ea).last = s.last := by
  unfold State.storeExclusive; split <;> simp
@[simp] theorem State.storeExclusive_imem (s : State) (rs rt : Reg) (ea : Word) :
    (s.storeExclusive rs rt ea).imem = s.imem := by
  unfold State.storeExclusive; split <;> simp
@[simp] theorem State.storeExclusive_base (s : State) (rs rt : Reg) (ea : Word) :
    (s.storeExclusive rs rt ea).base = s.base := by
  unfold State.storeExclusive; split <;> simp
@[simp] theorem State.storeExclusive_spInit (s : State) (rs rt : Reg) (ea : Word) :
    (s.storeExclusive rs rt ea).spInit = s.spInit := by
  unfold State.storeExclusive; split <;> simp

theorem State.reserved_iff (s : State) (ea : Word) :
    s.reserved ea = true ↔ s.excl.valid = true ∧ s.excl.addr = ea := by
  simp [State.reserved]

theorem State.storeExclusive_of_match {s : State} (rs rt : Reg) {ea : Word}
    (h : s.excl.valid = true ∧ s.excl.addr = ea) :
    s.storeExclusive rs rt ea = (s.store .double ea ((s.readReg rt).setWidth _)).writeReg rs 0 := by
  simp [State.storeExclusive, (s.reserved_iff ea).mpr h]

theorem State.storeExclusive_of_mismatch {s : State} (rs rt : Reg) {ea : Word}
    (h : ¬ (s.excl.valid = true ∧ s.excl.addr = ea)) :
    s.storeExclusive rs rt ea = s.writeReg rs 1 := by
  have : s.reserved ea = false := Bool.eq_false_iff.mpr fun e => h ((s.reserved_iff ea).mp e)
  simp [State.storeExclusive, this]

/-! ### Branches -/

/-- All that the fatal event does. -/
theorem State.invalidBranchTarget_spec (s : State) (t : Word) :
    Raised s (s.invalidBranchTarget t) .invalidBranchTarget (.target t) s.pc .faulted :=
  ⟨rfl, rfl, rfl, fun _ => rfl, rfl, fun _ => rfl, rfl, rfl, rfl, rfl, rfl⟩

/-- All that the fall-through of an unresolved branch does. -/
theorem State.fallThroughUnresolved_spec (s : State) :
    Raised s s.fallThroughUnresolved .unresolvedLabel .none (s.pc + 4) s.status :=
  ⟨rfl, rfl, rfl, fun _ => rfl, rfl, fun _ => rfl, rfl, rfl, rfl, rfl, rfl⟩

/-- All that a jump does. -/
theorem State.jump_spec (s : State) (t : Word) : Jumped s (s.jump t) t :=
  ⟨rfl, rfl, fun _ => rfl, rfl, rfl, rfl, rfl, rfl, rfl, rfl⟩

/-- The two outcomes of Taken (R260). -/
theorem State.taken_cases (s : State) (t : Word) (written : State) :
    (s.validTarget t = true ∧ s.taken t written = written.jump t) ∨
    (s.validTarget t = false ∧ s.taken t written = s.invalidBranchTarget t) := by
  unfold State.taken
  cases s.validTarget t <;> simp

/-- The four outcomes of a label branch (R260, R261, R265). -/
theorem State.labelBranch_cases (s : State) (take : Bool) (t : Word) (written : State) :
    (s.unresolvedHere = true ∧ s.labelBranch take t written = s.fallThroughUnresolved) ∨
    (s.unresolvedHere = false ∧ take = false ∧ s.labelBranch take t written = s.advance) ∨
    (s.unresolvedHere = false ∧ take = true ∧ s.validTarget t = true ∧
      s.labelBranch take t written = written.jump t) ∨
    (s.unresolvedHere = false ∧ take = true ∧ s.validTarget t = false ∧
      s.labelBranch take t written = s.invalidBranchTarget t) := by
  unfold State.labelBranch State.taken
  cases s.unresolvedHere <;> cases take <;> cases s.validTarget t <;> simp

/-- A function of the state that each outcome of a label branch keeps is kept by the branch. -/
theorem State.labelBranch_keeps {α : Sort _} (f : State → α) (s written : State) (b : Bool)
    (t : Word) (h1 : f s.fallThroughUnresolved = f s) (h2 : f s.advance = f s)
    (h3 : f (written.jump t) = f s) (h4 : f (s.invalidBranchTarget t) = f s) :
    f (s.labelBranch b t written) = f s := by
  rcases s.labelBranch_cases b t written with ⟨_, e⟩ | ⟨_, _, e⟩ | ⟨_, _, _, e⟩ | ⟨_, _, _, e⟩ <;>
    rw [e] <;> assumption

/-- A function of the state that both outcomes of Taken keep is kept by it. -/
theorem State.taken_keeps {α : Sort _} (f : State → α) (s written : State) (t : Word)
    (h1 : f (written.jump t) = f s) (h2 : f (s.invalidBranchTarget t) = f s) :
    f (s.taken t written) = f s := by
  rcases s.taken_cases t written with ⟨_, e⟩ | ⟨_, e⟩ <;> rw [e] <;> assumption

/-- A meaning that is a label branch, in the four cases of `LabelBranchMeans`. -/
theorem LabelBranchMeans.of_labelBranch {i : Instr} {s written : State} {b : Bool} {take : Prop}
    {target : Word} {regsAfter : State → Prop}
    (hi : exec i s = .next (s.labelBranch b target written)) (hb : b = true ↔ take)
    (hj : Jumped s (written.jump target) target) (hr : regsAfter (written.jump target)) :
    LabelBranchMeans i s take target regsAfter := by
  refine ⟨fun hu => ⟨_, hi, ?_⟩, fun hu ht => ⟨_, hi, ?_⟩, fun hu ht hv => ⟨_, hi, ?_⟩,
    fun hu ht hv => ⟨_, hi, ?_⟩⟩
  · simpa [State.labelBranch, hu] using s.fallThroughUnresolved_spec
  · have : b = false := Bool.eq_false_iff.mpr fun h => ht (hb.mp h)
    simpa [State.labelBranch, hu, this] using s.advance_spec
  · simpa [State.labelBranch, hu, hb.mpr ht, State.taken, hv] using ⟨hj, hr⟩
  · simpa [State.labelBranch, hu, hb.mpr ht, State.taken, hv] using
      s.invalidBranchTarget_spec target

/-! ### Every instruction -/

/-- Every instruction answers a next state. -/
theorem exec_answers_next (i : Instr) (s : State) : ∃ t, exec i s = .next t := by
  cases i <;> exact ⟨_, rfl⟩

/-- All that an instruction can do, by the shape of its meaning, with what the shape says of the
instruction's destination, stores, flags, monitor and label (R41). -/
inductive ExecShape (i : Instr) (s t : State) : Prop where
  | result (rd : Reg) (v : Word) (dest : i.dest = some rd) (stores : i.storesTo s = none)
      (fw : (ctrlOf i).flagWrite = false) (ex : i.isExclusive = false)
      (label : i.labelTarget? s = none) (eq : t = s.writeResult rd v)
  | resultFlags (rd : Reg) (v : Word) (f : Flags) (dest : i.dest = some rd)
      (stores : i.storesTo s = none) (fw : (ctrlOf i).flagWrite = true)
      (ex : i.isExclusive = false) (label : i.labelTarget? s = none)
      (eq : t = s.writeResultFlags rd v f)
  | flags (f : Flags) (dest : i.dest = none) (stores : i.storesTo s = none)
      (fw : (ctrlOf i).flagWrite = true) (ex : i.isExclusive = false)
      (label : i.labelTarget? s = none) (eq : t = (s.setFlags f).advance)
  | store (w : Width) (ea v : Word) (dest : i.dest = none)
      (stores : i.storesTo s = some (ea, w.bytes)) (fw : (ctrlOf i).flagWrite = false)
      (ex : i.isExclusive = false) (label : i.labelTarget? s = none)
      (eq : t = (s.store w ea (v.setWidth _)).advance)
  | loadExclusive (rt : Reg) (ea v : Word) (dest : i.dest = some rt)
      (stores : i.storesTo s = none) (fw : (ctrlOf i).flagWrite = false)
      (ex : i.isExclusive = true) (label : i.labelTarget? s = none)
      (eq : t = (s.reserve ea).writeResult rt v)
  | storeExclusive (rs rt rn : Reg) (instr : i = .stxr rs rt rn)
      (eq : t = (s.storeExclusive rs rt (s.readReg rn)).clearReservation.advance)
  | branch (b : Bool) (target : Word) (dest : i.dest = none) (stores : i.storesTo s = none)
      (fw : (ctrlOf i).flagWrite = false) (ex : i.isExclusive = false)
      (label : i.labelTarget? s = some target) (eq : t = s.labelBranch b target s)
  | branchLink (target : Word) (dest : i.dest = some lr) (stores : i.storesTo s = none)
      (fw : (ctrlOf i).flagWrite = false) (ex : i.isExclusive = false)
      (label : i.labelTarget? s = some target)
      (eq : t = s.labelBranch true target (s.writeReg lr (s.pc + 4)))
  | branchReg (rn : Reg) (dest : i.dest = none) (stores : i.storesTo s = none)
      (fw : (ctrlOf i).flagWrite = false) (ex : i.isExclusive = false)
      (label : i.labelTarget? s = none) (eq : t = s.taken (s.readReg rn) s)
  | nop (dest : i.dest = none) (stores : i.storesTo s = none)
      (fw : (ctrlOf i).flagWrite = false) (ex : i.isExclusive = false)
      (label : i.labelTarget? s = none) (eq : t = s.advance)

/-- Every instruction has one of the shapes. -/
theorem exec_shape {i : Instr} {s t : State} (h : exec i s = .next t) : ExecShape i s t := by
  cases i
  case add | addi | sub | subi | and | andi | orr | orri | eor | eori | lsl | lsr | movz |
      movk | ldur | ldurb | ldurh | ldursw | mov => exact .result _ _ rfl rfl rfl rfl rfl (next_inj.mp h).symm
  case adds | addis | subs | subis | ands | andis => exact .resultFlags _ _ _ rfl rfl rfl rfl rfl (next_inj.mp h).symm
  case cmp | cmpi => exact .flags _ rfl rfl rfl rfl rfl (next_inj.mp h).symm
  case stur => exact .store .double _ _ rfl rfl rfl rfl rfl (next_inj.mp h).symm
  case sturb => exact .store .byte _ _ rfl rfl rfl rfl rfl (next_inj.mp h).symm
  case sturh => exact .store .half _ _ rfl rfl rfl rfl rfl (next_inj.mp h).symm
  case sturw => exact .store .word _ _ rfl rfl rfl rfl rfl (next_inj.mp h).symm
  case ldxr => exact .loadExclusive _ _ _ rfl rfl rfl rfl rfl (next_inj.mp h).symm
  case stxr => exact .storeExclusive _ _ _ rfl (next_inj.mp h).symm
  case b | cbz | cbnz | bEq | bNe | bHs | bLo | bMi | bPl | bVs | bVc | bHi | bLs | bGe |
      bLt | bGt | bLe | bAl => exact .branch _ _ rfl rfl rfl rfl rfl (next_inj.mp h).symm
  case bl => exact .branchLink _ rfl rfl rfl rfl rfl (next_inj.mp h).symm
  case br => exact .branchReg _ rfl rfl rfl rfl rfl (next_inj.mp h).symm
  case nop => exact .nop rfl rfl rfl rfl rfl (next_inj.mp h).symm

/-- How the control part of the state can change over an instruction. -/
inductive Control (s t : State) : Prop where
  | plain (pc : t.pc = s.pc + 4) (status : t.status = s.status) (trace : t.trace = s.trace)
      (last : t.last = s.last)
  | jump (valid : s.validTarget t.pc = true) (status : t.status = s.status)
      (trace : t.trace = s.trace)
      (last : t.last = s.last.map fun l => { l with ctrl := { l.ctrl with branchTaken := true } })
  | invalid (target : Word) (valid : s.validTarget target = false)
      (eq : t = s.invalidBranchTarget target)
  | unresolved (bit : s.unresolvedHere = true) (eq : t = s.fallThroughUnresolved)

theorem Control.of_writeResult (s : State) (rd : Reg) (v : Word) :
    Control s (s.writeResult rd v) :=
  let h := s.writeResult_spec rd v; .plain h.pc h.run.status h.run.trace h.run.last

theorem Control.of_writeResultFlags (s : State) (rd : Reg) (v : Word) (f : Flags) :
    Control s (s.writeResultFlags rd v f) :=
  let h := s.writeResultFlags_spec rd v f; .plain h.pc h.run.status h.run.trace h.run.last

theorem Control.of_taken (s : State) (t : Word) {written : State} (hs : written.status = s.status)
    (ht : written.trace = s.trace) (hl : written.last = s.last) :
    Control s (s.taken t written) := by
  rcases s.taken_cases t written with ⟨hv, e⟩ | ⟨hv, e⟩ <;> rw [e]
  · exact .jump (by simpa using hv) (by simpa using hs) (by simpa using ht)
      (by simpa using congrArg _ hl)
  · exact .invalid t hv rfl

theorem Control.of_labelBranch (s : State) (b : Bool) (t : Word) {written : State}
    (hs : written.status = s.status) (ht : written.trace = s.trace) (hl : written.last = s.last) :
    Control s (s.labelBranch b t written) := by
  unfold State.labelBranch
  split
  · rename_i hu; exact .unresolved hu rfl
  · split
    · exact Control.of_taken s t hs ht hl
    · exact .plain rfl rfl rfl rfl

/-- The program and the parameters never change (R33, R10). -/
structure SameProgram (s t : State) : Prop where
  imem   : t.imem = s.imem
  base   : t.base = s.base
  spInit : t.spInit = s.spInit

theorem Control.sameProgram_labelBranch (s : State) (b : Bool) (t : Word) {written : State}
    (h : SameProgram s written) : SameProgram s (s.labelBranch b t written) := by
  rcases s.labelBranch_cases b t written with ⟨_, e⟩ | ⟨_, _, e⟩ | ⟨_, _, _, e⟩ | ⟨_, _, _, e⟩ <;>
    rw [e]
  · exact ⟨rfl, rfl, rfl⟩
  · exact ⟨rfl, rfl, rfl⟩
  · exact ⟨h.imem, h.base, h.spInit⟩
  · exact ⟨rfl, rfl, rfl⟩

/-- What every instruction can do to the pc, the status, the trace and the snapshot. -/
theorem exec_control {i : Instr} {s t : State} (h : exec i s = .next t) : Control s t := by
  rcases exec_shape h with h | h | h | h | h | h | h | h | h | h <;>
    rename t = _ => eq <;> subst eq
  · exact Control.of_writeResult ..
  · exact Control.of_writeResultFlags ..
  · exact .plain rfl rfl rfl rfl
  · exact .plain rfl rfl rfl rfl
  · exact .plain (by simp) (by simp) (by simp) (by simp)
  · exact .plain (by simp) (by simp) (by simp) (by simp)
  · exact Control.of_labelBranch _ _ _ rfl rfl rfl
  · exact Control.of_labelBranch _ _ _ (by simp) (by simp) (by simp)
  · exact Control.of_taken _ _ rfl rfl rfl
  · exact .plain rfl rfl rfl rfl

/-- Where an instruction goes, by the target its rule answers `Taken` with: on to the next slot
(R265, R261), to a valid target, or nowhere (R260). -/
inductive Goes (i : Instr) (s t : State) : Prop where
  | on (target : i.takenTo? s = none) (pc : t.pc = s.pc + 4) (status : t.status = s.status)
      (last : t.last = s.last)
  | jump (a : Word) (target : i.takenTo? s = some a) (valid : s.validTarget a = true)
      (pc : t.pc = a) (status : t.status = s.status)
      (last : t.last = s.last.map fun l => { l with ctrl := { l.ctrl with branchTaken := true } })
  | invalid (a : Word) (target : i.takenTo? s = some a) (valid : s.validTarget a = false)
      (eq : t = s.invalidBranchTarget a)

theorem Goes.of_labelBranch {i : Instr} {s written : State} {a : Word}
    (label : i.takenTo? s =
      if s.unresolvedHere = false ∧ i.branchCondition s = true then some a else none)
    (h1 : written.status = s.status) (h2 : written.last = s.last) :
    Goes i s (s.labelBranch (i.branchCondition s) a written) := by
  rcases s.labelBranch_cases (i.branchCondition s) a written with
    ⟨u, e⟩ | ⟨u, c, e⟩ | ⟨u, c, v, e⟩ | ⟨u, c, v, e⟩ <;> rw [e] <;> simp [u] at label
  · exact .on label rfl rfl rfl
  · exact .on (by simpa [c] using label) rfl rfl rfl
  · exact .jump a (by simpa [c] using label) v rfl h1 (by simp [h2])
  · exact .invalid a (by simpa [c] using label) v rfl

theorem Goes.of_sequential {i : Instr} {s t : State} (target : i.takenTo? s = none)
    (h : (∃ rd v, t = s.writeResult rd v) ∨ (∃ rd v f, t = s.writeResultFlags rd v f) ∨
      ∃ u : State, t = u.advance ∧ u.pc = s.pc ∧ u.status = s.status ∧ u.last = s.last) :
    Goes i s t := by
  rcases h with ⟨_, _, rfl⟩ | ⟨_, _, _, rfl⟩ | ⟨u, rfl, h1, h2, h3⟩
  · exact .on target (by simp) (by simp) (by simp)
  · exact .on target (by simp) (by simp) (by simp)
  · exact .on target (by simp [h1]) (by simpa using h2) (by simpa using h3)

/-- Every instruction goes where `takenTo?` says. -/
theorem exec_goes {i : Instr} {s t : State} (h : exec i s = .next t) : Goes i s t := by
  cases i
  case br rn =>
    cases h
    rcases s.taken_cases (s.readReg rn) s with ⟨v, e⟩ | ⟨v, e⟩ <;> rw [e]
    · exact .jump _ rfl v rfl rfl rfl
    · exact .invalid _ rfl v rfl
  case bl off =>
    cases h
    exact Goes.of_labelBranch (i := .bl off) rfl (State.writeReg_status ..) (State.writeReg_last ..)
  case b off => cases h; exact Goes.of_labelBranch (i := .b off) rfl rfl rfl
  case cbz rt off => cases h; exact Goes.of_labelBranch (i := .cbz rt off) rfl rfl rfl
  case cbnz rt off => cases h; exact Goes.of_labelBranch (i := .cbnz rt off) rfl rfl rfl
  case bEq off => cases h; exact Goes.of_labelBranch (i := .bEq off) rfl rfl rfl
  case bNe off => cases h; exact Goes.of_labelBranch (i := .bNe off) rfl rfl rfl
  case bHs off => cases h; exact Goes.of_labelBranch (i := .bHs off) rfl rfl rfl
  case bLo off => cases h; exact Goes.of_labelBranch (i := .bLo off) rfl rfl rfl
  case bMi off => cases h; exact Goes.of_labelBranch (i := .bMi off) rfl rfl rfl
  case bPl off => cases h; exact Goes.of_labelBranch (i := .bPl off) rfl rfl rfl
  case bVs off => cases h; exact Goes.of_labelBranch (i := .bVs off) rfl rfl rfl
  case bVc off => cases h; exact Goes.of_labelBranch (i := .bVc off) rfl rfl rfl
  case bHi off => cases h; exact Goes.of_labelBranch (i := .bHi off) rfl rfl rfl
  case bLs off => cases h; exact Goes.of_labelBranch (i := .bLs off) rfl rfl rfl
  case bGe off => cases h; exact Goes.of_labelBranch (i := .bGe off) rfl rfl rfl
  case bLt off => cases h; exact Goes.of_labelBranch (i := .bLt off) rfl rfl rfl
  case bGt off => cases h; exact Goes.of_labelBranch (i := .bGt off) rfl rfl rfl
  case bLe off => cases h; exact Goes.of_labelBranch (i := .bLe off) rfl rfl rfl
  case bAl off => cases h; exact Goes.of_labelBranch (i := .bAl off) rfl rfl rfl
  all_goals
    refine .of_sequential (by simp [Instr.takenTo?, Instr.branchCondition]) ?_
    first
      | exact .inl ⟨_, _, (next_inj.mp h).symm⟩
      | exact .inr (.inl ⟨_, _, _, (next_inj.mp h).symm⟩)
      | exact .inr (.inr ⟨_, (next_inj.mp h).symm, rfl, rfl, rfl⟩)
      | exact .inr (.inr ⟨_, (next_inj.mp h).symm, by simp, by simp, by simp⟩)

/-- No instruction changes the program or the parameters. -/
theorem exec_sameProgram {i : Instr} {s t : State} (h : exec i s = .next t) : SameProgram s t := by
  rcases exec_shape h with h | h | h | h | h | h | h | h | ⟨rn, _, _, _, _, _, eq⟩ | h
  case branchReg =>
    rcases s.taken_cases (s.readReg rn) s with ⟨_, e⟩ | ⟨_, e⟩ <;> rw [eq, e] <;>
      exact ⟨rfl, rfl, rfl⟩
  all_goals
    rename t = _ => eq
    subst eq
    first
      | exact Control.sameProgram_labelBranch _ _ _ ⟨rfl, rfl, rfl⟩
      | exact Control.sameProgram_labelBranch _ _ _ ⟨State.writeReg_imem .., State.writeReg_base ..,
          State.writeReg_spInit ..⟩
      | constructor <;> simp

/-! ### The end of a step -/

@[simp] theorem State.retire_x (s : State) : s.retire.x = s.x := by
  unfold State.retire; split <;> rfl
@[simp] theorem State.retire_flags (s : State) : s.retire.flags = s.flags := by
  unfold State.retire; split <;> rfl
@[simp] theorem State.retire_pc (s : State) : s.retire.pc = s.pc := by
  unfold State.retire; split <;> rfl
@[simp] theorem State.retire_mem (s : State) : s.retire.mem = s.mem := by
  unfold State.retire; split <;> rfl
@[simp] theorem State.retire_excl (s : State) : s.retire.excl = s.excl := by
  unfold State.retire; split <;> rfl
@[simp] theorem State.retire_trace (s : State) : s.retire.trace = s.trace := by
  unfold State.retire; split <;> rfl
@[simp] theorem State.retire_last (s : State) : s.retire.last = s.last := by
  unfold State.retire; split <;> rfl
@[simp] theorem State.retire_imem (s : State) : s.retire.imem = s.imem := by
  unfold State.retire; split <;> rfl
@[simp] theorem State.retire_base (s : State) : s.retire.base = s.base := by
  unfold State.retire; split <;> rfl
@[simp] theorem State.retire_spInit (s : State) : s.retire.spInit = s.spInit := by
  unfold State.retire; split <;> rfl
@[simp] theorem State.readReg_retire (s : State) (q : Reg) :
    s.retire.readReg q = s.readReg q := by
  unfold State.retire; split <;> rfl

@[simp] theorem State.closeStep_eq (s t : State) : s.closeStep t = t.retire := rfl

/-- Retiring changes the status only, and only from Running to Halted at the end address after a
sequential advance (R43). -/
theorem State.retire_status (s : State) :
    s.retire.status =
      if s.status = .running ∧ s.tookBranch = false ∧ s.pc = s.endAddr then .halted
      else s.status := by
  unfold State.retire; split <;> rfl

/-- A state in which no branch was taken retires by the end address alone. -/
theorem State.retire_status_sequential {s : State} (hs : s.status = .running)
    (hb : s.tookBranch = false) :
    s.retire.status = if s.pc = s.endAddr then .halted else .running := by
  simp [State.retire_status, hs, hb]

/-- A step that took a branch never ends the run (R43). -/
theorem State.retire_of_tookBranch {s : State} (hb : s.tookBranch = true) : s.retire = s := by
  simp [State.retire, hb]

@[simp] theorem State.retire_tookBranch (s : State) : s.retire.tookBranch = s.tookBranch := by
  simp [State.tookBranch]

theorem State.tookBranch_of_last {s : State} {l : Snapshot} (h : s.last = some l) :
    s.tookBranch = l.ctrl.branchTaken := by
  simp [State.tookBranch, h]

/-- The static signals never say that a branch was taken (R126). -/
@[simp] theorem ctrlOf_branchTaken (i : Instr) : (ctrlOf i).branchTaken = false := by
  cases i <;> rfl

@[simp] theorem State.tookBranch_snapshot (s : State) (w : InstrWord) (c : ControlSignals) :
    (s.snapshot w c).tookBranch = c.branchTaken := rfl

@[simp] theorem State.tookBranch_skipAsmError (s : State) (sl : Slot) (e : AsmError) :
    (s.skipAsmError sl e).tookBranch = false := rfl

@[simp] theorem State.tookBranch_skipUnknown (s : State) (sl : Slot) :
    (s.skipUnknown sl).tookBranch = false := rfl

/-! ### What R310 records -/

@[simp] theorem State.slotAt?_pc (s : State) : s.slotAt? s.pc = s.slotHere? := rfl

/-- The slot at an address depends on the program and BASE only. -/
theorem State.slotAt?_congr {s t : State} (hi : t.imem = s.imem) (hb : t.base = s.base) (a : Word) :
    t.slotAt? a = s.slotAt? a := by
  simp [State.slotAt?, State.slotHere?, State.validTarget, State.index, hi, hb]

@[simp] theorem State.eventWord?_word (s : State) (pc : Word) (w : InstrWord) :
    s.eventWord? ⟨.unknownInstruction, pc, .word w⟩ = some w := rfl

@[simp] theorem State.eventWord?_none (s : State) (pc : Word) :
    s.eventWord? ⟨.unknownInstruction, pc, .none⟩ = (s.slotAt? pc).map (·.word) := rfl

/-! ### Every step -/

/-- The fields a skip leaves as they were; the others are said by its definition. -/
theorem State.skipAsmError_control (s : State) (sl : Slot) (e : AsmError) :
    (s.skipAsmError sl e).pc = s.pc + 4 ∧ (s.skipAsmError sl e).status = s.status ∧
    (s.skipAsmError sl e).trace = s.trace ++ [⟨asmErrorKind e, s.pc, .none⟩] ∧
    (s.skipAsmError sl e).last = some ⟨s.index, sl.word, zeroCtrl⟩ := ⟨rfl, rfl, rfl, rfl⟩

theorem State.skipUnknown_control (s : State) (sl : Slot) :
    (s.skipUnknown sl).pc = s.pc + 4 ∧ (s.skipUnknown sl).status = s.status ∧
    (s.skipUnknown sl).trace = s.trace ++ [⟨.unknownInstruction, s.pc, .word sl.word⟩] ∧
    (s.skipUnknown sl).last = some ⟨s.index, sl.word, zeroCtrl⟩ := ⟨rfl, rfl, rfl, rfl⟩

/-- All that a step can do (R42). -/
inductive StepShape (s t : State) : Prop where
  | idle (status : s.status ≠ .running) (eq : t = s)
  | asmError (sl : Slot) (e : AsmError) (status : s.status = .running)
      (slot : s.slotHere? = some sl) (err : sl.asmError = some e)
      (eq : t = (s.skipAsmError sl e).retire)
  | unknown (sl : Slot) (e : UnknownWord) (status : s.status = .running)
      (slot : s.slotHere? = some sl) (err : sl.asmError = none)
      (word : decode sl.word = .error e) (eq : t = (s.skipUnknown sl).retire)
  | instr (sl : Slot) (i : Instr) (u : State) (status : s.status = .running)
      (slot : s.slotHere? = some sl) (err : sl.asmError = none)
      (word : decode sl.word = .ok i) (run : exec i (s.snapshot sl.word (ctrlOf i)) = .next u)
      (eq : t = u.retire)

theorem step_shape {s t : State} (h : step s = .next t) : StepShape s t := by
  by_cases hs : s.status = .running
  · cases hsl : s.slotHere? with
    | none => simp [step, State.issue, hs, hsl] at h
    | some sl =>
      cases he : sl.asmError with
      | some e =>
        simp [step, State.issue, State.issueSlot, hs, hsl, he] at h
        exact .asmError sl e hs hsl he h.symm
      | none =>
        cases hd : decode sl.word with
        | error e =>
          simp [step, State.issue, State.issueSlot, hs, hsl, he, hd] at h
          exact .unknown sl e hs hsl he hd h.symm
        | ok i =>
          obtain ⟨u, hu⟩ := exec_answers_next i (s.snapshot sl.word (ctrlOf i))
          simp [step, State.issue, State.issueSlot, hs, hsl, he, hd, hu] at h
          exact .instr sl i u hs hsl he hd hu h.symm
  · simp [step, State.issue, hs] at h
    exact .idle hs h.symm

/-- A Running state whose pc names a slot steps to a next state; any other status stays. -/
theorem step_answers_next {s : State} (h : s.status = .running → ∃ sl, s.slotHere? = some sl) :
    ∃ t, step s = .next t := by
  by_cases hs : s.status = .running
  · obtain ⟨sl, hsl⟩ := h hs
    cases he : sl.asmError with
    | some e => exact ⟨_, by simp [step, State.issue, State.issueSlot, hs, hsl, he]; rfl⟩
    | none =>
      cases hd : decode sl.word with
      | error e => exact ⟨_, by simp [step, State.issue, State.issueSlot, hs, hsl, he, hd]; rfl⟩
      | ok i =>
        obtain ⟨u, hu⟩ := exec_answers_next i (s.snapshot sl.word (ctrlOf i))
        exact ⟨u.retire, by simp [step, State.issue, State.issueSlot, hs, hsl, he, hd, hu]⟩
  · exact ⟨s, by simp [step, State.issue, hs]⟩

/-! ### The pc and the slots -/

theorem State.validTarget_iff (s : State) (t : Word) :
    s.validTarget t = true ↔ ∃ i < s.imem.length, t.toNat = s.base.toNat + 4 * i := by
  simp only [State.validTarget, decide_eq_true_eq]
  constructor
  · rintro ⟨h1, h2, h3⟩
    exact ⟨_, h3, by omega⟩
  · rintro ⟨i, hi, e⟩
    omega

/-- A valid pc's index is its slot's number. -/
theorem State.index_of_pc {s : State} {i : Nat} (h : s.pc.toNat = s.base.toNat + 4 * i) :
    s.index = i := by
  have h1 := s.pc.isLt
  have h2 := s.base.isLt
  simp only [State.index, BitVec.toNat_sub]
  omega

/-- Where the pc is valid there is a slot. -/
theorem State.slotHere?_isSome {s : State} (h : s.validTarget s.pc = true) :
    ∃ sl, s.slotHere? = some sl ∧ s.imem[s.index]? = some sl := by
  obtain ⟨i, hi, e⟩ := (s.validTarget_iff s.pc).mp h
  have hx := State.index_of_pc e
  exact ⟨s.imem[i], by simp [State.slotHere?, h, hx, hi], by simp [hx, hi]⟩

theorem State.slotHere?_eq_some {s : State} {sl : Slot} (h : s.slotHere? = some sl) :
    s.validTarget s.pc = true ∧ s.imem[s.index]? = some sl := by
  unfold State.slotHere? at h
  split at h
  · exact ⟨‹_›, h⟩
  · cases h

end Sys2Proof.Machine
end

