-- ==== Sys2Proof/Laws/PerInstr.lean ====
section
/-! SUPPORT. Statements about every instruction, one lemma per constructor.

Family RoundTrip: decoding the encoded word gives the instruction back, and the core instruction
for the three other names (30_encoding.md R134, R121 to R123). -/

namespace Sys2Proof.Laws.RoundTrip

/-- Decoding the word of an instruction gives the instruction, or the core instruction it is
another name of. -/
def Statement (i : Instr) : Prop := decode (encode i) = .ok i.core

theorem add (rd : Reg) (rn : Reg) (rm : Reg) : Statement (Instr.add rd rn rm) :=
  decode_rWord (by decide) rfl

theorem adds (rd : Reg) (rn : Reg) (rm : Reg) : Statement (Instr.adds rd rn rm) :=
  decode_rWord (by decide) rfl

theorem sub (rd : Reg) (rn : Reg) (rm : Reg) : Statement (Instr.sub rd rn rm) :=
  decode_rWord (by decide) rfl

theorem subs (rd : Reg) (rn : Reg) (rm : Reg) : Statement (Instr.subs rd rn rm) :=
  decode_rWord (by decide) rfl

theorem and (rd : Reg) (rn : Reg) (rm : Reg) : Statement (Instr.and rd rn rm) :=
  decode_rWord (by decide) rfl

theorem ands (rd : Reg) (rn : Reg) (rm : Reg) : Statement (Instr.ands rd rn rm) :=
  decode_rWord (by decide) rfl

theorem orr (rd : Reg) (rn : Reg) (rm : Reg) : Statement (Instr.orr rd rn rm) :=
  decode_rWord (by decide) rfl

theorem eor (rd : Reg) (rn : Reg) (rm : Reg) : Statement (Instr.eor rd rn rm) :=
  decode_rWord (by decide) rfl

theorem addi (rd : Reg) (rn : Reg) (imm : BitVec 12) : Statement (Instr.addi rd rn imm) :=
  decode_iWord (by decide) rfl

theorem addis (rd : Reg) (rn : Reg) (imm : BitVec 12) : Statement (Instr.addis rd rn imm) :=
  decode_iWord (by decide) rfl

theorem subi (rd : Reg) (rn : Reg) (imm : BitVec 12) : Statement (Instr.subi rd rn imm) :=
  decode_iWord (by decide) rfl

theorem subis (rd : Reg) (rn : Reg) (imm : BitVec 12) : Statement (Instr.subis rd rn imm) :=
  decode_iWord (by decide) rfl

theorem andi (rd : Reg) (rn : Reg) (imm : BitVec 12) : Statement (Instr.andi rd rn imm) :=
  decode_iWord (by decide) rfl

theorem andis (rd : Reg) (rn : Reg) (imm : BitVec 12) : Statement (Instr.andis rd rn imm) :=
  decode_iWord (by decide) rfl

theorem orri (rd : Reg) (rn : Reg) (imm : BitVec 12) : Statement (Instr.orri rd rn imm) :=
  decode_iWord (by decide) rfl

theorem eori (rd : Reg) (rn : Reg) (imm : BitVec 12) : Statement (Instr.eori rd rn imm) :=
  decode_iWord (by decide) rfl

theorem lsl (rd : Reg) (rn : Reg) (shamt : BitVec 6) : Statement (Instr.lsl rd rn shamt) :=
  decode_rWord (by decide) rfl

theorem lsr (rd : Reg) (rn : Reg) (shamt : BitVec 6) : Statement (Instr.lsr rd rn shamt) :=
  decode_rWord (by decide) rfl

theorem movz (rd : Reg) (hw : BitVec 2) (imm : BitVec 16) : Statement (Instr.movz rd hw imm) :=
  decode_imWord (by decide) (by decide) rfl

theorem movk (rd : Reg) (hw : BitVec 2) (imm : BitVec 16) : Statement (Instr.movk rd hw imm) :=
  decode_imWord (by decide) (by decide) rfl

theorem ldur (rt : Reg) (rn : Reg) (off : BitVec 9) : Statement (Instr.ldur rt rn off) :=
  decode_dWord (by decide) (by decide) (by decide) rfl

theorem ldurb (rt : Reg) (rn : Reg) (off : BitVec 9) : Statement (Instr.ldurb rt rn off) :=
  decode_dWord (by decide) (by decide) (by decide) rfl

theorem ldurh (rt : Reg) (rn : Reg) (off : BitVec 9) : Statement (Instr.ldurh rt rn off) :=
  decode_dWord (by decide) (by decide) (by decide) rfl

theorem ldursw (rt : Reg) (rn : Reg) (off : BitVec 9) : Statement (Instr.ldursw rt rn off) :=
  decode_dWord (by decide) (by decide) (by decide) rfl

theorem stur (rt : Reg) (rn : Reg) (off : BitVec 9) : Statement (Instr.stur rt rn off) :=
  decode_dWord (by decide) (by decide) (by decide) rfl

theorem sturb (rt : Reg) (rn : Reg) (off : BitVec 9) : Statement (Instr.sturb rt rn off) :=
  decode_dWord (by decide) (by decide) (by decide) rfl

theorem sturh (rt : Reg) (rn : Reg) (off : BitVec 9) : Statement (Instr.sturh rt rn off) :=
  decode_dWord (by decide) (by decide) (by decide) rfl

theorem sturw (rt : Reg) (rn : Reg) (off : BitVec 9) : Statement (Instr.sturw rt rn off) :=
  decode_dWord (by decide) (by decide) (by decide) rfl

theorem ldxr (rt : Reg) (rn : Reg) (off : BitVec 9) : Statement (Instr.ldxr rt rn off) :=
  decode_dWord (by decide) (by decide) (by decide) rfl

theorem stxr (rs : Reg) (rt : Reg) (rn : Reg) : Statement (Instr.stxr rs rt rn) :=
  decode_stxrWord rs rt rn

theorem b (off : BitVec 26) : Statement (Instr.b off) :=
  decode_bWord rfl

theorem bl (off : BitVec 26) : Statement (Instr.bl off) :=
  decode_bWord rfl

theorem br (rn : Reg) : Statement (Instr.br rn) :=
  decode_rWord (by decide) rfl

theorem cbz (rt : Reg) (off : BitVec 19) : Statement (Instr.cbz rt off) :=
  decode_cbWord (by decide) rfl

theorem cbnz (rt : Reg) (off : BitVec 19) : Statement (Instr.cbnz rt off) :=
  decode_cbWord (by decide) rfl

theorem bEq (off : BitVec 19) : Statement (Instr.bEq off) :=
  decode_bcondWord .eq off

theorem bNe (off : BitVec 19) : Statement (Instr.bNe off) :=
  decode_bcondWord .ne off

theorem bHs (off : BitVec 19) : Statement (Instr.bHs off) :=
  decode_bcondWord .hs off

theorem bLo (off : BitVec 19) : Statement (Instr.bLo off) :=
  decode_bcondWord .lo off

theorem bMi (off : BitVec 19) : Statement (Instr.bMi off) :=
  decode_bcondWord .mi off

theorem bPl (off : BitVec 19) : Statement (Instr.bPl off) :=
  decode_bcondWord .pl off

theorem bVs (off : BitVec 19) : Statement (Instr.bVs off) :=
  decode_bcondWord .vs off

theorem bVc (off : BitVec 19) : Statement (Instr.bVc off) :=
  decode_bcondWord .vc off

theorem bHi (off : BitVec 19) : Statement (Instr.bHi off) :=
  decode_bcondWord .hi off

theorem bLs (off : BitVec 19) : Statement (Instr.bLs off) :=
  decode_bcondWord .ls off

theorem bGe (off : BitVec 19) : Statement (Instr.bGe off) :=
  decode_bcondWord .ge off

theorem bLt (off : BitVec 19) : Statement (Instr.bLt off) :=
  decode_bcondWord .lt off

theorem bGt (off : BitVec 19) : Statement (Instr.bGt off) :=
  decode_bcondWord .gt off

theorem bLe (off : BitVec 19) : Statement (Instr.bLe off) :=
  decode_bcondWord .le off

theorem bAl (off : BitVec 19) : Statement (Instr.bAl off) :=
  decode_bcondWord .al off

theorem nop : Statement Instr.nop :=
  rfl

theorem cmp (rn : Reg) (rm : Reg) : Statement (Instr.cmp rn rm) :=
  decode_rWord (by decide) rfl

theorem cmpi (rn : Reg) (imm : BitVec 12) : Statement (Instr.cmpi rn imm) :=
  decode_iWord (by decide) rfl

theorem mov (rd : Reg) (rm : Reg) : Statement (Instr.mov rd rm) :=
  decode_rWord (by decide) rfl

end Sys2Proof.Laws.RoundTrip
end

