-- ==== Sys2Proof/Tests/Slice0.lean ====
section
/-! SUPPORT. The model's own tests. Every expected value is copied from the spec: the examples of
40_alu.md, 41_loadstore.md, 42_branch.md and 43_system.md, and 95_test_vectors.md; each theorem's
comment says where from. Then one witness for the hypotheses of each statement. -/

namespace Sys2Proof.Tests

open Sys2Proof Sys2Proof.Machine

/-! ### Helpers -/

/-- The next state of an answer, if there is one. -/
def nextOf : Result → Option State
  | .next s => some s
  | _ => none

/-- One step. -/
def ran (s : State) : Option State := nextOf (step s)

/-- A state with some registers set. -/
def withRegs (s : State) (regs : List (Reg × Word)) : State :=
  regs.foldl (fun t p => t.writeReg p.1 p.2) s

/-- A one-slot program with some registers set, entered at BASE. -/
def one (w : InstrWord) (regs : List (Reg × Word)) : State :=
  withRegs (State.reset.loadProgram [plainSlot w]) regs

/-- The same with some bytes of memory set. -/
def oneMem (w : InstrWord) (regs : List (Reg × Word)) (bytes : List (Nat × Byte)) : State :=
  { one w regs with mem := bytes.foldl (fun m p => writeByte m p.1 p.2) [] }

/-- The setting of 95_test_vectors.md 2.6: eight slots, NOP but for the slot at the pc. -/
def eightAt (k : Nat) (sl : Slot) (regs : List (Reg × Word)) : State :=
  withRegs { State.reset.loadProgram ((List.replicate 8 (plainSlot nopWord)).set k sl) with
    pc := Config.base + BitVec.ofNat 64 (4 * k) } regs

/-- The branch in slot 2. -/
def eight (w : InstrWord) (regs : List (Reg × Word)) : State := eightAt 2 (plainSlot w) regs

/-- The branch in slot 2, unresolved. -/
def eightUnres (w : InstrWord) (regs : List (Reg × Word)) : State :=
  eightAt 2 { plainSlot w with unresolved := true } regs

/-- The flags Z, N, C, V from four digits. -/
def zncv (z n c v : Nat) : Flags := ⟨z == 1, n == 1, c == 1, v == 1⟩

/-- The bytes of memory from an address on. -/
def bytesAt (s : State) (a n : Nat) : List Byte := (List.range n).map fun k => readByte s.mem (a + k)

/-! ### WellFormed refuses what is ill-formed, one term for each check -/

theorem test_wf_cmp_refused : (Instr.cmp 1 2).wellFormed = false := by decide
theorem test_wf_cmpi_refused : (Instr.cmpi 1 5).wellFormed = false := by decide
theorem test_wf_mov_refused : (Instr.mov 5 6).wellFormed = false := by decide
theorem test_wf_core_accepted : (Instr.subs 31 1 2).wellFormed = true := by decide
theorem test_slot_error_with_word_refused :
    (Slot.mk 0x8B020023#32 false (some .invalidOperand)).wellFormed = false := by decide
theorem test_slot_error_unresolved_refused :
    (Slot.mk 0#32 true (some .invalidOperand)).wellFormed = false := by decide
theorem test_slot_unresolved_nonbranch_refused :
    (Slot.mk 0x8B020023#32 true none).wellFormed = false := by decide
theorem test_slot_unresolved_offset_refused :
    (Slot.mk 0x14000001#32 true none).wellFormed = false := by decide
theorem test_slot_unresolved_reserved_condition_refused :
    (Slot.mk 0x5400000F#32 true none).wellFormed = false := by decide
theorem test_slot_unresolved_placeholders_accepted :
    [0x14000000#32, 0x94000000#32, 0xB4000005#32, 0xB500001F#32, 0x5400000E#32].all
      (fun w => (Slot.mk w true none).wellFormed) = true := by decide
theorem test_fits_misaligned_base_refused : programFits 0x400002#64 1 = false := by decide
theorem test_fits_too_long_refused : programFits 0xFFFFFFFFFFFFFFFC#64 2 = false := by decide
theorem test_fits_last_word_accepted : programFits 0xFFFFFFFFFFFFFFFC#64 1 = true := by decide

/-! ### Decoding the spec's words: every constructor the decoder can return -/

/-- 40_alu.md R170 to R177, the words of the examples. -/
theorem test_decode_add_sub :
    [0x8B020023, 0xAB030041, 0x91002BE1, 0xB13FFC01, 0xCB020023, 0xEB01003F, 0xD1000422, 0xF1000422].map (decodeTableWord 32) =
      [some (.add 3 1 2), some (.adds 1 2 3), some (.addi 1 31 10), some (.addis 1 0 (-1)), some (.sub 3 1 2), some (.subs 31 1 1), some (.subi 2 1 1), some (.subis 2 1 1)] := by decide

/-- 40_alu.md R180 to R187, the words of the examples. -/
theorem test_decode_logical :
    [0x8A020023, 0xEA020023, 0x923FFC01, 0xF2000001, 0xAA020023, 0xB23FFFE1, 0xCA020023, 0xD23FFC01].map (decodeTableWord 32) =
      [some (.and 3 1 2), some (.ands 3 1 2), some (.andi 1 0 (-1)), some (.andis 1 0 0), some (.orr 3 1 2), some (.orri 1 31 (-1)), some (.eor 3 1 2), some (.eori 1 0 (-1))] := by decide

/-- The words of CMP, CMPI and MOV are SUBS, SUBIS and ORR (30_encoding.md R121 to R123). -/
theorem test_decode_other_names :
    [0xEB02003F, 0xF13FFC3F, 0xAA0603E5].map (decodeTableWord 32) =
      [some (.subs 31 1 2), some (.subis 31 1 (-1)), some (.orr 5 31 6)] := by decide

/-- 40_alu.md R190, R191, R195, R196, and 95_test_vectors.md 2.1. -/
theorem test_decode_shift_move :
    [0xD3601001, 0xD360FC01, 0xD3400401, 0xD2A24681, 0xF297DDE1, 0xF2FFFFE9].map (decodeTableWord 32) =
      [some (.lsl 1 0 4), some (.lsl 1 0 63), some (.lsr 1 0 1), some (.movz 1 1 0x1234), some (.movk 1 0 0xBEEF), some (.movk 9 3 0xFFFF)] := by decide

/-- 41_loadstore.md R222 to R233 and 95_test_vectors.md 2.1. -/
theorem test_decode_load_store :
    [0xF85F8002, 0x38401002, 0x785FE002, 0xB88FF382, 0xF8008001, 0x38000001, 0x78002001, 0xB81FC001].map (decodeTableWord 32) =
      [some (.ldur 2 0 (-8)), some (.ldurb 2 0 1), some (.ldurh 2 0 (-2)), some (.ldursw 2 28 255), some (.stur 1 0 8), some (.sturb 1 0 0), some (.sturh 1 0 2), some (.sturw 1 0 (-4))] := by decide

/-- 41_loadstore.md R240, R241. -/
theorem test_decode_exclusive :
    [0xC8400001, 0xC8020001].map (decodeTableWord 32) =
      [some (.ldxr 1 0 0), some (.stxr 2 1 0)] := by decide

/-- 42_branch.md R262 to R267 and 95_test_vectors.md 2.1, 2.2. -/
theorem test_decode_branch :
    [0x14000003, 0x17FFFFFE, 0x95FFFFFF, 0xD60003C0, 0xB4000040, 0xB5800001, 0xB5FFFFFF].map (decodeTableWord 32) =
      [some (.b 3), some (.b (-2)), some (.bl 33554431), some (.br 30), some (.cbz 0 2), some (.cbnz 1 (-262144)), some (.cbnz 31 (-1))] := by decide

/-- B.LE +4 is 0x5400008D (95_test_vectors.md 2.1); the other fourteen with the codes of
30_encoding.md R116 in bits 4:0. -/
theorem test_decode_bcond :
    ((List.range 15).map fun c => decodeTableWord 32 (0x54000080 + c)) =
      [some (.bEq 4), some (.bNe 4), some (.bHs 4), some (.bLo 4), some (.bMi 4), some (.bPl 4), some (.bVs 4), some (.bVc 4), some (.bHi 4), some (.bLs 4), some (.bGe 4), some (.bLt 4), some (.bGt 4), some (.bLe 4), some (.bAl 4)] := by decide

/-- 43_system.md R300; 95_test_vectors.md 2.2 row 3. -/
theorem test_decode_nop : decodeTableWord 32 0xD503201F = some .nop := by decide

/-- 95_test_vectors.md 2.2: the rows that are Unknown. -/
theorem test_decode_unknown :
    [0x00000000, 0xFFFFFFFF, 0xD503201E, 0xD5000000, 0xF8400402, 0xF8000801, 0x5400004F, 0x5400005F,
      0x8B200000, 0x91800000, 0xD3000000, 0xB8400000, 0xC8200000].all
      (fun w => decodeTableWord 32 w == none) = true := by decide

/-- 95_test_vectors.md 2.2 rows 11 to 13 and 26: don't-care fields. -/
theorem test_decode_dont_care :
    [0x8B02FC23, 0xD37F1001, 0xD61FFFDF, 0xC802F001].map (decodeTableWord 32) =
      [some (.add 3 1 2), some (.lsl 1 0 4), some (.br 30), some (.stxr 2 1 0)] := by decide

/-- 95_test_vectors.md 2.2 rows 16 to 18 and 27 to 30: fields at their limits. -/
theorem test_decode_limits :
    [0xD2000000, 0xD2800000, 0xD3600000, 0xF2FFFFE1, 0x91200001, 0x911FFC01, 0xF8500000].map
      (decodeTableWord 32) =
      [some (.eori 0 0 0), some (.movz 0 0 0), some (.lsl 0 0 0), some (.movk 1 3 0xFFFF),
        some (.addi 1 0 (-2048)), some (.addi 1 0 2047), some (.ldur 0 0 (-256))] := by decide

/-- 95_test_vectors.md 2.1: the fields of STXR X2, X1, [X0]. -/
theorem test_breakdown_stxr :
    (breakdown 0xC8020001#32).fields =
      [⟨"opcode", 31, 21, 0b11001000000⟩, ⟨"address", 20, 12, 0b000100000⟩, ⟨"op2", 11, 10, 0⟩,
        ⟨"Rn", 9, 5, 0⟩, ⟨"Rt", 4, 0, 1⟩] := by decide

/-- 95_test_vectors.md 2.1: the fields of MOVZ X1, #0x1234, LSL #16. -/
theorem test_breakdown_movz :
    (breakdown 0xD2A24681#32).fields =
      [⟨"opcode", 31, 23, 0b110100101⟩, ⟨"hw", 22, 21, 1⟩, ⟨"imm", 20, 5, 0x1234⟩,
        ⟨"Rd", 4, 0, 1⟩] := by decide

/-- The immediates of R111, R112, R114 and R115 in the decoder's record. -/
theorem test_record_immediates :
    [0xD1200021#32, 0xF85F8002#32, 0x17FFFFFE#32, 0xB5800001#32, 0xD2A24681#32].map
      (fun w => (decodeRecord w).imm) =
      [-2048, -8, -8, -1048576, 0x1234] := by decide

/-- 30_encoding.md R126: the rows of SUBS, LDUR, STXR, CBZ, B.EQ, BL. -/
theorem test_control_signals :
    [ctrlOf (.subs 0 0 0), ctrlOf (.ldur 0 0 0), ctrlOf (.stxr 0 0 0), ctrlOf (.cbz 0 0),
      ctrlOf (.bEq 0), ctrlOf (.bl 0)] =
      [⟨false, false, false, false, false, false, false, true, false, 0b10, true, 0b0110, false⟩,
        ⟨false, false, false, false, true, true, false, false, true, 0b00, true, 0b0010, false⟩,
        ⟨true, false, false, false, false, false, true, false, true, 0b00, true, 0b0010, false⟩,
        ⟨true, false, false, true, false, false, false, false, false, 0b01, false, 0b0111, false⟩,
        ⟨false, false, true, false, false, false, false, false, false, 0b00, false, 0b0000, false⟩,
        ⟨false, true, false, false, false, false, false, false, false, 0b00, true, 0b0000, false⟩] := by
  decide

/-! ### One step of each instruction -/

/-- R170: X1 = 10, X2 = 20 gives X3 = 30. -/
theorem test_add :
    (ran (one 0x8B020023#32 [(1, 10), (2, 20)])).map (fun t => (t.readReg 3, t.pc, t.flags)) =
      some (30#64, 0x400004#64, zncv 0 0 0 0) := by decide

/-- 95_test_vectors.md 2.4: wraps, no trap, flags unchanged. -/
theorem test_add_wraps :
    (ran (one 0x8B020023#32 [(1, 0x7FFFFFFFFFFFFFFF), (2, 1)])).map (fun t => (t.readReg 3, t.pc, t.flags)) =
      some (0x8000000000000000#64, 0x400004#64, zncv 0 0 0 0) := by decide

/-- 95_test_vectors.md 2.4 row 4: the write is discarded. -/
theorem test_add_xzr :
    (ran (one 0x8B02003F#32 [(1, 5), (2, 6)])).map (fun t => (t.readReg 31, t.pc, t.flags)) =
      some (0#64, 0x400004#64, zncv 0 0 0 0) := by decide

/-- R171: Z=0 N=1 C=0 V=1. -/
theorem test_adds :
    (ran (one 0xAB030041#32 [(2, 0x7FFFFFFFFFFFFFFF), (3, 1)])).map (fun t => (t.readReg 1, t.flags)) =
      some (0x8000000000000000#64, zncv 0 1 0 1) := by decide

/-- 95_test_vectors.md 2.3: INT64_MIN + INT64_MIN. -/
theorem test_adds_carry :
    (ran (one 0xAB020023#32 [(1, 0x8000000000000000), (2, 0x8000000000000000)])).map (fun t => (t.readReg 3, t.flags)) =
      some (0#64, zncv 1 0 1 1) := by decide

/-- R172: gives X1 = 10. -/
theorem test_addi :
    (ran (one 0x91002BE1#32 [])).map (fun t => (t.readReg 1, t.pc, t.flags)) =
      some (10#64, 0x400004#64, zncv 0 0 0 0) := by decide

/-- 95_test_vectors.md 2.4: the least immediate. -/
theorem test_addi_min :
    (ran (one 0x91200001#32 [])).map (fun t => (t.readReg 1, t.pc, t.flags)) =
      some (0xFFFFFFFFFFFFF800#64, 0x400004#64, zncv 0 0 0 0) := by decide

/-- R173: X0 = 5 gives X1 = 4, C=1. -/
theorem test_addis :
    (ran (one 0xB13FFC01#32 [(0, 5)])).map (fun t => (t.readReg 1, t.flags)) =
      some (4#64, zncv 0 0 1 0) := by decide

/-- R174: 5 - 7. -/
theorem test_sub :
    (ran (one 0xCB020023#32 [(1, 5), (2, 7)])).map (fun t => (t.readReg 3, t.pc, t.flags)) =
      some (0xFFFFFFFFFFFFFFFE#64, 0x400004#64, zncv 0 0 0 0) := by decide

/-- R175 (source): X1 = 5 gives Z=1 N=0 C=1 V=0, no register change. -/
theorem test_subs :
    (ran (one 0xEB01003F#32 [(1, 5)])).map (fun t => (t.readReg 1, t.flags)) =
      some (5#64, zncv 1 0 1 0) := by decide

/-- 95_test_vectors.md 2.3: INT64_MAX - INT64_MIN, C compared unsigned (C3). -/
theorem test_subs_unsigned_carry :
    (ran (one 0xEB020023#32 [(1, 0x7FFFFFFFFFFFFFFF), (2, 0x8000000000000000)])).map (fun t => (t.readReg 3, t.flags)) =
      some (0xFFFFFFFFFFFFFFFF#64, zncv 0 1 0 1) := by decide

/-- R176: 0 - 1. -/
theorem test_subi :
    (ran (one 0xD1000422#32 [])).map (fun t => (t.readReg 2, t.pc, t.flags)) =
      some (0xFFFFFFFFFFFFFFFF#64, 0x400004#64, zncv 0 0 0 0) := by decide

/-- R177: Z=0 N=1 C=0 V=0. -/
theorem test_subis :
    (ran (one 0xF1000422#32 [])).map (fun t => (t.readReg 2, t.flags)) =
      some (0xFFFFFFFFFFFFFFFF#64, zncv 0 1 0 0) := by decide

/-- R178: X1 = 3, X2 = 5 gives Z=0 N=1 C=0 V=0; no register is written. -/
theorem test_cmp :
    (nextOf (exec (.cmp 1 2) (one 0 [(1, 3), (2, 5)]))).map (fun t => (t.flags, t.readReg 31, t.pc)) =
      some (zncv 0 1 0 0, 0#64, 0x400004#64) := by decide

/-- R179: X1 = all ones against -1 gives Z=1 N=0 C=1 V=0. -/
theorem test_cmpi :
    (nextOf (exec (.cmpi 1 (-1)) (one 0 [(1, 0xFFFFFFFFFFFFFFFF)]))).map (fun t => t.flags) =
      some (zncv 1 0 1 0) := by decide

/-- R180. -/
theorem test_and :
    (ran (one 0x8A020023#32 [(1, 0xF0F0), (2, 0xFF00)])).map (fun t => (t.readReg 3, t.pc, t.flags)) =
      some (0xF000#64, 0x400004#64, zncv 0 0 0 0) := by decide

/-- R181: Z=0 N=1 C=0 V=0. -/
theorem test_ands :
    (ran (one 0xEA020023#32 [(1, 0x8000000000000000), (2, 0xFFFFFFFFFFFFFFFF)])).map (fun t => (t.readReg 3, t.flags)) =
      some (0x8000000000000000#64, zncv 0 1 0 0) := by decide

/-- 95_test_vectors.md 2.4: ANDS XZR overwrites C and V with 0. -/
theorem test_ands_clears_c_v :
    (ran ((one 0xEA02003F#32 [(1, 0xF0), (2, 0x0F)]).setFlags (zncv 0 1 1 1))).map
      (fun t => t.flags) = some (zncv 1 0 0 0) := by decide

/-- R182: the immediate sign-extends to all ones. -/
theorem test_andi :
    (ran (one 0x923FFC01#32 [(0, 0x123456789ABCDEF0)])).map (fun t => (t.readReg 1, t.pc, t.flags)) =
      some (0x123456789ABCDEF0#64, 0x400004#64, zncv 0 0 0 0) := by decide

/-- R183: Z=1. -/
theorem test_andis :
    (ran (one 0xF2000001#32 [(0, 0x55)])).map (fun t => (t.readReg 1, t.flags)) =
      some (0#64, zncv 1 0 0 0) := by decide

/-- R184. -/
theorem test_orr :
    (ran (one 0xAA020023#32 [(1, 0xF0), (2, 0x0F)])).map (fun t => (t.readReg 3, t.pc, t.flags)) =
      some (0xFF#64, 0x400004#64, zncv 0 0 0 0) := by decide

/-- R185. -/
theorem test_orri :
    (ran (one 0xB23FFFE1#32 [])).map (fun t => (t.readReg 1, t.pc, t.flags)) =
      some (0xFFFFFFFFFFFFFFFF#64, 0x400004#64, zncv 0 0 0 0) := by decide

/-- R186. -/
theorem test_eor :
    (ran (one 0xCA020023#32 [(1, 0xFF), (2, 0x0F)])).map (fun t => (t.readReg 3, t.pc, t.flags)) =
      some (0xF0#64, 0x400004#64, zncv 0 0 0 0) := by decide

/-- R187: bitwise NOT. -/
theorem test_eori :
    (ran (one 0xD23FFC01#32 [(0, 0xFF)])).map (fun t => (t.readReg 1, t.pc, t.flags)) =
      some (0xFFFFFFFFFFFFFF00#64, 0x400004#64, zncv 0 0 0 0) := by decide

/-- R189: X6 = 0xABC gives X5 = 0xABC. -/
theorem test_mov :
    (nextOf (exec (.mov 5 6) (one 0 [(6, 0xABC)]))).map (fun t => t.readReg 5) =
      some 0xABC#64 := by decide

/-- R190: 1 shifted by 4. -/
theorem test_lsl :
    (ran (one 0xD3601001#32 [(0, 1)])).map (fun t => (t.readReg 1, t.pc, t.flags)) =
      some (0x10#64, 0x400004#64, zncv 0 0 0 0) := by decide

/-- 95_test_vectors.md 2.4: shift by 63, the bits shifted out are lost. -/
theorem test_lsl_max :
    (ran (one 0xD360FC01#32 [(0, 3)])).map (fun t => (t.readReg 1, t.pc, t.flags)) =
      some (0x8000000000000000#64, 0x400004#64, zncv 0 0 0 0) := by decide

/-- R191: logical, zero fill. -/
theorem test_lsr :
    (ran (one 0xD3400401#32 [(0, 0x8000000000000000)])).map (fun t => (t.readReg 1, t.pc, t.flags)) =
      some (0x4000000000000000#64, 0x400004#64, zncv 0 0 0 0) := by decide

/-- R195, whatever X1 held. -/
theorem test_movz :
    (ran (one 0xD2A24681#32 [(1, 0xFFFFFFFFFFFFFFFF)])).map (fun t => (t.readReg 1, t.pc, t.flags)) =
      some (0x12340000#64, 0x400004#64, zncv 0 0 0 0) := by decide

/-- 95_test_vectors.md 2.4: hw = 3. -/
theorem test_movz_48 :
    (ran (one 0xD2F579A1#32 [(1, 0xFFFFFFFFFFFFFFFF)])).map (fun t => (t.readReg 1, t.pc, t.flags)) =
      some (0xABCD000000000000#64, 0x400004#64, zncv 0 0 0 0) := by decide

/-- R196. -/
theorem test_movk :
    (ran (one 0xF297DDE1#32 [(1, 0x12340000)])).map (fun t => (t.readReg 1, t.pc, t.flags)) =
      some (0x1234BEEF#64, 0x400004#64, zncv 0 0 0 0) := by decide

/-- 95_test_vectors.md 2.4: hw = 2. -/
theorem test_movk_32 :
    (ran (one 0xF2D579A1#32 [(1, 0x1111222233334444)])).map (fun t => (t.readReg 1, t.pc, t.flags)) =
      some (0x1111ABCD33334444#64, 0x400004#64, zncv 0 0 0 0) := by decide

/-- R222; 95_test_vectors.md 2.7. -/
theorem test_ldur :
    (ran (oneMem 0xF8400002#32 [(0, 0x1000)] [(0x1000, 0x88), (0x1001, 0x77), (0x1002, 0x66), (0x1003, 0x55), (0x1004, 0x44), (0x1005, 0x33), (0x1006, 0x22), (0x1007, 0x11)])).map (fun t => t.readReg 2) =
      some 0x1122334455667788#64 := by decide

/-- 95_test_vectors.md 2.7 row 8: misaligned, a byte never written reads 0. -/
theorem test_ldur_misaligned :
    (ran (oneMem 0xF8401002#32 [(0, 0x1000)] [(0x1000, 0x88), (0x1001, 0x77), (0x1002, 0x66), (0x1003, 0x55), (0x1004, 0x44), (0x1005, 0x33), (0x1006, 0x22), (0x1007, 0x11)])).map (fun t => t.readReg 2) =
      some 0x0011223344556677#64 := by decide

/-- R223: zero-extended. -/
theorem test_ldurb :
    (ran (oneMem 0x38401002#32 [(0, 0x1000)] [(0x1001, 0xFF)])).map (fun t => t.readReg 2) =
      some 0xFF#64 := by decide

/-- R224. -/
theorem test_ldurh :
    (ran (oneMem 0x785FE002#32 [(0, 0x1002)] [(0x1000, 0x34), (0x1001, 0x12)])).map (fun t => t.readReg 2) =
      some 0x1234#64 := by decide

/-- R225: sign-extended. -/
theorem test_ldursw :
    (ran (oneMem 0xB8804002#32 [(0, 0x1000)] [(0x1007, 0x80)])).map (fun t => t.readReg 2) =
      some 0xFFFFFFFF80000000#64 := by decide

/-- R230. -/
theorem test_stur :
    (ran (oneMem 0xF8008001#32 [(0, 0x1000), (1, 0x1122334455667788)] [])).map (fun t => bytesAt t 0x1007 10) =
      some [0x00, 0x88, 0x77, 0x66, 0x55, 0x44, 0x33, 0x22, 0x11, 0x00] := by decide

/-- 95_test_vectors.md 2.7 store row 8: the address wraps modulo 2^64. -/
theorem test_stur_wraps :
    (ran (one 0xF8000001#32 [(0, 0xFFFFFFFFFFFFFFFC), (1, 0x0807060504030201)])).map
      (fun t => (bytesAt t 0xFFFFFFFFFFFFFFFC 4, bytesAt t 0 4)) =
      some ([1, 2, 3, 4], [5, 6, 7, 8]) := by decide

/-- R231; 95_test_vectors.md 2.7 store row 5. -/
theorem test_sturb :
    (ran (oneMem 0x38001001#32 [(0, 0x2000), (1, 0xAB)] [(0x2000, 0xFF), (0x2001, 0xFF), (0x2002, 0xFF), (0x2003, 0xFF)])).map (fun t => bytesAt t 0x2000 4) =
      some [0xFF, 0xAB, 0xFF, 0xFF] := by decide

/-- R232. -/
theorem test_sturh :
    (ran (oneMem 0x78002001#32 [(0, 0x1000), (1, 0x1234)] [])).map (fun t => bytesAt t 0x1001 4) =
      some [0x00, 0x34, 0x12, 0x00] := by decide

/-- R233. -/
theorem test_sturw :
    (ran (oneMem 0xB81FC001#32 [(0, 0x1004), (1, 0x1122334455667788)] [])).map (fun t => bytesAt t 0x1000 5) =
      some [0x88, 0x77, 0x66, 0x55, 0x00] := by decide

/-- R240: X1 = 5, excl = (true, 0x2000). -/
theorem test_ldxr :
    (ran (oneMem 0xC8400001#32 [(0, 0x2000)] [(0x2000, 5)])).map
      (fun t => (t.readReg 1, t.excl)) = some (5#64, ⟨true, 0x2000⟩) := by decide

/-- R241: the STXR after that LDXR stores 6 and gives X2 = 0. -/
theorem test_stxr_success :
    (ran { one 0xC8020001#32 [(0, 0x2000), (1, 6), (2, 9)] with excl := ⟨true, 0x2000⟩ }).map
      (fun t => (t.readReg 2, t.excl, bytesAt t 0x2000 2)) =
      some (0#64, ⟨false, 0x2000⟩, [6, 0]) := by decide

/-- 95_test_vectors.md 2.7: a reservation for another address fails and is cleared. -/
theorem test_stxr_mismatch :
    (ran { one 0xC8020001#32 [(0, 0x2000), (1, 6)] with excl := ⟨true, 0x2008⟩ }).map
      (fun t => (t.readReg 2, t.excl.valid, t.mem)) = some (1#64, false, []) := by decide

/-- 95_test_vectors.md 2.6 row 2. -/
theorem test_b :
    (ran (eight 0x17FFFFFE#32 [])).map (fun t => (t.pc, t.status, t.readReg 30, t.trace)) =
      some (0x400000#64, .running, 0#64, []) := by decide

/-- 95_test_vectors.md 2.6 row 4: one past the last slot is no target. -/
theorem test_b_past_end :
    (ran (eight 0x14000006#32 [])).map (fun t => (t.pc, t.status, t.readReg 30, t.trace)) =
      some (0x400008#64, .faulted, 0#64, [⟨.invalidBranchTarget, 0x400008, .target 0x400020⟩]) := by decide

/-- 95_test_vectors.md 2.6 row 7. -/
theorem test_bl :
    (ran (eight 0x94000004#32 [])).map (fun t => (t.pc, t.status, t.readReg 30, t.trace)) =
      some (0x400018#64, .running, 0x40000C#64, []) := by decide

/-- 95_test_vectors.md 2.6 row 8: the link is dropped. -/
theorem test_bl_invalid :
    (ran (eight 0x94000009#32 [(30, 0x77)])).map (fun t => (t.pc, t.status, t.readReg 30, t.trace)) =
      some (0x400008#64, .faulted, 0x77#64, [⟨.invalidBranchTarget, 0x400008, .target 0x40002C⟩]) := by decide

/-- 95_test_vectors.md 2.6 row 9. -/
theorem test_br :
    (ran (eight 0xD60003C0#32 [(30, 0x400014)])).map (fun t => (t.pc, t.status, t.readReg 30, t.trace)) =
      some (0x400014#64, .running, 0x400014#64, []) := by decide

/-- 95_test_vectors.md 2.6 row 10. -/
theorem test_br_misaligned :
    (ran (eight 0xD6000020#32 [(1, 0x400006)])).map (fun t => (t.pc, t.status, t.readReg 30, t.trace)) =
      some (0x400008#64, .faulted, 0#64, [⟨.invalidBranchTarget, 0x400008, .target 0x400006⟩]) := by decide

/-- 95_test_vectors.md 2.6 row 14. -/
theorem test_cbz_taken :
    (ran (eight 0xB4000040#32 [])).map (fun t => (t.pc, t.status, t.readReg 30, t.trace)) =
      some (0x400010#64, .running, 0#64, []) := by decide

/-- 95_test_vectors.md 2.6 row 15. -/
theorem test_cbz_not_taken :
    (ran (eight 0xB4000040#32 [(0, 1)])).map (fun t => (t.pc, t.status, t.readReg 30, t.trace)) =
      some (0x40000C#64, .running, 0#64, []) := by decide

/-- 95_test_vectors.md 2.6 row 17. -/
theorem test_cbnz_taken :
    (ran (eight 0xB5FFFFC1#32 [(1, 0xFFFFFFFFFFFFFFFF)])).map (fun t => (t.pc, t.status, t.readReg 30, t.trace)) =
      some (0x400000#64, .running, 0#64, []) := by decide

/-- 95_test_vectors.md 2.6 row 19: not taken, so the target does not matter. -/
theorem test_cbnz_not_taken_invalid :
    (ran (eight 0xB50000E1#32 [])).map (fun t => (t.pc, t.status, t.readReg 30, t.trace)) =
      some (0x40000C#64, .running, 0#64, []) := by decide

/-- 95_test_vectors.md 2.6 row 22. -/
theorem test_unresolved_bl :
    (ran (eightUnres 0x94000000#32 [(30, 0x77)])).map (fun t => (t.pc, t.status, t.readReg 30, t.trace)) =
      some (0x40000C#64, .running, 0x77#64, [⟨.unresolvedLabel, 0x400008, .none⟩]) := by decide

/-- 95_test_vectors.md 2.6 row 21. -/
theorem test_unresolved_cbz :
    (ran (eightUnres 0xB4000000#32 [])).map (fun t => (t.pc, t.status, t.readReg 30, t.trace)) =
      some (0x40000C#64, .running, 0#64, [⟨.unresolvedLabel, 0x400008, .none⟩]) := by decide

/-- 95_test_vectors.md 2.5, column EQ: the flag combinations 0000 to 1111 in the order Z N C V. -/
theorem test_b_eq :
    ((List.range 16).map fun k => (ran ((eight 0x54000040#32 []).setFlags
      (zncv (k / 8) (k / 4 % 2) (k / 2 % 2) (k % 2)))).map (fun t => t.pc == 0x400010#64)) =
      [some false, some false, some false, some false, some false, some false, some false, some false, some true, some true, some true, some true, some true, some true, some true, some true] := by decide

/-- 95_test_vectors.md 2.5, column NE: the flag combinations 0000 to 1111 in the order Z N C V. -/
theorem test_b_ne :
    ((List.range 16).map fun k => (ran ((eight 0x54000041#32 []).setFlags
      (zncv (k / 8) (k / 4 % 2) (k / 2 % 2) (k % 2)))).map (fun t => t.pc == 0x400010#64)) =
      [some true, some true, some true, some true, some true, some true, some true, some true, some false, some false, some false, some false, some false, some false, some false, some false] := by decide

/-- 95_test_vectors.md 2.5, column HS: the flag combinations 0000 to 1111 in the order Z N C V. -/
theorem test_b_hs :
    ((List.range 16).map fun k => (ran ((eight 0x54000042#32 []).setFlags
      (zncv (k / 8) (k / 4 % 2) (k / 2 % 2) (k % 2)))).map (fun t => t.pc == 0x400010#64)) =
      [some false, some false, some true, some true, some false, some false, some true, some true, some false, some false, some true, some true, some false, some false, some true, some true] := by decide

/-- 95_test_vectors.md 2.5, column LO: the flag combinations 0000 to 1111 in the order Z N C V. -/
theorem test_b_lo :
    ((List.range 16).map fun k => (ran ((eight 0x54000043#32 []).setFlags
      (zncv (k / 8) (k / 4 % 2) (k / 2 % 2) (k % 2)))).map (fun t => t.pc == 0x400010#64)) =
      [some true, some true, some false, some false, some true, some true, some false, some false, some true, some true, some false, some false, some true, some true, some false, some false] := by decide

/-- 95_test_vectors.md 2.5, column MI: the flag combinations 0000 to 1111 in the order Z N C V. -/
theorem test_b_mi :
    ((List.range 16).map fun k => (ran ((eight 0x54000044#32 []).setFlags
      (zncv (k / 8) (k / 4 % 2) (k / 2 % 2) (k % 2)))).map (fun t => t.pc == 0x400010#64)) =
      [some false, some false, some false, some false, some true, some true, some true, some true, some false, some false, some false, some false, some true, some true, some true, some true] := by decide

/-- 95_test_vectors.md 2.5, column PL: the flag combinations 0000 to 1111 in the order Z N C V. -/
theorem test_b_pl :
    ((List.range 16).map fun k => (ran ((eight 0x54000045#32 []).setFlags
      (zncv (k / 8) (k / 4 % 2) (k / 2 % 2) (k % 2)))).map (fun t => t.pc == 0x400010#64)) =
      [some true, some true, some true, some true, some false, some false, some false, some false, some true, some true, some true, some true, some false, some false, some false, some false] := by decide

/-- 95_test_vectors.md 2.5, column VS: the flag combinations 0000 to 1111 in the order Z N C V. -/
theorem test_b_vs :
    ((List.range 16).map fun k => (ran ((eight 0x54000046#32 []).setFlags
      (zncv (k / 8) (k / 4 % 2) (k / 2 % 2) (k % 2)))).map (fun t => t.pc == 0x400010#64)) =
      [some false, some true, some false, some true, some false, some true, some false, some true, some false, some true, some false, some true, some false, some true, some false, some true] := by decide

/-- 95_test_vectors.md 2.5, column VC: the flag combinations 0000 to 1111 in the order Z N C V. -/
theorem test_b_vc :
    ((List.range 16).map fun k => (ran ((eight 0x54000047#32 []).setFlags
      (zncv (k / 8) (k / 4 % 2) (k / 2 % 2) (k % 2)))).map (fun t => t.pc == 0x400010#64)) =
      [some true, some false, some true, some false, some true, some false, some true, some false, some true, some false, some true, some false, some true, some false, some true, some false] := by decide

/-- 95_test_vectors.md 2.5, column HI: the flag combinations 0000 to 1111 in the order Z N C V. -/
theorem test_b_hi :
    ((List.range 16).map fun k => (ran ((eight 0x54000048#32 []).setFlags
      (zncv (k / 8) (k / 4 % 2) (k / 2 % 2) (k % 2)))).map (fun t => t.pc == 0x400010#64)) =
      [some false, some false, some true, some true, some false, some false, some true, some true, some false, some false, some false, some false, some false, some false, some false, some false] := by decide

/-- 95_test_vectors.md 2.5, column LS: the flag combinations 0000 to 1111 in the order Z N C V. -/
theorem test_b_ls :
    ((List.range 16).map fun k => (ran ((eight 0x54000049#32 []).setFlags
      (zncv (k / 8) (k / 4 % 2) (k / 2 % 2) (k % 2)))).map (fun t => t.pc == 0x400010#64)) =
      [some true, some true, some false, some false, some true, some true, some false, some false, some true, some true, some true, some true, some true, some true, some true, some true] := by decide

/-- 95_test_vectors.md 2.5, column GE: the flag combinations 0000 to 1111 in the order Z N C V. -/
theorem test_b_ge :
    ((List.range 16).map fun k => (ran ((eight 0x5400004A#32 []).setFlags
      (zncv (k / 8) (k / 4 % 2) (k / 2 % 2) (k % 2)))).map (fun t => t.pc == 0x400010#64)) =
      [some true, some false, some true, some false, some false, some true, some false, some true, some true, some false, some true, some false, some false, some true, some false, some true] := by decide

/-- 95_test_vectors.md 2.5, column LT: the flag combinations 0000 to 1111 in the order Z N C V. -/
theorem test_b_lt :
    ((List.range 16).map fun k => (ran ((eight 0x5400004B#32 []).setFlags
      (zncv (k / 8) (k / 4 % 2) (k / 2 % 2) (k % 2)))).map (fun t => t.pc == 0x400010#64)) =
      [some false, some true, some false, some true, some true, some false, some true, some false, some false, some true, some false, some true, some true, some false, some true, some false] := by decide

/-- 95_test_vectors.md 2.5, column GT: the flag combinations 0000 to 1111 in the order Z N C V. -/
theorem test_b_gt :
    ((List.range 16).map fun k => (ran ((eight 0x5400004C#32 []).setFlags
      (zncv (k / 8) (k / 4 % 2) (k / 2 % 2) (k % 2)))).map (fun t => t.pc == 0x400010#64)) =
      [some true, some false, some true, some false, some false, some true, some false, some true, some false, some false, some false, some false, some false, some false, some false, some false] := by decide

/-- 95_test_vectors.md 2.5, column LE: the flag combinations 0000 to 1111 in the order Z N C V. -/
theorem test_b_le :
    ((List.range 16).map fun k => (ran ((eight 0x5400004D#32 []).setFlags
      (zncv (k / 8) (k / 4 % 2) (k / 2 % 2) (k % 2)))).map (fun t => t.pc == 0x400010#64)) =
      [some false, some true, some false, some true, some true, some false, some true, some false, some true, some true, some true, some true, some true, some true, some true, some true] := by decide

/-- 95_test_vectors.md 2.5, column AL: the flag combinations 0000 to 1111 in the order Z N C V. -/
theorem test_b_al :
    ((List.range 16).map fun k => (ran ((eight 0x5400004E#32 []).setFlags
      (zncv (k / 8) (k / 4 % 2) (k / 2 % 2) (k % 2)))).map (fun t => t.pc == 0x400010#64)) =
      [some true, some true, some true, some true, some true, some true, some true, some true, some true, some true, some true, some true, some true, some true, some true, some true] := by decide

/-- 43_system.md R300: pc = 0x00400004 and nothing else changes. -/
theorem test_nop :
    (ran (eightAt 0 (plainSlot nopWord) [(1, 7)])).map (fun t => (t.pc, t.readReg 1, t.mem, t.trace)) =
      some (0x400004#64, 7#64, [], []) := by decide

/-! ### Steps, events, reset, replay -/

/-- 95_test_vectors.md 2.11: an Unknown word. -/
theorem test_unknown_word :
    (ran (eight 0#32 [])).map (fun t => (t.pc, t.trace)) =
      some (0x40000C#64, [⟨.unknownInstruction, 0x400008, .word 0⟩]) := by decide

/-- 95_test_vectors.md 2.11: a bad operand line and an unknown mnemonic line. -/
theorem test_asm_error_slots :
    [AsmError.invalidOperand, AsmError.unknownInstruction].map (fun e =>
      (ran (eightAt 2 ⟨0#32, false, some e⟩ [])).map (fun t => (t.pc, t.trace))) =
      [some (0x40000C#64, [⟨.invalidOperand, 0x400008, .none⟩]),
        some (0x40000C#64, [⟨.unknownInstruction, 0x400008, .none⟩])] := by decide

/-- 95_test_vectors.md 2.11: unresolved B.EQ with Z = 1 falls through. -/
theorem test_unresolved_beq :
    (ran ((eightUnres 0x54000000#32 []).setFlags (zncv 1 0 0 0))).map (fun t => (t.pc, t.trace)) =
      some (0x40000C#64, [⟨.unresolvedLabel, 0x400008, .none⟩]) := by decide

/-- R39, R42, R126: the snapshot of a taken branch has branchTaken = 1. -/
theorem test_snapshot_branch_taken :
    (ran (eight 0x14000003#32 [])).map (fun t => t.last) =
      some (some ⟨2, 0x14000003, { ctrlOf (.b 3) with branchTaken := true }⟩) := by decide

/-- R43: the step past the last slot halts; the pc is BASE + 4. -/
theorem test_halts_past_last_slot :
    (ran (one 0x91002BE1#32 [])).map (fun t => (t.pc, t.status)) =
      some (0x400004#64, .halted) := by decide

/-- R45 with the example parameters of D39. -/
theorem test_reset_values :
    (State.reset.readReg 28, State.reset.readReg 0, State.reset.pc, State.reset.status) =
      (0x7FFFFFFC#64, 0#64, 0x400000#64, Status.halted) := by decide

/-- 95_test_vectors.md 2.12, n = 1, on the first three slots of Program 2 of Part 3. -/
theorem test_jump_to_step :
    (nextOf ((State.reset.loadProgram [plainSlot 0x910017E0#32, plainSlot 0x8B1F03E1#32,
      plainSlot 0x8B000021#32]).jumpToStep 1)).map (fun t => (t.pc, t.readReg 0, t.status)) =
      some (0x400008#64, 5#64, .running) := by decide

/-- The interface's fetch: the very next step runs the placed word, from reset. -/
theorem test_with_fetch_word :
    (ran (State.reset.withFetchWord 32 0x91002BE1)).map (fun t => t.readReg 1) =
      some 10#64 := by decide

/-! ### The assembler (95_test_vectors.md 2.9, 2.10), on short texts -/

theorem test_asm_register_names :
    (Asm.assemble 0 "ADD X1, sp, lr").map (fun s => s.word) = [0x8B1E0381#32] := by decide +kernel
theorem test_asm_movz_shift :
    (Asm.assemble 0 "MOVZ X1, #0x1234, LSL #16").map (fun s => s.word) = [0xD2A24681#32] := by
  decide +kernel
theorem test_asm_stxr :
    (Asm.assemble 0 "STXR X2, X1, [X0]").map (fun s => s.word) = [0xC8020001#32] := by decide +kernel
theorem test_asm_cmpi :
    (Asm.assemble 0 "CMPI X1, #-1").map (fun s => s.word) = [0xF13FFC3F#32] := by decide +kernel
theorem test_asm_arity : Asm.assemble 0 "ADD X1, X2" = [Asm.errorSlot .invalidOperand] := by
  decide +kernel
theorem test_asm_mnemonic : Asm.assemble 0 "B.XX t" = [Asm.errorSlot .unknownInstruction] := by
  decide +kernel
theorem test_asm_range :
    Asm.assemble 0 "ADDI X1, X0, #2048" = [Asm.errorSlot .invalidOperand] := by decide +kernel
/-- 95_test_vectors.md 2.9: comments and labels take no slot; 2.10: a label on a line of its own
binds to the next slot, a prefix to its own. -/
theorem test_asm_labels :
    (Asm.assemble 0x400000 "s: ; c\nB l\nl: B s\nB n").map (fun s => (s.word, s.unresolved)) =
      [(0x14000001#32, false), (0x17FFFFFF#32, false), (0x14000000#32, true)] := by decide +kernel
/-- 95_test_vectors.md 2.10: resolve of an index in and out of bounds, and of the last label. -/
theorem test_resolve :
    ["0", "1", "t", "u"].map (fun l =>
      Asm.resolve 0x400000 l.toList (Asm.entries "NOP\nt:".toList)) =
      [some 0x400000, none, some 0x400004, none] := by decide +kernel

/-! ### Witnesses: the hypotheses of every statement that has some are met together -/

/-- Slot 2 of eight holds ADD X3, X1, X2, about to run. -/
def addState : State := eight 0x8B020023#32 [(1, 10), (2, 20)]

/-- The same with a reservation held for 0x2000, X0 pointing there and X1 = 6. -/
def exclState : State := { eight 0xC8020001#32 [(0, 0x2000), (1, 6)] with excl := ⟨true, 0x2000⟩ }

theorem witness_DecodeOfEncodeGivesTheInstructionBack :
    (Instr.addi 1 31 (-1)).wellFormed = true ∧ (Instr.stxr 31 1 0).wellFormed = true := by decide

theorem witness_EncodeOfDecodeKeepsEveryReadBit :
    decode 0x8B02FC23#32 = .ok (.add 3 1 2) ∧
    ((Instr.add 3 1 2).wellFormed = true ∧ encode (.add 3 1 2) = encode (.add 3 1 2)) :=
  ⟨rfl, rfl, rfl⟩

theorem witness_DecodeFollowsTheOpcodeMap :
    (opcodeRows.all fun r => r.pattern &&& r.mask == r.pattern) = true ∧
    decode 0x8B020023#32 = .ok (.add 3 1 2) := ⟨by decide, rfl⟩

/-- A word of each row of the four RowReads statements: the row's pattern itself. -/
theorem witness_RowReads :
    (∀ r ∈ opcodeRowsR, r.mask = 0xFFE00000#32 ∧ r.pattern &&& r.mask = r.pattern) ∧
    (∀ r ∈ opcodeRowsI, (r.mask = 0xFFC00000#32 ∨ r.mask = 0xFF800000#32) ∧
      r.pattern &&& r.mask = r.pattern) ∧
    (∀ r ∈ opcodeRowsD, r.mask = 0xFFE00C00#32 ∧ r.pattern &&& r.mask = r.pattern) ∧
    (∀ r ∈ opcodeRowsB, r.pattern &&& r.mask = r.pattern) := by decide

/-- The clause of the D format with op2 other than 00, for every row and each of 01, 10, 11. -/
theorem witness_DecodeReadsMemoryFormat_op2 :
    (opcodeRowsD.all fun r => [0x400#32, 0x800#32, 0xC00#32].all fun k =>
      (r.pattern ||| k) &&& 0xFFE00000#32 == r.pattern &&
      (r.pattern ||| k).extractLsb' 10 2 != 0) = true := by decide

theorem witness_UnknownWordsAreThoseOfNoRow :
    (0x5400004F#32).extractLsb' 24 8 = 0x54#8 ∧ 15 ≤ ((0x5400004F#32).extractLsb' 0 5).toNat ∧
    (0x5400005F#32).extractLsb' 24 8 = 0x54#8 ∧ 15 ≤ ((0x5400005F#32).extractLsb' 0 5).toNat ∧
    (0xD503201E#32).extractLsb' 21 11 = 0x6A8#11 ∧ 0xD503201E#32 ≠ 0xD503201F#32 := by decide

/-- Each kind of instruction with don't-care fields, all of them set in the second word. -/
theorem witness_DontCareBitsAreIgnored :
    [(0x8B020023#32, 0x8B02FC23#32, Instr.add 3 1 2), (0xD3601001#32, 0xD37F1001#32, .lsl 1 0 4),
      (0xD60003C0#32, 0xD61FFFDF#32, .br 30), (0xC8020001#32, 0xC802F001#32, .stxr 2 1 0)].all
      (fun p => (match decode p.1 with | .ok i => i == p.2.2 | .error _ => false) &&
        p.1 &&& ~~~(ignoredBits p.2.2) == p.2.1 &&& ~~~(ignoredBits p.2.2)) = true := by decide

theorem witness_BreakdownFieldsTileTheWord :
    decode 0xD2A24681#32 = .ok (.movz 1 1 0x1234) ∧ (Instr.movz 1 1 0x1234).format ≠ .none :=
  ⟨rfl, by decide⟩

theorem witness_FlagsChangeOnlyByFlagSettingInstructions :
    (ctrlOf (.subs 31 1 1)).flagWrite = true ∧ (ctrlOf (.add 3 1 2)).flagWrite = false ∧
    ∃ t, exec (.add 3 1 2) addState = .next t := ⟨rfl, rfl, _, rfl⟩

theorem witness_OnlyTheDestinationRegisterChanges :
    (∃ t, exec (.add 3 1 2) addState = .next t) ∧ (Instr.add 3 1 2).dest ≠ some 4 ∧
    (∃ t, exec (.cbz 0 2) addState = .next t) ∧ (Instr.cbz 0 2).dest ≠ some 0 :=
  ⟨⟨_, rfl⟩, by decide, ⟨_, rfl⟩, by decide⟩

theorem witness_RegistersNotReadDoNotMatter :
    (4 : Reg) ∉ (Instr.add 3 1 2).sources ∧ (Instr.add 3 1 2).dest ≠ some 4 ∧
    ∃ t, exec (.add 3 1 2) addState = .next t := ⟨by decide, by decide, _, rfl⟩

/-- The widths at their bounds: the last byte of an access of 8 and of 1, and an address next to
an access of 8 that crosses the top of the address space. -/
theorem witness_MemReadIsLittleEndian :
    ((8 = 1 ∨ 8 = 2 ∨ 8 = 4 ∨ 8 = 8) ∧ 7 < 8) ∧ ((1 = 1 ∨ 1 = 2 ∨ 1 = 4 ∨ 1 = 8) ∧ 0 < 1) := by
  decide

theorem witness_MemWriteChangesExactlyItsBytes :
    (8 = 1 ∨ 8 = 2 ∨ 8 = 4 ∨ 8 = 8) ∧ 7 < 8 ∧
    ∀ k < 8, (4 : Nat) ≠ ((0xFFFFFFFFFFFFFFFC#64).toNat + k) % 2 ^ 64 := by decide

theorem witness_StoreThenLoadReturnsTheValue :
    (2 : Reg) ≠ 31 ∧
    (∃ t u, exec (.stur 1 0 8) addState = .next t ∧ exec (.ldur 2 0 8) t = .next u) ∧
    (∃ t u, exec (.sturb 1 0 8) addState = .next t ∧ exec (.ldurb 2 0 8) t = .next u) ∧
    (∃ t u, exec (.sturh 1 0 8) addState = .next t ∧ exec (.ldurh 2 0 8) t = .next u) ∧
    (∃ t u, exec (.sturw 1 0 8) addState = .next t ∧ exec (.ldursw 2 0 8) t = .next u) :=
  ⟨by decide, ⟨_, _, rfl, rfl⟩, ⟨_, _, rfl, rfl⟩, ⟨_, _, rfl, rfl⟩, ⟨_, _, rfl, rfl⟩⟩

/-- A narrower read; then, with an 8-byte write at 2^64 − 4, a later 4-byte write at 2^64 − 2 and an
8-byte read at 2^64 − 2: byte 3 of the read lies in the later write (its last byte), byte 5 in the
earlier write only (its last byte), and byte 6 in neither. -/
theorem witness_MixedWidthAccessesSeeBytes :
    ((8 = 1 ∨ 8 = 2 ∨ 8 = 4 ∨ 8 = 8) ∧ (4 = 1 ∨ 4 = 2 ∨ 4 = 4 ∨ 4 = 8) ∧ 4 ≤ 8) ∧
    (let a := (0xFFFFFFFFFFFFFFFC#64).toNat; let b := (0xFFFFFFFFFFFFFFFE#64).toNat; let c := b
     (3 < 8 ∧ 3 < 4 ∧ (c + 3) % 2 ^ 64 = (b + 3) % 2 ^ 64) ∧
     (5 < 8 ∧ 7 < 8 ∧ (c + 5) % 2 ^ 64 = (a + 7) % 2 ^ 64 ∧
       ∀ i < 4, (c + 5) % 2 ^ 64 ≠ (b + i) % 2 ^ 64) ∧
     (6 < 8 ∧ (∀ i < 4, (c + 6) % 2 ^ 64 ≠ (b + i) % 2 ^ 64) ∧
       ∀ j < 8, (c + 6) % 2 ^ 64 ≠ (a + j) % 2 ^ 64)) := by
  decide

theorem witness_MemoryKeepsItsCanonicalForm :
    Memory.wf [(0, 5), (0xFFFFFFFFFFFFFFFF, 1)] = true ∧
    ∀ a, readByte [(0, 5), (0xFFFFFFFFFFFFFFFF, 1)] a =
      readByte [(0, 5), (0xFFFFFFFFFFFFFFFF, 1)] a := ⟨by decide, fun _ => rfl⟩

theorem witness_StoreExclusiveResult :
    (exclState.excl.valid = true ∧ exclState.excl.addr = exclState.readReg 0) ∧
    ¬ (addState.excl.valid = true ∧ addState.excl.addr = addState.readReg 0) := by decide

/-- A skipped slot, a nonexclusive store, an STXR at another address. -/
theorem witness_ReservationEndsOnlyByStxrOrReset :
    ((Instr.stur 1 0 0).isExclusive = false ∧ ∃ t, exec (.stur 1 0 0) exclState = .next t) ∧
    (∃ t, exec (.stxr 2 1 0) exclState = .next t) ∧
    (∃ t, (eight 0#32 []).issue = .skip t) ∧
    exclState.excl.addr ≠ exclState.readReg 1 ∧ ∃ t, exec (.stxr 2 0 1) exclState = .next t :=
  ⟨⟨rfl, _, rfl⟩, ⟨_, rfl⟩, ⟨_, rfl⟩, by decide, _, rfl⟩

/-- LDXR X1, [X0]; ADDI X1, X1, #1 and a store to the reserved address; STXR X2, X1, [X0]. -/
theorem witness_LoadExclusiveThenStoreExclusiveSucceeds :
    ∃ s1 s2 t, exec (.ldxr 1 0 0) exclState = .next s1 ∧
      (∀ i ∈ [Instr.addi 1 1 1, .stur 3 0 0], i.isExclusive = false) ∧
      execAll [.addi 1 1 1, .stur 3 0 0] s1 = .next s2 ∧ s2.readReg 0 = exclState.ea 0 0 ∧
      exec (.stxr 2 1 0) s2 = .next t :=
  ⟨_, _, _, rfl, by decide, rfl, by decide, rfl⟩

/-- A store, an STXR that matches, one that does not, and an instruction that stores nothing. -/
theorem witness_OnlyStoresChangeMemory :
    (Instr.sturb 1 0 255).storesTo exclState = some (0x20FF, 1) ∧
    (Instr.stxr 2 1 0).storesTo exclState = some (0x2000, 8) ∧
    (Instr.stxr 2 1 0).storesTo addState = none ∧ (Instr.add 3 1 2).storesTo addState = none ∧
    (∃ t, exec (.sturb 1 0 255) exclState = .next t) ∧ (∃ t, exec (.stxr 2 1 0) exclState = .next t) ∧
    ∃ t, exec (.stxr 2 1 0) addState = .next t :=
  ⟨by decide, by decide, by decide, by decide, ⟨_, rfl⟩, ⟨_, rfl⟩, _, rfl⟩

/-- The four cases of a label branch are met: the slot unresolved; the bit clear with the target
the first and the last slot (valid), one past the last and one below the first (invalid). The
taken and the untaken branch differ in `take` alone, which the next witnesses give. -/
theorem witness_LabelBranchMeans_target26 :
    (eightUnres 0x14000000#32 []).unresolvedHere = true ∧
    (eight 0x14000000#32 []).unresolvedHere = false ∧
    [(-2 : BitVec 26), 5, 6, -3].map (fun off =>
      (eight 0x14000000#32 []).validTarget ((eight 0x14000000#32 []).target26 off)) =
      [true, true, false, false] := by decide

theorem witness_LabelBranchMeans_target19 :
    (eightUnres 0xB4000000#32 []).unresolvedHere = true ∧
    (eight 0xB4000000#32 []).unresolvedHere = false ∧
    [(-2 : BitVec 19), 5, 6, -3].map (fun off =>
      (eight 0xB4000000#32 []).validTarget ((eight 0xB4000000#32 []).target19 off)) =
      [true, true, false, false] := by decide

/-- BR: the first and the last slot, one past the last, a misaligned address, address 0. -/
theorem witness_UnconditionalBranchMeanings_br :
    [0x400000#64, 0x40001C, 0x400020, 0x400006, 0].map (fun a =>
      let s := eight 0xD60003C0#32 [(30, a)]
      s.validTarget (s.readReg 30)) = [true, true, false, false, false] := by decide

/-- CBZ and CBNZ, taken and not taken. -/
theorem witness_CompareBranchMeanings :
    (eight 0xB4000000#32 []).readReg 0 = 0 ∧ ¬ (eight 0xB4000000#32 [(0, 1)]).readReg 0 = 0 := by
  decide

/-- Every condition holds of some flags, and every one but AL fails of some. -/
theorem witness_ConditionalBranchMeanings :
    [Cond.eq, .ne, .hs, .lo, .mi, .pl, .vs, .vc, .hi, .ls, .ge, .lt, .gt, .le, .al].all (fun c =>
      [zncv 0 0 0 0, zncv 1 0 1 0, zncv 0 1 1 0, zncv 0 0 0 1].any (fun f => condHolds c f) &&
      (c == .al || [zncv 0 0 0 0, zncv 1 0 1 0, zncv 0 1 1 0, zncv 0 0 0 1].any
        (fun f => !condHolds c f))) = true := by decide

theorem witness_UnresolvedBranchesFallThrough :
    (Instr.bl 0).labelTarget? (eightUnres 0x94000000#32 []) = some 0x400008 ∧
    (eightUnres 0x94000000#32 []).unresolvedHere = true ∧
    (Instr.cbnz 31 4).labelTarget? (eight 0xB500009F#32 []) = some 0x400018 ∧
    (eight 0xB500009F#32 []).unresolvedHere = false ∧
    (Instr.cbnz 31 4).branchCondition (eight 0xB500009F#32 []) = false := by decide

theorem witness_StepRunsTheDecodedInstruction :
    addState.status = .running ∧ addState.slotHere? = some (plainSlot 0x8B020023#32) ∧
    (plainSlot 0x8B020023#32).asmError = none ∧ decode 0x8B020023#32 = .ok (.add 3 1 2) ∧
    ∃ u, exec (.add 3 1 2) { addState with
      last := some ⟨(addState.pc - addState.base).toNat / 4, 0x8B020023#32, ctrlOf (.add 3 1 2)⟩ } =
      .next u := ⟨by decide, by decide, rfl, rfl, _, rfl⟩

theorem witness_StoppedRunsStay :
    State.reset.status ≠ .running ∧ 0 < addState.imem.length ∧
    0 < [plainSlot nopWord].length := by decide

theorem witness_UnknownWordsActAsNop :
    (eight 0#32 []).status = .running ∧ (eight 0#32 []).slotHere? = some (plainSlot 0#32) ∧
    (plainSlot 0#32).asmError = none ∧ decode 0#32 = .error .opcodeUnused :=
  ⟨by decide, by decide, rfl, rfl⟩

/-- The last slot of a program (the step halts) and a middle one, each with each error. -/
theorem witness_SlotsWithAssemblerErrorsAreSkipped :
    [(2, AsmError.unknownInstruction), (7, .unknownInstruction), (2, .invalidOperand),
      (7, .invalidOperand)].all (fun p =>
        let s := eightAt p.1 ⟨0#32, false, some p.2⟩ []
        s.status == .running && s.slotHere? == some ⟨0#32, false, some p.2⟩) = true := by decide

/-- R310: UnknownInstruction is recorded with the pc and the word for both its causes, InvalidOperand
with the pc, InvalidBranchTarget with the pc and the target. -/
theorem test_event_records :
    [eight 0x1234#32 [], eightAt 2 ⟨0#32, false, some .unknownInstruction⟩ [],
      eightAt 2 ⟨0#32, false, some .invalidOperand⟩ [], eight 0x14000006#32 []].map (fun s =>
        (ran s).map fun t => t.view.events) =
      [some [⟨1, "UnknownInstruction", some 0x400008, some 0x1234, none⟩],
        some [⟨1, "UnknownInstruction", some 0x400008, some 0, none⟩],
        some [⟨2, "InvalidOperand", some 0x400008, none, none⟩],
        some [⟨4, "InvalidBranchTarget", some 0x400008, none, some 0x400020⟩]] := by decide

/-- The four clauses: an assembler error, an Unknown word, an unresolved label branch, and a
resolved one. -/
theorem witness_OneEventPerStepInOrder :
    [eightAt 2 ⟨0#32, false, some .invalidOperand⟩ [], eight 0#32 [], eightUnres 0x14000000#32 [],
      eight 0x14000006#32 []].all (fun s =>
        s.status == .running && s.slotHere?.isSome && (ran s).isSome) = true ∧
    decode 0#32 = .error .opcodeUnused ∧ decode 0x14000000#32 = .ok (.b 0) ∧
    (Instr.b 0).labelTarget? (eightUnres 0x14000000#32 []) = some 0x400008 ∧
    decode 0x14000006#32 = .ok (.b 6) ∧ (plainSlot 0x14000006#32).unresolved = false :=
  ⟨by decide, rfl, rfl, by decide, rfl, rfl⟩

theorem witness_FatalFaultIsPrecise :
    (eight 0x94000009#32 []).status = .running ∧
    (ran (eight 0x94000009#32 [])).map (fun t => (t.status, t.trace)) =
      some (.faulted, (eight 0x94000009#32 []).trace ++
        [⟨.invalidBranchTarget, (eight 0x94000009#32 []).pc, .target 0x40002C⟩]) := by decide

/-- A step that adds an event to the trace. -/
theorem witness_MemoryWidthErrorNeverOccurs :
    (ran (eight 0#32 [])).map (fun t => t.trace.length) = some 1 := by decide

/-- A store into the program's own addresses. -/
theorem witness_TheProgramIsImmutable :
    (ran (eight 0xF8000001#32 [(0, 0x400000), (1, 0x1234)])).map (fun t => readByte t.mem 0x400000) =
      some 0x34#8 := by decide

/-- A skipped slot, no branch, a branch taken, one with a false condition and one with a bad
target. -/
theorem witness_SnapshotIsOfTheExecutedSlot :
    [eight 0#32 [], addState, eight 0x14000003#32 [], eight 0xB500009F#32 [],
      eight 0x14000006#32 []].all (fun s =>
      s.status == .running && s.slotHere?.isSome && (ran s).isSome) = true ∧
    (Instr.add 3 1 2).takenTo? addState = none ∧
    (Instr.b 3).takenTo? (eight 0x14000003#32 []) = some 0x400014 ∧
    (eight 0x14000003#32 []).validTarget 0x400014 = true ∧
    (Instr.cbnz 31 4).takenTo? (eight 0xB500009F#32 []) = none ∧
    (Instr.b 6).takenTo? (eight 0x14000006#32 []) = some 0x400020 ∧
    (eight 0x14000006#32 []).validTarget 0x400020 = false := by decide

/-- R42: branchTaken is 1 after the taken branch and 0 in the four other steps. -/
theorem test_step_branchTaken :
    [eight 0#32 [], addState, eight 0x14000003#32 [], eight 0xB500009F#32 [],
      eight 0x14000006#32 []].map (fun s => (ran s).bind fun t => t.last.map fun l =>
        l.ctrl.branchTaken) =
      [some false, some false, some true, some false, some false] := by decide

/-- R10 at its bounds: one slot at the last word of the address space, and no slot. -/
theorem witness_ResetStateMeetsTheInvariant :
    loadable 0xFFFFFFFFFFFFFFFC [plainSlot nopWord] ∧ loadable 0 [] :=
  ⟨show programFits _ _ = true by decide, show programFits _ _ = true by decide⟩

/-- Two slots: ADDI X1, XZR, #10 and B +2, which faults; and the same with NOP in place of B. -/
def twoSlots (w : InstrWord) : State := State.reset.loadProgram [plainSlot 0x91002BE1#32, plainSlot w]

theorem inv_of_checks {s : State} (h1 : programFits s.base s.imem.length = true)
    (h3 : s.mem.wf = true) (i : Nat) (h4 : i ≤ s.imem.length)
    (h5 : s.pc = s.base + BitVec.ofNat 64 (4 * i))
    (h6 : s.status ≠ .halted → s.validTarget s.pc = true)
    (h7 : s.status = .halted → s.pc = s.endAddr)
    (h8 : ∀ e ∈ s.trace, e.kind ≠ .memoryWidthError) (h9 : s.last = none) : s.Inv :=
  ⟨h1, h3, ⟨i, h4, h5⟩, h6, h7, h8, fun l h => by rw [h9] at h; cases h⟩

/-- One slot at the last word of the address space, so that BASE + 4·N is 2^64. -/
def topSlot (w : InstrWord) : State :=
  { State.reset with base := 0xFFFFFFFFFFFFFFFC }.loadProgram [plainSlot w]

/-- The invariant holds at the entry, at the last slot, in a halted run, and in a run halted at
2^64. -/
theorem witness_Inv :
    (twoSlots 0x14000002#32).Inv ∧ State.Inv { twoSlots nopWord with pc := 0x400004 } ∧
    State.Inv { twoSlots nopWord with pc := 0x400008, status := .halted } ∧
    State.Inv { topSlot nopWord with pc := 0, status := .halted } :=
  ⟨inv_of_checks (by decide) (by decide) 0 (by decide) (by decide) (by decide) (by decide)
      (by decide) rfl,
    inv_of_checks (by decide) (by decide) 1 (by decide) (by decide) (by decide) (by decide)
      (by decide) rfl,
    inv_of_checks (by decide) (by decide) 2 (by decide) (by decide) (by decide) (by decide)
      (by decide) rfl,
    inv_of_checks (by decide) (by decide) 1 (by decide) (by decide) (by decide) (by decide)
      (by decide) rfl⟩

/-- R43 at the top of the address space: sequential advance past the last slot halts; a taken branch
to that slot does not; R131, R132: a branch to a label after it is encoded and faults when run. -/
theorem test_end_at_2_64 :
    (ran (topSlot nopWord)).map (fun t => t.status) = some .halted ∧
    (ran (topSlot 0x14000000#32)).map (fun t => t.status) = some .running ∧
    (ran (topSlot 0x14000001#32)).map (fun t => (t.status, t.pc)) =
      some (.faulted, 0xFFFFFFFFFFFFFFFC) := by decide

theorem test_asm_last_label_at_2_64 :
    (Asm.assemble 0xFFFFFFFFFFFFFFFC "B t\nt:").map (fun s => (s.word, s.unresolved, s.asmError)) =
      [(0x14000001#32, false, none)] := by decide +kernel

/-- From those states: a step that goes on, one that halts the run, and one that changes nothing. -/
theorem witness_InvariantIsKeptByEveryStep :
    [twoSlots 0x14000002#32, { twoSlots nopWord with pc := 0x400004 },
      { twoSlots nopWord with pc := 0x400008, status := .halted }].map
      (fun s => (ran s).map fun t => t.status) =
      [some .running, some .halted, some .halted] := by decide

theorem witness_PcStaysAlignedInTheProgram :
    (twoSlots nopWord).status = .running ∧ ∃ t, step (twoSlots nopWord) = .next t :=
  ⟨by decide, _, rfl⟩

theorem witness_RunsHaltExactlyPastTheLastSlot :
    (twoSlots nopWord).status = .running ∧
    ({ twoSlots nopWord with pc := 0x400004 } : State).status = .running := by decide

theorem witness_ReplayIsDeterministic :
    (nextOf ((twoSlots nopWord).jumpToStep 0)).map (fun t => t.status) = some .running ∧
    (nextOf ((twoSlots nopWord).jumpToStep 1)).map (fun t => t.status) = some .halted := by decide

/-- The offsets at the bounds of the two fields: the least, the greatest, and one beyond each. -/
theorem witness_ResolvedBranchesReachTheirLabel :
    ([0x08000000#64, 0x17FFFFFC, 0x07FFFFFC, 0x18000000].map fun t =>
      Asm.BranchForm.b.fits (Asm.wordOffset 0x10000000 t)) = [true, true, false, false] ∧
    ([0x0FF00000#64, 0x100FFFFC, 0x0FEFFFFC, 0x10100000].map fun t =>
      (Asm.BranchForm.cbz 0).fits (Asm.wordOffset 0x10000000 t)) = [true, true, false, false] ∧
    (0x10000000#64).toNat % 4 = (0x17FFFFFC#64).toNat % 4 ∧
    Asm.BranchForm.b.fits (Asm.wordOffset 0xFFFFFFFFFFFFFFF8 0) = true := by decide

theorem witness_AssembledSlotsAreWellFormed :
    (Asm.assemble 0x400000 "NOP\nB n\nADD X1").map (fun s => (s.unresolved, s.asmError)) =
      [(false, none), (true, none), (false, some .invalidOperand)] := by decide +kernel

end Sys2Proof.Tests
end

section
/-! Register read after write (10_state.md R14, R32). -/

namespace Sys2Proof.Proofs

open Sys2Proof Sys2Proof.Machine

/-- The three cases of R14 and R32 in the order register 31, the register written, any other. -/
theorem readReg_writeReg_cases (s : State) (i j : Reg) (v : Word) :
    (s.writeReg i v).readReg j = if j = 31 then 0 else if j = i then v else s.readReg j := by
  by_cases hj : j = 31
  · subst hj
    rw [if_pos rfl]
    exact State.readReg_xzr _
  · rw [if_neg hj]
    by_cases hi : j = i
    · subst hi
      rw [if_pos rfl]
      exact State.readReg_writeReg_same s hj v
    · rw [if_neg hi]
      exact State.readReg_writeReg_other s hi v

/-- Settles O22, from the register laws of the state. -/
theorem registerReadAfterWrite : Obligations.RegisterReadAfterWrite :=
  ⟨readReg_writeReg_cases, State.readReg_xzr, State.writeReg_xzr⟩

end Sys2Proof.Proofs
end

section
/-! The run around an instruction (10_state.md R42, R43): one inversion lemma for a step of a Running
state, and where the pc stands among the slots. -/

namespace Sys2Proof.Proofs

open Sys2Proof Sys2Proof.Machine

/-! ### What a change of state keeps -/

theorem validTarget_of_sameProgram {s t : State} (h : SameProgram s t) (a : Word) :
    t.validTarget a = s.validTarget a := by
  simp [State.validTarget, h.imem, h.base]

theorem endAddr_of_sameProgram {s t : State} (h : SameProgram s t) : t.endAddr = s.endAddr := by
  simp [State.endAddr, h.imem, h.base]

theorem sameProgram_retire {s u : State} (h : SameProgram s u) : SameProgram s u.retire :=
  ⟨by simp [h.imem], by simp [h.base], by simp [h.spInit]⟩

/-- STXR's store, if it makes one, keeps the canonical form. -/
theorem storeExclusive_mem_wf {s : State} (rs rt : Reg) (ea : Word) (h : s.mem.wf = true) :
    (s.storeExclusive rs rt ea).mem.wf = true := by
  unfold State.storeExclusive
  split
  · simpa using memWrite_wf _ _ _ h
  · simpa using h

/-- No instruction leaves the canonical form of memory (log 11). -/
theorem exec_mem_wf {i : Instr} {s t : State} (h : exec i s = .next t) (hm : s.mem.wf = true) :
    t.mem.wf = true := by
  rcases exec_shape h with h | h | h | h | h | h | h | h | h | h <;>
    rename t = _ => eq <;> subst eq
  case result | resultFlags | flags | loadExclusive | nop => simpa using hm
  case store => simpa using memWrite_wf _ _ _ hm
  case storeExclusive => simpa using storeExclusive_mem_wf _ _ _ hm
  case branch => rwa [State.labelBranch_keeps State.mem] <;> rfl
  case branchLink => rwa [State.labelBranch_keeps State.mem] <;> simp [State.fallThroughUnresolved]
  case branchReg => rwa [State.taken_keeps State.mem] <;> rfl

/-! ### A step of a Running state -/

/-- Where a Running step leaves the machine before the test for the end of the run (R42): on to the
next slot, at a branch's valid target, or Faulted with the pc kept. -/
inductive Moves (s u : State) : Prop where
  | on (pc : u.pc = s.pc + 4#64) (status : u.status = .running) (took : u.tookBranch = false)
  | jump (valid : s.validTarget u.pc = true) (status : u.status = .running)
      (took : u.tookBranch = true)
  | fault (pc : u.pc = s.pc) (status : u.status = .faulted) (took : u.tookBranch = false)

/-- The trace of `u` is that of `s`, with at most one event more, which is no MemoryWidthError. -/
def AtMostOneEvent (s u : State) : Prop :=
  u.trace = s.trace ∨
    ∃ e : Event, e.kind ≠ .memoryWidthError ∧ u.trace = s.trace ++ [e]

/-- `u` is the state in which the skip of slot `sl` or its instruction leaves the Running `s`, before
the test for the end of the run (R42). -/
structure Leaves (s : State) (sl : Slot) (u : State) : Prop where
  issue   : s.issue = .skip u ∨ ∃ i v, s.issue = .run i v ∧ exec i v = .next u
  program : SameProgram s u
  mem     : s.mem.wf = true → u.mem.wf = true
  trace   : AtMostOneEvent s u
  last    : ∃ c, u.last = some ⟨s.index, sl.word, c⟩
  moves   : Moves s u

theorem asmErrorKind_ne_memoryWidthError (e : AsmError) : asmErrorKind e ≠ .memoryWidthError := by
  cases e <;> decide

/-- The control part of an instruction's effect, from the state with the snapshot taken. -/
theorem moves_of_control {s u : State} {sl : Slot} {i : Instr}
    (hs : s.status = .running) (h : Control (s.snapshot sl.word (ctrlOf i)) u) :
    AtMostOneEvent s u ∧ (∃ c, u.last = some ⟨s.index, sl.word, c⟩) ∧ Moves s u := by
  rcases h with ⟨pc, status, trace, last⟩ | ⟨valid, status, trace, last⟩ | ⟨a, _, rfl⟩ | ⟨_, rfl⟩
  · exact ⟨.inl trace, ⟨_, last⟩, .on pc (status.trans hs) (by simp [State.tookBranch, last])⟩
  · exact ⟨.inl trace, ⟨_, last⟩, .jump valid (status.trans hs) (by simp [State.tookBranch, last])⟩
  · exact ⟨.inr ⟨_, by simp, rfl⟩, ⟨_, rfl⟩, .fault rfl rfl (ctrlOf_branchTaken i)⟩
  · exact ⟨.inr ⟨_, by simp, rfl⟩, ⟨_, rfl⟩, .on rfl hs (ctrlOf_branchTaken i)⟩

section
variable {s : State} {sl : Slot} (hs : s.status = .running) (hsl : s.slotHere? = some sl)
include hs hsl

theorem leaves_skipAsmError {e : AsmError} (he : sl.asmError = some e) :
    Leaves s sl (s.skipAsmError sl e) where
  issue := .inl (by simp [State.issue, State.issueSlot, hs, hsl, he])
  program := ⟨rfl, rfl, rfl⟩
  mem h := h
  trace := .inr ⟨_, asmErrorKind_ne_memoryWidthError e, rfl⟩
  last := ⟨_, rfl⟩
  moves := .on rfl hs rfl

theorem leaves_skipUnknown {e : UnknownWord} (he : sl.asmError = none)
    (hd : decode sl.word = .error e) : Leaves s sl (s.skipUnknown sl) where
  issue := .inl (by simp [State.issue, State.issueSlot, hs, hsl, he, hd])
  program := ⟨rfl, rfl, rfl⟩
  mem h := h
  trace := .inr ⟨_, by simp, rfl⟩
  last := ⟨_, rfl⟩
  moves := .on rfl hs rfl

theorem leaves_exec {i : Instr} {u : State} (he : sl.asmError = none) (hd : decode sl.word = .ok i)
    (hu : exec i (s.snapshot sl.word (ctrlOf i)) = .next u) : Leaves s sl u := by
  obtain ⟨trace, last, moves⟩ := moves_of_control hs (exec_control hu)
  have program : SameProgram s u := ⟨(exec_sameProgram hu).imem, (exec_sameProgram hu).base,
    (exec_sameProgram hu).spInit⟩
  exact { issue := .inr ⟨i, _, by simp [State.issue, State.issueSlot, hs, hsl, he, hd], hu⟩
          program, mem := fun hm => exec_mem_wf hu hm, trace, last, moves }

end

/-- A step of a Running state runs or skips the slot at the pc, then tests for the end of the run. -/
theorem step_running {s t : State} (hs : s.status = .running) (h : step s = .next t) :
    ∃ sl u, s.slotHere? = some sl ∧ Leaves s sl u ∧ t = u.retire := by
  rcases step_shape h with ⟨hn, _⟩ | ⟨sl, e, _, hsl, he, eq⟩ | ⟨sl, e, _, hsl, he, hd, eq⟩ |
    ⟨sl, i, u, _, hsl, he, hd, hu, eq⟩
  · exact absurd hs hn
  · exact ⟨sl, _, hsl, leaves_skipAsmError hs hsl he, eq⟩
  · exact ⟨sl, _, hsl, leaves_skipUnknown hs hsl he hd, eq⟩
  · exact ⟨sl, u, hsl, leaves_exec hs hsl he hd hu, eq⟩

/-- A step of a state that is not Running answers that state (R38). -/
theorem step_of_not_running {s : State} (hs : s.status ≠ .running) : step s = .next s := by
  simp [step, State.issue, hs]

/-- Where a Running step ends: the three cases of `Moves` after the test for the end of the run. -/
inductive Arrives (s t : State) : Prop where
  | halted (pc : t.pc = s.pc + 4#64) (atEnd : s.pc + 4#64 = s.endAddr) (status : t.status = .halted)
      (took : t.tookBranch = false)
  | on (pc : t.pc = s.pc + 4#64) (notEnd : s.pc + 4#64 ≠ s.endAddr) (status : t.status = .running)
      (took : t.tookBranch = false)
  | jump (valid : s.validTarget t.pc = true) (status : t.status = .running)
      (took : t.tookBranch = true)
  | fault (pc : t.pc = s.pc) (status : t.status = .faulted) (took : t.tookBranch = false)

theorem Moves.retire {s u : State} (h : Moves s u) (hp : SameProgram s u) : Arrives s u.retire := by
  rcases h with ⟨pc, status, took⟩ | ⟨valid, status, took⟩ | ⟨pc, status, took⟩
  · have hst := State.retire_status_sequential status took
    rw [pc, endAddr_of_sameProgram hp] at hst
    split at hst
    · exact .halted (by simpa using pc) ‹_› hst (by simpa using took)
    · exact .on (by simpa using pc) ‹_› hst (by simpa using took)
  · rw [State.retire_of_tookBranch took]
    exact .jump valid status took
  · exact .fault (by simpa using pc) (by simp [State.retire_status, status]) (by simpa using took)

/-! ### The pc among the slots -/

/-- R10's constraint in numbers. -/
theorem programFits_iff {base : Word} {n : Nat} :
    programFits base n = true ↔ base.toNat % 4 = 0 ∧ base.toNat + 4 * n ≤ 2 ^ 64 := by
  simp [programFits]

theorem toNat_add_four (a : Word) : (a + 4#64).toNat = (a.toNat + 4) % 2 ^ 64 :=
  BitVec.toNat_add a 4#64

theorem toNat_endAddr (s : State) :
    s.endAddr.toNat = (s.base.toNat + 4 * s.imem.length) % 2 ^ 64 := by
  simp [State.endAddr]

/-- A pc that names a slot, as a number. -/
theorem toNat_pc_of_validTarget {s : State} (h : s.validTarget s.pc = true) :
    s.index < s.imem.length ∧ s.pc.toNat = s.base.toNat + 4 * s.index := by
  obtain ⟨i, hi, e⟩ := (s.validTarget_iff s.pc).mp h
  rw [State.index_of_pc e]
  exact ⟨hi, e⟩

/-- Sequential advance reaches the end address from the last slot only (R43), also where the end
address is 2^64 (log 6). -/
theorem advance_eq_endAddr_iff {s : State} (hf : programFits s.base s.imem.length = true)
    (hv : s.validTarget s.pc = true) :
    s.pc + 4#64 = s.endAddr ↔ s.index + 1 = s.imem.length := by
  obtain ⟨hi, hpc⟩ := toNat_pc_of_validTarget hv
  obtain ⟨_, hle⟩ := programFits_iff.mp hf
  rw [← BitVec.toNat_inj, toNat_endAddr, toNat_add_four, hpc]
  omega

/-- Sequential advance from a slot that is not the last names the next slot. -/
theorem validTarget_advance {s : State} (hf : programFits s.base s.imem.length = true)
    (hv : s.validTarget s.pc = true) (hne : s.pc + 4#64 ≠ s.endAddr) :
    s.validTarget (s.pc + 4#64) = true := by
  obtain ⟨hi, hpc⟩ := toNat_pc_of_validTarget hv
  obtain ⟨_, hle⟩ := programFits_iff.mp hf
  have hlast : s.index + 1 ≠ s.imem.length := fun e => hne ((advance_eq_endAddr_iff hf hv).mpr e)
  refine (s.validTarget_iff _).mpr ⟨s.index + 1, by omega, ?_⟩
  rw [toNat_add_four, hpc]
  omega

/-- A valid target is BASE + 4·i as the pc holds it. -/
theorem eq_base_add_of_validTarget {s : State} {a : Word} (h : s.validTarget a = true) :
    ∃ i ≤ s.imem.length, a = s.base + BitVec.ofNat 64 (4 * i) := by
  obtain ⟨i, hi, e⟩ := (s.validTarget_iff a).mp h
  refine ⟨i, hi.le, BitVec.eq_of_toNat_eq ?_⟩
  have := a.isLt
  simp only [BitVec.toNat_add, BitVec.toNat_ofNat]
  omega

end Sys2Proof.Proofs
end

section
/-! The invariant of a run, where runs go and halt, what a step leaves in the snapshot, and reset
(10_state.md R34, R38, R39, R42, R43, R45). -/

namespace Sys2Proof.Proofs

open Sys2Proof Sys2Proof.Machine

/-! ### The invariant of a run -/

/-- A state made by reset meets the invariant for every program that fits (R45, R10). -/
theorem initial_inv {base : Word} {imem : List Slot} (spInit : Word)
    (h : programFits base imem.length = true) : (State.initial base spInit imem).Inv where
  fits := h
  mem := rfl
  pcIn := ⟨0, Nat.zero_le _, by simp [State.initial]⟩
  atSlot hs := by
    have hn : 0 < imem.length := Nat.pos_of_ne_zero fun e => hs (if_pos e)
    exact (State.validTarget_iff _ _).mpr ⟨0, hn, rfl⟩
  atEnd hs := by
    have hn : imem.length = 0 := by
      by_contra hne
      simp [State.initial, hne] at hs
    simp [State.initial, State.endAddr, hn]
  noWidth _ he := nomatch he
  snapshot _ hl := nomatch hl

/-- Settles O53, by the invariant of every state that reset makes. -/
theorem resetStateMeetsTheInvariant : Obligations.ResetStateMeetsTheInvariant :=
  ⟨initial_inv _ (by decide), fun s _ h => initial_inv s.spInit h,
    fun s h => initial_inv s.spInit h.fits⟩

/-- The pc clauses of the invariant, from where a step of a state that meets it ends. -/
theorem pc_inv_of_arrives {s t : State} (hi : s.Inv) (hv : s.validTarget s.pc = true)
    (hp : SameProgram s t) (h : Arrives s t) :
    (t.status ≠ .halted → t.validTarget t.pc = true) ∧ (t.status = .halted → t.pc = t.endAddr) := by
  rw [validTarget_of_sameProgram hp, endAddr_of_sameProgram hp]
  rcases h with ⟨pc, atEnd, status, _⟩ | ⟨pc, notEnd, status, _⟩ | ⟨valid, status, _⟩ |
    ⟨pc, status, _⟩
  · simp [status, pc, atEnd]
  · simp [status, pc, validTarget_advance hi.fits hv notEnd]
  · simp [status, valid]
  · simp [status, pc, hv]

/-- A pc that names a slot, or stands one past the last slot, is BASE + 4·i with i ≤ N (R34). -/
theorem pcIn_of_slot_or_end {s : State}
    (h : (s.status ≠ .halted → s.validTarget s.pc = true) ∧ (s.status = .halted → s.pc = s.endAddr)) :
    ∃ i ≤ s.imem.length, s.pc = s.base + BitVec.ofNat 64 (4 * i) := by
  by_cases hs : s.status = .halted
  · exact ⟨_, le_refl _, h.2 hs⟩
  · exact eq_base_add_of_validTarget (h.1 hs)

/-- The trace clause of the invariant, over at most one event. -/
theorem noWidth_of_atMostOneEvent {s u : State} (h : AtMostOneEvent s u)
    (hs : ∀ e ∈ s.trace, e.kind ≠ .memoryWidthError) :
    ∀ e ∈ u.trace, e.kind ≠ .memoryWidthError := by
  intro e he
  rcases h with h | ⟨f, hf, h⟩ <;> rw [h] at he
  · exact hs e he
  · rcases List.mem_append.mp he with he | he
    · exact hs e he
    · rwa [List.mem_singleton.mp he]

/-- A step of a Running state keeps the invariant. -/
theorem step_running_inv {s t : State} (hi : s.Inv) (hs : s.status = .running)
    (h : step s = .next t) : t.Inv := by
  obtain ⟨sl, u, hsl, hu, rfl⟩ := step_running hs h
  obtain ⟨hv, hslot⟩ := State.slotHere?_eq_some hsl
  obtain ⟨c, hlast⟩ := hu.last
  have hp := sameProgram_retire hu.program
  have hpc := pc_inv_of_arrives hi hv hp (hu.moves.retire hu.program)
  exact {
    fits := by rw [hp.base, hp.imem]; exact hi.fits
    mem := by simpa using hu.mem hi.mem
    pcIn := pcIn_of_slot_or_end hpc
    atSlot := hpc.1
    atEnd := hpc.2
    noWidth := by simpa using noWidth_of_atMostOneEvent hu.trace hi.noWidth
    snapshot := by
      intro l hl
      rw [State.retire_last, hlast, Option.some_inj] at hl
      subst hl
      exact ⟨sl, by rwa [hp.imem], rfl⟩ }

/-- Settles O54: a state that is not Running stays, and every clause is kept by a Running step. -/
theorem invariantIsKeptByEveryStep : Obligations.InvariantIsKeptByEveryStep := by
  intro s t hi h
  by_cases hs : s.status = .running
  · exact step_running_inv hi hs h
  · rw [step_of_not_running hs, next_inj] at h
    exact h ▸ hi

/-- A state that meets the invariant has a next state. -/
theorem step_answers_next_of_inv {s : State} (hi : s.Inv) : ∃ t, step s = .next t := by
  refine step_answers_next fun hs => ?_
  obtain ⟨sl, hsl, _⟩ := State.slotHere?_isSome (hi.atSlot (by simp [hs]))
  exact ⟨sl, hsl⟩

theorem stepTimes_succ {s t : State} (h : step s = .next t) (n : Nat) :
    stepTimes (n + 1) s = stepTimes n t := by
  simp [stepTimes, h]

/-- Settles O55, by induction on the number of steps with O54 for each. -/
theorem stepsNeverStopTheMachine : Obligations.StepsNeverStopTheMachine := by
  intro s hi n
  induction n generalizing s with
  | zero => exact ⟨s, rfl, hi⟩
  | succ n ih =>
    obtain ⟨t, ht⟩ := step_answers_next_of_inv hi
    rw [stepTimes_succ ht]
    exact ih t (invariantIsKeptByEveryStep s t hi ht)

/-! ### Where the pc goes -/

/-- The pc of a run is a multiple of 4 (R34, R77). -/
theorem pc_mod_four_of_inv {s : State} (hi : s.Inv) : s.pc.toNat % 4 = 0 := by
  obtain ⟨i, _, hpc⟩ := hi.pcIn
  obtain ⟨hb, _⟩ := programFits_iff.mp hi.fits
  rw [hpc, BitVec.toNat_add, BitVec.toNat_ofNat]
  omega

/-- Settles O56, by the clauses of the invariant and the four ends of a Running step. -/
theorem pcStaysAlignedInTheProgram : Obligations.PcStaysAlignedInTheProgram := by
  refine ⟨fun s hi => ⟨pc_mod_four_of_inv hi, hi.atEnd,
    fun hs => (s.validTarget_iff _).mp (hi.atSlot hs)⟩, fun s t hs h => ?_⟩
  obtain ⟨sl, u, _, hu, rfl⟩ := step_running hs h
  rcases hu.moves.retire hu.program with ⟨pc, _, _, _⟩ | ⟨pc, _, _, _⟩ | ⟨valid, _, _⟩ |
    ⟨pc, status, _⟩
  · exact .inl pc
  · exact .inl pc
  · exact .inr (.inl valid)
  · exact .inr (.inr ⟨status, pc⟩)

/-- `tookBranch` as the statements write it. -/
theorem tookBranch_eq_false_iff (s : State) :
    s.tookBranch = false ↔ ∀ l, s.last = some l → l.ctrl.branchTaken = false := by
  unfold State.tookBranch
  cases s.last <;> simp

/-- A state that retires to Halted was Running, unless it was Halted before. -/
theorem retire_eq_halted {u : State} (hn : u.status ≠ .halted) (h : u.retire.status = .halted) :
    u.status = .running ∧ u.retire = { u with status := .halted } := by
  unfold State.retire at h ⊢
  split
  · next hc => exact ⟨hc.1, rfl⟩
  · next hc =>
    rw [if_neg hc] at h
    exact absurd h hn

/-- A step of a run halts exactly when it ran the last slot and advanced sequentially (R43). -/
theorem halted_iff_of_arrives {s t : State} (hf : programFits s.base s.imem.length = true)
    (hv : s.validTarget s.pc = true) (h : Arrives s t) :
    t.status = .halted ↔ s.index + 1 = s.imem.length ∧ t.pc = s.pc + 4#64 ∧ t.tookBranch = false := by
  have hend := advance_eq_endAddr_iff hf hv
  rcases h with ⟨pc, atEnd, status, took⟩ | ⟨pc, notEnd, status, took⟩ | ⟨_, status, took⟩ |
    ⟨pc, status, _⟩
  · simp [status, pc, took, ← hend, atEnd]
  · simp [status, ← hend, notEnd]
  · simp [status, took]
  · simp [status, pc]

theorem Moves.not_halted {s u : State} (h : Moves s u) : u.status ≠ .halted := by
  rcases h with ⟨_, status, _⟩ | ⟨_, status, _⟩ | ⟨_, status, _⟩ <;> simp [status]

/-- Settles O57, from the four ends of a Running step and the invariant of the state it reaches. -/
theorem runsHaltExactlyPastTheLastSlot : Obligations.RunsHaltExactlyPastTheLastSlot := by
  intro s t hi hs h
  have ht := invariantIsKeptByEveryStep s t hi h
  obtain ⟨sl, u, hsl, hu, rfl⟩ := step_running hs h
  have hp := sameProgram_retire hu.program
  refine ⟨?_, fun hh => ⟨?_, u, ?_⟩, fun hr => ht.atSlot (by simp [hr])⟩
  · rw [← tookBranch_eq_false_iff]
    exact halted_iff_of_arrives hi.fits (State.slotHere?_eq_some hsl).1
      (hu.moves.retire hu.program)
  · exact (ht.atEnd hh).trans (endAddr_of_sameProgram hp)
  · obtain ⟨hr, eq⟩ := retire_eq_halted hu.moves.not_halted hh
    exact ⟨hr, eq, hu.issue⟩

/-! ### The program and the snapshot -/

/-- Settles O50: a step idles, or its skip or instruction keeps the program, as retiring does. -/
theorem theProgramIsImmutable : Obligations.TheProgramIsImmutable := by
  intro s t h
  by_cases hs : s.status = .running
  · obtain ⟨sl, u, _, hu, rfl⟩ := step_running hs h
    obtain ⟨imem, base, spInit⟩ := sameProgram_retire hu.program
    exact ⟨imem, base, spInit⟩
  · rw [step_of_not_running hs, next_inj] at h
    subst h
    exact ⟨rfl, rfl, rfl⟩

/-- Where an instruction goes does not depend on the snapshot (R39). -/
@[simp] theorem takenTo?_snapshot (i : Instr) (s : State) (w : InstrWord) (c : ControlSignals) :
    i.takenTo? (s.snapshot w c) = i.takenTo? s := rfl

@[simp] theorem validTarget_snapshot (s : State) (w : InstrWord) (c : ControlSignals) (a : Word) :
    (s.snapshot w c).validTarget a = s.validTarget a := rfl

/-- The signals that an instruction's step leaves in the snapshot (R126): branchTaken is set by a
taken branch with a valid target only. -/
theorem last_of_goes {i : Instr} {s u : State} {w : InstrWord}
    (h : Goes i (s.snapshot w (ctrlOf i)) u) :
    ∃ c, u.last = some ⟨s.index, w, c⟩ ∧
      (∀ a, i.takenTo? s = some a → s.validTarget a = true →
        c = { ctrlOf i with branchTaken := true } ∧ u.pc = a) ∧
      ((∀ a, i.takenTo? s = some a → s.validTarget a = false) →
        c = ctrlOf i ∧ c.branchTaken = false) := by
  rcases h with ⟨target, _, _, last⟩ | ⟨a, target, valid, pc, _, last⟩ | ⟨a, target, valid, rfl⟩ <;>
    rw [takenTo?_snapshot] at target
  · exact ⟨ctrlOf i, last, by simp [target], by simp⟩
  · rw [validTarget_snapshot] at valid
    exact ⟨_, last, by simp [target, pc], by simp [target, valid]⟩
  · rw [validTarget_snapshot] at valid
    exact ⟨ctrlOf i, rfl, by simp [target, valid], by simp⟩

/-- Settles O51, by the shapes of a step: the two skips with no signal, an instruction by where it
goes. -/
theorem snapshotIsOfTheExecutedSlot : Obligations.SnapshotIsOfTheExecutedSlot := by
  intro s t sl hs hsl h
  rcases step_shape h with ⟨hn, _⟩ | ⟨sl', e, _, hsl', he, rfl⟩ |
    ⟨sl', e, _, hsl', he, hd, rfl⟩ | ⟨sl', i, u, _, hsl', he, hd, hu, rfl⟩
  case idle => exact absurd hs hn
  all_goals
    obtain rfl : sl' = sl := Option.some_inj.mp (hsl'.symm.trans hsl)
  case asmError => exact ⟨zeroCtrl, State.retire_last _, by simp, by simp [he]⟩
  case unknown => exact ⟨zeroCtrl, State.retire_last _, by simp, by simp [hd]⟩
  case instr =>
    obtain ⟨c, hlast, htaken, hnot⟩ := last_of_goes (exec_goes hu)
    refine ⟨c, u.retire_last.trans hlast, by simp [he, hd], fun j _ hj => ?_⟩
    obtain rfl : i = j := by simpa [hd] using hj
    exact ⟨by simpa using htaken, hnot⟩

/-! ### The step, stopped runs, reset -/

/-- Settles O43, by the choice of the step and the test of `State.retire`. -/
theorem stepRunsTheDecodedInstruction : Obligations.StepRunsTheDecodedInstruction := by
  intro s u sl i hs hsl he hd hu
  have hissue : s.issue = .run i (s.snapshot sl.word (ctrlOf i)) := by
    simp [State.issue, State.issueSlot, hs, hsl, he, hd]
  have hstep : step s = .next u.retire := by
    have hu' : exec i (s.snapshot sl.word (ctrlOf i)) = .next u := hu
    simp [step, hissue, hu']
  simp only [hstep, State.retire, tookBranch_eq_false_iff, State.endAddr]

theorem stepTimes_of_not_running {s : State} (hs : s.status ≠ .running) (n : Nat) :
    stepTimes n s = .next s := by
  induction n with
  | zero => rfl
  | succ n ih => rw [stepTimes_succ (step_of_not_running hs), ih]

/-- The status at reset, by the program's length (R45). -/
theorem initial_status (base spInit : Word) (imem : List Slot) :
    (State.initial base spInit imem).status = if 0 < imem.length then .running else .halted := by
  cases imem <;> rfl

/-- Settles O44, by induction on the number of steps and the status at reset. -/
theorem stoppedRunsStay : Obligations.StoppedRunsStay :=
  ⟨fun _ hs => ⟨step_of_not_running hs, stepTimes_of_not_running hs⟩,
    fun s h => (initial_status s.base s.spInit s.imem).trans (if_pos h),
    fun s p h => (initial_status s.base s.spInit p).trans (if_pos h)⟩

theorem readReg_initial_sp (base spInit : Word) (imem : List Slot) :
    (State.initial base spInit imem).readReg 28 = spInit := by
  simp [State.initial, resetRegs, State.readReg]

theorem readReg_initial_other (base spInit : Word) (imem : List Slot) {q : Reg} (hq : q ≠ 28) :
    (State.initial base spInit imem).readReg q = 0 := by
  have hn : (28 : Nat) ≠ q.toNat := fun e => hq (BitVec.eq_of_toNat_eq e.symm)
  simp [State.initial, resetRegs, State.readReg, hn]

/-- Settles O52: both operations make the state of R45, the one with the old program, the other with
the new one. -/
theorem resetAndLoadProgramValues : Obligations.ResetAndLoadProgramValues :=
  ⟨fun _ => ⟨readReg_initial_sp .., fun _ => readReg_initial_other _ _ _, rfl, rfl, fun _ => rfl, rfl,
      initial_status .., rfl, rfl, rfl, rfl, rfl⟩,
    fun _ _ => ⟨readReg_initial_sp .., fun _ => readReg_initial_other _ _ _, rfl, rfl, fun _ => rfl, rfl,
      initial_status .., rfl, rfl, rfl, rfl, rfl⟩⟩

end Sys2Proof.Proofs
end

section
/-! What an instruction does with the registers it neither reads nor writes (10_state.md R41, R17). -/

namespace Sys2Proof.Proofs

open Sys2Proof Sys2Proof.Machine

/-! ### The destination -/

theorem readReg_storeExclusive_other {s : State} {rs q : Reg} (h : q ≠ rs) (rt : Reg) (ea : Word) :
    (s.storeExclusive rs rt ea).readReg q = s.readReg q := by
  unfold State.storeExclusive
  split <;> simp [State.readReg_writeReg_other, h]

/-- Settles O23, by the shapes of an instruction's effect: each writes its destination at most. -/
theorem onlyTheDestinationRegisterChanges : Obligations.OnlyTheDestinationRegisterChanges := by
  intro i s t q h hq
  have hne : ∀ {r : Reg}, i.dest = some r → q ≠ r := fun dest e => hq (e ▸ dest)
  rcases exec_shape h with ⟨rd, v, dest, _, _, _, _, rfl⟩ | ⟨rd, v, f, dest, _, _, _, _, rfl⟩ |
    ⟨f, _, _, _, _, _, rfl⟩ | ⟨w, ea, v, _, _, _, _, _, rfl⟩ | ⟨rt, ea, v, dest, _, _, _, _, rfl⟩ |
    ⟨rs, rt, rn, rfl, rfl⟩ | ⟨b, a, _, _, _, _, _, rfl⟩ | ⟨a, dest, _, _, _, _, rfl⟩ |
    ⟨rn, _, _, _, _, _, rfl⟩ | ⟨_, _, _, _, _, rfl⟩
  case result => exact (s.writeResult_spec rd v).regs q (hne dest)
  case resultFlags => exact (s.writeResultFlags_spec rd v f).regs q (hne dest)
  case flags | store | nop => rfl
  case loadExclusive => exact ((s.reserve ea).writeResult_spec rt v).regs q (hne dest)
  case storeExclusive => exact readReg_storeExclusive_other (hne rfl) rt _
  case branch => exact State.labelBranch_keeps (State.readReg · q) s s b a rfl rfl rfl rfl
  case branchLink =>
    exact State.labelBranch_keeps (State.readReg · q) s _ true a rfl rfl
      (State.readReg_writeReg_other s (hne dest) _) rfl
  case branchReg => exact State.taken_keeps (State.readReg · q) s s _ rfl rfl

/-! ### A register write before an update is the same write after it -/

section
variable (s : State) (q : Reg) (v : Word)

@[simp] theorem setFlags_writeReg (f : Flags) :
    (s.writeReg q v).setFlags f = (s.setFlags f).writeReg q v := by
  unfold State.writeReg; split <;> rfl

@[simp] theorem advance_writeReg : (s.writeReg q v).advance = s.advance.writeReg q v := by
  unfold State.writeReg; split <;> rfl

@[simp] theorem store_writeReg (w : Width) (ea : Word) (b : BitVec (8 * w.bytes)) :
    (s.writeReg q v).store w ea b = (s.store w ea b).writeReg q v := by
  unfold State.writeReg; split <;> rfl

@[simp] theorem reserve_writeReg (ea : Word) :
    (s.writeReg q v).reserve ea = (s.reserve ea).writeReg q v := by
  unfold State.writeReg; split <;> rfl

@[simp] theorem clearReservation_writeReg :
    (s.writeReg q v).clearReservation = s.clearReservation.writeReg q v := by
  unfold State.writeReg; split <;> rfl

@[simp] theorem jump_writeReg (a : Word) :
    (s.writeReg q v).jump a = (s.jump a).writeReg q v := by
  unfold State.writeReg; split <;> rfl

@[simp] theorem invalidBranchTarget_writeReg (a : Word) :
    (s.writeReg q v).invalidBranchTarget a = (s.invalidBranchTarget a).writeReg q v := by
  unfold State.writeReg; split <;> rfl

@[simp] theorem fallThroughUnresolved_writeReg :
    (s.writeReg q v).fallThroughUnresolved = s.fallThroughUnresolved.writeReg q v := by
  unfold State.writeReg; split <;> rfl

/-! ### What does not see a register -/

@[simp] theorem validTarget_writeReg (a : Word) :
    (s.writeReg q v).validTarget a = s.validTarget a := by
  simp [State.validTarget]

@[simp] theorem unresolvedHere_writeReg : (s.writeReg q v).unresolvedHere = s.unresolvedHere := by
  simp [State.unresolvedHere, State.slotHere?, State.index]

@[simp] theorem load_writeReg (w : Width) (ea : Word) :
    (s.writeReg q v).load w ea = s.load w ea := by
  simp [State.load]

@[simp] theorem target26_writeReg (off : BitVec 26) :
    (s.writeReg q v).target26 off = s.target26 off := by
  simp [State.target26]

@[simp] theorem target19_writeReg (off : BitVec 19) :
    (s.writeReg q v).target19 off = s.target19 off := by
  simp [State.target19]

@[simp] theorem reserved_writeReg (ea : Word) : (s.writeReg q v).reserved ea = s.reserved ea := by
  simp [State.reserved]

@[simp] theorem taken_writeReg (a : Word) (written : State) :
    (s.writeReg q v).taken a (written.writeReg q v) = (s.taken a written).writeReg q v := by
  rcases s.taken_cases a written with ⟨hv, _⟩ | ⟨hv, _⟩ <;> simp [State.taken, hv]

@[simp] theorem labelBranch_writeReg (b : Bool) (a : Word) (written : State) :
    (s.writeReg q v).labelBranch b a (written.writeReg q v) =
      (s.labelBranch b a written).writeReg q v := by
  unfold State.labelBranch
  rw [unresolvedHere_writeReg]
  split
  · exact fallThroughUnresolved_writeReg s q v
  · split
    · exact taken_writeReg s q v a written
    · exact advance_writeReg s q v

@[simp] theorem condBranch_writeReg (c : Cond) (off : BitVec 19) :
    (s.writeReg q v).condBranch c off = (s.condBranch c off).writeReg q v := by
  simp [State.condBranch]

end

/-! ### Writes to two registers -/

section
variable {s : State} {q r : Reg} (h : r ≠ q) (v : Word)
include h

/-- Writes to two registers commute. -/
theorem writeReg_comm (u : Word) :
    (s.writeReg q v).writeReg r u = (s.writeReg r u).writeReg q v := by
  have hn : q.toNat ≠ r.toNat := fun e => h (BitVec.eq_of_toNat_eq e.symm)
  unfold State.writeReg
  split <;> split <;> simp [Vector.set_comm _ _ hn]

theorem writeResult_writeReg (u : Word) :
    (s.writeReg q v).writeResult r u = (s.writeResult r u).writeReg q v := by
  simp [State.writeResult, writeReg_comm h]

theorem writeResultFlags_writeReg (u : Word) (f : Flags) :
    (s.writeReg q v).writeResultFlags r u f = (s.writeResultFlags r u f).writeReg q v := by
  simp [State.writeResultFlags, writeReg_comm h]

theorem storeExclusive_writeReg {rt : Reg} (ea : Word)
    (ht : (s.writeReg q v).readReg rt = s.readReg rt) :
    (s.writeReg q v).storeExclusive r rt ea = (s.storeExclusive r rt ea).writeReg q v := by
  unfold State.storeExclusive
  rw [reserved_writeReg, ht, store_writeReg]
  split <;> exact writeReg_comm h v _

end

/-! ### Every instruction -/

/-- An instruction that neither reads nor writes a register has the same effect beside any value of
it: its operands are the same, and its updates commute with the write. -/
theorem exec_writeReg {i : Instr} {q : Reg} (hq : q ∉ i.sources) (hd : i.dest ≠ some q)
    {s t : State} (v : Word) (h : exec i s = .next t) :
    exec i (s.writeReg q v) = .next (t.writeReg q v) := by
  have hread : ∀ r ∈ i.sources, (s.writeReg q v).readReg r = s.readReg r := fun r hr =>
    s.readReg_writeReg_other (ne_of_mem_of_not_mem hr hq) v
  cases i <;> cases h <;> refine congrArg Host.Outcome.next ?_ <;>
    simp only [Instr.sources, List.forall_mem_cons] at hread <;>
    simp only [Instr.dest, ne_eq, Option.some.injEq] at hd
  case add | sub | and | orr | eor | addi | subi | andi | orri | eori =>
    simp only [State.aluOp, hread, writeResult_writeReg hd]
  case adds | subs | ands | addis | subis | andis =>
    simp only [State.aluOpFlags, hread, writeResultFlags_writeReg hd]
  case lsl | lsr | movz | movk | mov => simp only [hread, writeResult_writeReg hd]
  case cmp | cmpi => simp [hread]
  case ldur | ldurb | ldurh | ldursw | ldxr => simp [State.ea, hread, writeResult_writeReg hd]
  case stur | sturb | sturh | sturw => simp [State.ea, hread]
  case stxr => simp [hread, storeExclusive_writeReg hd]
  case bl => simp [writeReg_comm hd]
  case br | cbz | cbnz => simp [hread]
  case bEq | bNe | bHs | bLo | bMi | bPl | bVs | bVc | bHi | bLs | bGe | bLt | bGt | bLe | bAl =>
    exact condBranch_writeReg s q v _ _
  case b | nop => simp

/-- Settles O24, for every instruction. -/
theorem registersNotReadDoNotMatter : Obligations.RegistersNotReadDoNotMatter :=
  fun _ _ _ _ v hq hd h => exec_writeReg hq hd v h

end Sys2Proof.Proofs
end

section
/-! Data memory byte by byte (20_memory.md R70 to R73, R95), with an address as the number
(a + k) mod 2^64. -/

namespace Sys2Proof.Proofs

open Sys2Proof Sys2Proof.Machine

theorem toNat_add_ofNat (a : Word) (k : Nat) :
    (a + BitVec.ofNat 64 k).toNat = (a.toNat + k) % 2 ^ 64 := by
  rw [BitVec.toNat_add, BitVec.toNat_ofNat, Nat.add_mod_mod]

/-- No access width comes near the size of the address space, so its bytes have different addresses. -/
theorem le_of_accessWidth {n : Nat} (h : n = 1 ∨ n = 2 ∨ n = 4 ∨ n = 8) : n ≤ 2 ^ 64 := by
  omega

/-! ### One read and one write -/

/-- Byte k of a read is the byte at (a + k) mod 2^64 (R71). -/
theorem extractLsb'_memRead (m : Memory) (a : Word) {n k : Nat} (hk : k < n) :
    (memRead m a n).extractLsb' (8 * k) 8 = readByte m ((a.toNat + k) % 2 ^ 64) := by
  rw [memRead_byte m a n k hk, toNat_add_ofNat]

/-- A write puts byte k of the value at (a + k) mod 2^64 (R72). -/
theorem readByte_memWrite_inside (m : Memory) (a : Word) {n : Nat} (v : BitVec (8 * n)) {k : Nat}
    (hk : k < n) (hn : n ≤ 2 ^ 64) :
    readByte (memWrite m a n v) ((a.toNat + k) % 2 ^ 64) = v.extractLsb' (8 * k) 8 := by
  rw [← toNat_add_ofNat, readByte_memWrite_byte m a n v k hk hn]

/-- A write changes no byte but those at (a + k) mod 2^64 (R72). -/
theorem readByte_memWrite_outside (m : Memory) (a : Word) {n : Nat} (v : BitVec (8 * n)) {b : Nat}
    (hb : ∀ k < n, b ≠ (a.toNat + k) % 2 ^ 64) :
    readByte (memWrite m a n v) b = readByte m b :=
  readByte_memWrite_other m a n v b fun k hk => toNat_add_ofNat a k ▸ hb k hk

/-- Settles O25, from the byte-by-byte law of MemRead. -/
theorem memReadIsLittleEndian : Obligations.MemReadIsLittleEndian :=
  ⟨fun m a _ _ _ hk => extractLsb'_memRead m a hk, fun _ => rfl⟩

/-- Settles O26, from the byte-by-byte laws of MemWrite. -/
theorem memWriteChangesExactlyItsBytes : Obligations.MemWriteChangesExactlyItsBytes :=
  fun m a _ v hn =>
    ⟨fun _ hk => readByte_memWrite_inside m a v hk (le_of_accessWidth hn),
      fun _ hb => readByte_memWrite_outside m a v hb⟩

/-! ### Store then load -/

theorem load_store (s : State) (w : Width) (ea : Word) (v : BitVec (8 * w.bytes)) :
    (s.store w ea v).load w ea = v :=
  memRead_memWrite s.mem ea w.bytes v (by cases w <;> decide)

/-- A store and then a load from its address put the stored value, extended by the load's own `f`,
into the register (R95). -/
theorem readReg_load_after_store (s : State) (w : Width) (ea : Word) (v : BitVec (8 * w.bytes))
    (f : BitVec (8 * w.bytes) → Word) {rt : Reg} (hrt : rt ≠ 31) :
    ((s.store w ea v).advance.writeResult rt (f ((s.store w ea v).load w ea))).readReg rt = f v := by
  simp [State.readReg_writeResult, load_store, show rt ≠ 31#5 from hrt]

/-- Settles O27: MemRead gives back what MemWrite stored, and each pair of instructions is a store and
then a load, at one effective address, with the load's extension. -/
theorem storeThenLoadReturnsTheValue : Obligations.StoreThenLoadReturnsTheValue := by
  refine ⟨fun m a v n hn => memRead_memWrite m a n _ (le_of_accessWidth hn),
    fun m a v => congrArg _ (memRead_memWrite m a 4 _ (by decide)),
    ?stur, ?sturb, ?sturh, ?sturw⟩ <;>
    intro s t u rt rt' rn off hrt ht hu <;> cases ht <;> cases hu
  case stur =>
    have hfull : ((s.readReg rt).setWidth 64).setWidth 64 = s.readReg rt := by simp
    exact (readReg_load_after_store s .double (s.ea rn off) _ (BitVec.setWidth 64) hrt).trans hfull
  case sturb => exact readReg_load_after_store s .byte (s.ea rn off) _ (BitVec.setWidth 64) hrt
  case sturh => exact readReg_load_after_store s .half (s.ea rn off) _ (BitVec.setWidth 64) hrt
  case sturw => exact readReg_load_after_store s .word (s.ea rn off) _ (BitVec.signExtend 64) hrt

/-! ### Accesses of different widths and places -/

/-- A read no wider than the write at its address gives the value's low bytes (R73). -/
theorem memRead_memWrite_narrower (m : Memory) (a v : Word) {n k : Nat} (hn : n ≤ 2 ^ 64)
    (hkn : k ≤ n) : memRead (memWrite m a n (v.setWidth (8 * n))) a k = v.setWidth (8 * k) := by
  refine eq_of_bytes fun j hj => ?_
  rw [extractLsb'_memRead _ _ hj, readByte_memWrite_inside _ _ _ (hj.trans_le hkn) hn,
    BitVec.extractLsb'_setWidth_of_le (by omega), BitVec.extractLsb'_setWidth_of_le (by omega)]

/-- Settles O28: a read sees single bytes, and each byte is that of the last write that covers it. -/
theorem mixedWidthAccessesSeeBytes : Obligations.MixedWidthAccessesSeeBytes := by
  refine ⟨fun m a v n k hn _ hkn => memRead_memWrite_narrower m a v (le_of_accessWidth hn) hkn,
    fun m a b c n k r v w hn hk _ l hl => ⟨fun j hj e => ?_, fun j hj e hb => ?_, fun hb ha => ?_⟩⟩ <;>
    rw [extractLsb'_memRead _ _ hl]
  · rw [e, readByte_memWrite_inside _ _ _ hj (le_of_accessWidth hk)]
  · rw [readByte_memWrite_outside _ _ _ hb, e,
      readByte_memWrite_inside _ _ _ hj (le_of_accessWidth hn)]
  · rw [readByte_memWrite_outside _ _ _ hb, readByte_memWrite_outside _ _ _ ha]

/-! ### The canonical form -/

/-- Settles O29, from the laws of the canonical form (log 11). -/
theorem memoryKeepsItsCanonicalForm : Obligations.MemoryKeepsItsCanonicalForm :=
  ⟨fun _ a n v h => memWrite_wf n a v h, rfl, fun _ _ h h' hr => eq_of_readByte_wfFrom h h' hr⟩

end Sys2Proof.Proofs
end

section
/-! What an instruction does to memory and to the exclusive monitor, each said once for every
instruction, and LDXR with STXR (20_memory.md R78, R92; 41_loadstore.md R240 to R242). -/

namespace Sys2Proof.Proofs

open Sys2Proof Sys2Proof.Machine

/-! ### Memory -/

/-- An instruction either stores nothing and keeps the memory, or makes one MemWrite to the bytes that
`storesTo` names (R78). -/
theorem exec_mem_cases {i : Instr} {s t : State} (h : exec i s = .next t) :
    (i.storesTo s = none ∧ t.mem = s.mem) ∨
    ∃ ea n v, i.storesTo s = some (ea, n) ∧ t.mem = memWrite s.mem ea n v := by
  rcases exec_shape h with ⟨_, _, _, stores, _, _, _, rfl⟩ | ⟨_, _, _, _, stores, _, _, _, rfl⟩ |
    ⟨_, _, stores, _, _, _, rfl⟩ | ⟨w, ea, v, _, stores, _, _, _, rfl⟩ |
    ⟨_, _, _, _, stores, _, _, _, rfl⟩ | ⟨rs, rt, rn, rfl, rfl⟩ |
    ⟨_, _, _, stores, _, _, _, rfl⟩ | ⟨_, _, stores, _, _, _, rfl⟩ |
    ⟨_, _, stores, _, _, _, rfl⟩ | ⟨_, stores, _, _, _, rfl⟩
  case store => exact .inr ⟨ea, w.bytes, _, stores, rfl⟩
  case storeExclusive =>
    by_cases hm : s.excl.valid = true ∧ s.excl.addr = s.readReg rn
    · rw [State.storeExclusive_of_match rs rt hm]
      exact .inr ⟨s.readReg rn, 8, _, if_pos hm, State.writeReg_mem ..⟩
    · rw [State.storeExclusive_of_mismatch rs rt hm]
      exact .inl ⟨if_neg hm, by simp⟩
  case result | resultFlags | flags | loadExclusive | nop => exact .inl ⟨stores, by simp⟩
  case branch => exact .inl ⟨stores, State.labelBranch_keeps State.mem _ _ _ _ rfl rfl rfl rfl⟩
  case branchLink =>
    exact .inl ⟨stores, State.labelBranch_keeps State.mem _ _ _ _ rfl rfl (by simp) rfl⟩
  case branchReg => exact .inl ⟨stores, State.taken_keeps State.mem _ _ _ rfl rfl⟩

/-- Settles O36: the one MemWrite of an instruction changes its own bytes only. -/
theorem onlyStoresChangeMemory : Obligations.OnlyStoresChangeMemory := by
  refine ⟨fun i s t ea n h hst a ha => ?_, fun i s t h hst a => ?_⟩ <;>
    rcases exec_mem_cases h with ⟨hnone, hmem⟩ | ⟨ea', n', v, hsome, hmem⟩
  · simp [hst] at hnone
  · obtain ⟨rfl, rfl⟩ : ea' = ea ∧ n' = n := by simpa [hst, eq_comm] using hsome
    rw [hmem, readByte_memWrite_other s.mem _ _ v a ha]
  · rw [hmem]
  · simp [hst] at hsome

/-! ### The monitor -/

/-- Ordinary instructions, stores among them, keep the reservation (R242). -/
theorem exec_excl_of_not_exclusive {i : Instr} {s t : State} (h : exec i s = .next t)
    (hi : i.isExclusive = false) : t.excl = s.excl := by
  rcases exec_shape h with h | h | h | h | ⟨_, _, _, _, _, _, ex, _, _⟩ | ⟨_, _, _, rfl, _⟩ |
    h | h | h | h
  case loadExclusive => simp [hi] at ex
  case storeExclusive => simp [Instr.isExclusive] at hi
  all_goals rename t = _ => eq; subst eq
  case result | resultFlags | flags | store | nop => simp
  case branch => exact State.labelBranch_keeps State.excl _ _ _ _ rfl rfl rfl rfl
  case branchLink => exact State.labelBranch_keeps State.excl _ _ _ _ rfl rfl (by simp) rfl
  case branchReg => exact State.taken_keeps State.excl _ _ _ rfl rfl

theorem execAll_cons_eq_next {i : Instr} {is : List Instr} {s t : State} :
    execAll (i :: is) s = .next t ↔ ∃ u, exec i s = .next u ∧ execAll is u = .next t := by
  obtain ⟨u, hu⟩ := exec_answers_next i s
  simp [execAll, hu]

/-- A list of ordinary instructions keeps the reservation. -/
theorem execAll_excl_of_not_exclusive {is : List Instr} {s t : State}
    (h : execAll is s = .next t) (his : ∀ i ∈ is, i.isExclusive = false) : t.excl = s.excl := by
  induction is generalizing s with
  | nil => rw [next_inj.mp h]
  | cons i is ih =>
    obtain ⟨hi, his⟩ := List.forall_mem_cons.mp his
    obtain ⟨u, hu, ht⟩ := execAll_cons_eq_next.mp h
    rw [ih ht his, exec_excl_of_not_exclusive hu hi]

/-- LDXR reserves its effective address (R240). -/
theorem excl_of_exec_ldxr {s t : State} {rt rn : Reg} {off : BitVec 9}
    (h : exec (.ldxr rt rn off) s = .next t) : t.excl = ⟨true, s.ea rn off⟩ := by
  cases h
  simp

/-- An STXR whose address is reserved writes status 0 and stores its register there (R241). -/
theorem exec_stxr_of_match {s t : State} {rs rt rn : Reg} (h : exec (.stxr rs rt rn) s = .next t)
    (hm : s.excl.valid = true ∧ s.excl.addr = s.readReg rn) :
    t.readReg rs = 0 ∧ Holds t (s.readReg rn) 8 (s.readReg rt) := by
  have hmem := (s.store_spec .double (s.readReg rn) (s.readReg rt)).stored
  cases h
  rw [State.storeExclusive_of_match rs rt hm]
  refine ⟨by simp [State.readReg_writeReg], fun k hk => ?_⟩
  simpa using hmem k hk

/-- Settles O35: the reservation that LDXR makes is the one that STXR finds. -/
theorem loadExclusiveThenStoreExclusiveSucceeds :
    Obligations.LoadExclusiveThenStoreExclusiveSucceeds := by
  intro s s1 s2 t rt rn rs rt' rn' off is hld his hrun hrn' hst
  have hexcl : s2.excl = ⟨true, s.ea rn off⟩ :=
    (execAll_excl_of_not_exclusive hrun his).trans (excl_of_exec_ldxr hld)
  rw [← hrn'] at hexcl ⊢
  exact exec_stxr_of_match hst (by simp [hexcl])

end Sys2Proof.Proofs
end

section
/-! Encoding and decoding are inverse up to the bits that execution ignores (30_encoding.md R117,
R118, R121 to R123, R134). -/

namespace Sys2Proof.Proofs

open Sys2Proof Sys2Proof.Machine

/-! ### Decoding an encoded instruction -/

/-- Every well-formed instruction is the one its word decodes to (R134). -/
theorem decode_encode {i : Instr} (h : i.wellFormed = true) : decode (encode i) = .ok i := by
  cases i
  case cmp | cmpi | mov => cases h
  case add | adds | sub | subs | and | ands | orr | eor | lsl | lsr | br =>
    exact decode_rWord (by decide) rfl
  case addi | addis | subi | subis | andi | andis | orri | eori =>
    exact decode_iWord (by decide) rfl
  case movz | movk => exact decode_imWord (by decide) (by decide) rfl
  case ldur | ldurb | ldurh | ldursw | stur | sturb | sturh | sturw | ldxr =>
    exact decode_dWord (by decide) (by decide) (by decide) rfl
  case stxr => exact decode_stxrWord ..
  case b | bl => exact decode_bWord rfl
  case cbz | cbnz => exact decode_cbWord (by decide) rfl
  case bEq | bNe | bHs | bLo | bMi | bPl | bVs | bVc | bHi | bLs | bGe | bLt | bGt | bLe | bAl =>
    exact decode_bcondWord ..
  case nop => rfl

/-- CMP, CMPI and MOV have the words of their core instructions (R121, R122, R123). -/
theorem encode_core (i : Instr) : encode i.core = encode i := by
  cases i <;> rfl

theorem wellFormed_core (i : Instr) : i.core.wellFormed = true := by
  cases i <;> rfl

/-- The word of any instruction decodes to its core instruction. -/
theorem decode_encode_core (i : Instr) : decode (encode i) = .ok i.core := by
  rw [← encode_core, decode_encode (wellFormed_core i)]

/-- Settles O1: a word decodes to the core instruction, and a well-formed one is its own core. -/
theorem decodeOfEncodeGivesTheInstructionBack : Obligations.DecodeOfEncodeGivesTheInstructionBack :=
  ⟨fun _ h => decode_encode h, fun _ _ => decode_encode_core _, fun _ _ => decode_encode_core _,
    fun _ _ => decode_encode_core _⟩

/-- No two instructions have one word. -/
theorem encode_injective {i j : Instr} (hi : i.wellFormed = true) (hj : j.wellFormed = true)
    (h : encode i = encode j) : i = j := by
  have hd := decode_encode hi
  rw [h, decode_encode hj] at hd
  exact (Except.ok.inj hd).symm

/-! ### A word without its ignored bits, put together from its fields -/

theorem rWord_and (op op' : BitVec 11) (rm rm' : Reg) (sh sh' : BitVec 6) (rn rn' rd rd' : Reg) :
    rWord op rm sh rn rd &&& rWord op' rm' sh' rn' rd' =
      rWord (op &&& op') (rm &&& rm') (sh &&& sh') (rn &&& rn') (rd &&& rd') := by
  unfold rWord
  calc ((op ++ rm ++ sh ++ rn ++ rd) &&& (op' ++ rm' ++ sh' ++ rn' ++ rd') :
      BitVec (11 + 5 + 6 + 5 + 5)) = _ := by simp only [BitVec.and_append]

theorem dWord_and (op op' : BitVec 11) (off off' : BitVec 9) (rn rn' rt rt' : Reg) :
    dWord op off rn rt &&& dWord op' off' rn' rt' =
      dWord (op &&& op') (off &&& off') (rn &&& rn') (rt &&& rt') := by
  unfold dWord
  calc ((op ++ off ++ 0#2 ++ rn ++ rt) &&& (op' ++ off' ++ 0#2 ++ rn' ++ rt') :
      BitVec (11 + 9 + 2 + 5 + 5)) = _ := by simp only [BitVec.and_append]; rfl

section
variable {w : InstrWord}

theorem rWord_eq {op : BitVec 11} (h : op11 w = op) :
    rWord op (rmField w) (shamtField w) (rnField w) (rdField w) = w :=
  h ▸ rWord_fields w

theorem iWord_eq {op : BitVec 10} (h : op10 w = op) :
    iWord op (imm12Field w) (rnField w) (rdField w) = w :=
  h ▸ iWord_fields w

theorem dWord_eq {op : BitVec 11} (h : op11 w = op) (h2 : op2Field w = 0) :
    dWord op (addr9Field w) (rnField w) (rdField w) = w :=
  h ▸ dWord_fields w h2

theorem imWord_eq {op : BitVec 9} (h : op9 w = op) :
    imWord op (hwField w) (imm16Field w) (rdField w) = w :=
  h ▸ imWord_fields w

theorem bWord_eq {op : BitVec 6} (h : op6 w = op) : bWord op (addr26Field w) = w :=
  h ▸ bWord_fields w

theorem cbWord_eq {op : BitVec 8} {rt : BitVec 5} (h : op8 w = op) (ht : rdField w = rt) :
    cbWord op (addr19Field w) rt = w :=
  h ▸ ht ▸ cbWord_fields w

/-- The word of an R-format row that ignores shamt. -/
theorem rWord_clear_shamt {op : BitVec 11} (h : op11 w = op) :
    rWord op (rmField w) 0 (rnField w) (rdField w) = w &&& ~~~0x0000FC00#32 := by
  have hm : ~~~0x0000FC00#32 = rWord (.allOnes 11) (.allOnes 5) 0 (.allOnes 5) (.allOnes 5) := rfl
  conv_rhs => rw [← rWord_eq h, hm, rWord_and]
  simp only [BitVec.and_allOnes, BitVec.ofNat_eq_ofNat, BitVec.and_zero]

/-- The word of a shift, which ignores Rm. -/
theorem rWord_clear_rm {op : BitVec 11} (h : op11 w = op) :
    rWord op 0 (shamtField w) (rnField w) (rdField w) = w &&& ~~~0x001F0000#32 := by
  have hm : ~~~0x001F0000#32 = rWord (.allOnes 11) 0 (.allOnes 6) (.allOnes 5) (.allOnes 5) := rfl
  conv_rhs => rw [← rWord_eq h, hm, rWord_and]
  simp only [BitVec.and_allOnes, BitVec.ofNat_eq_ofNat, BitVec.and_zero]

/-- The word of BR, which reads Rn only. -/
theorem rWord_clear_rm_shamt_rd {op : BitVec 11} (h : op11 w = op) :
    rWord op 0 0 (rnField w) 0 = w &&& ~~~0x001FFC1F#32 := by
  have hm : ~~~0x001FFC1F#32 = rWord (.allOnes 11) 0 0 (.allOnes 5) 0 := rfl
  conv_rhs => rw [← rWord_eq h, hm, rWord_and]
  simp only [BitVec.and_allOnes, BitVec.ofNat_eq_ofNat, BitVec.and_zero]

theorem and_clear_op2 (h2 : op2Field w = 0) : w &&& ~~~0x00000C00#32 = w := by
  have hm : ~~~0x00000C00#32 = dWord (.allOnes 11) (.allOnes 9) (.allOnes 5) (.allOnes 5) := rfl
  conv_lhs => rw [← dWord_fields w h2, hm, dWord_and]
  simp only [BitVec.and_allOnes, dWord_fields w h2]

/-- A word of STXR seen as an R-format word with shamt 0 (R110). -/
theorem dWord_rs (op : BitVec 11) (rs rn rt : Reg) :
    dWord op (rs ++ 0#4 : BitVec (5 + 4)) rn rt = rWord op rs 0 rn rt := by
  unfold dWord rWord
  ext i hi
  simp
  grind

/-- The word of STXR, which ignores the low four bits of the address field. -/
theorem dWord_clear_offset_low {op : BitVec 11} (h : op11 w = op) (h2 : op2Field w = 0) :
    dWord op (rmField w ++ 0#4 : BitVec (5 + 4)) (rnField w) (rdField w) =
      w &&& ~~~0x0000F000#32 := by
  rw [dWord_rs, rWord_clear_shamt h]
  conv_rhs => rw [← and_clear_op2 h2, BitVec.and_assoc]
  rfl

end

/-! ### Encoding what a word decodes to -/

/-- `i` is well-formed, and its word is `w` without the bits that execution ignores (R118). -/
structure EncodesTo (i : Instr) (w : InstrWord) : Prop where
  encode_eq  : encode i = w &&& ~~~(ignoredBits i)
  wellFormed : i.wellFormed = true

/-- An instruction that ignores no bit of its word. -/
theorem EncodesTo.of_eq {i : Instr} {w : InstrWord} (h : encode i = w)
    (hi : ignoredBits i = 0#32) (hw : i.wellFormed = true) : EncodesTo i w where
  encode_eq := by rw [h, hi]; exact (BitVec.and_allOnes (x := w)).symm
  wellFormed := hw

/-- One row of a decoder's chain of tests: what holds of the row's instruction, and of whatever the
other rows give, holds of the result. `c` is `some` or `.ok`. -/
theorem forall_ite_eq {α β : Type} {c : α → β} (hc : c.Injective) {p : Prop} [Decidable p] {x : α}
    {rest : β} {Q : α → Prop} (hx : p → Q x) (hrest : ∀ i, rest = c i → Q i) :
    ∀ i, (if p then c x else rest) = c i → Q i := by
  intro i h
  split at h
  · exact hc h ▸ hx ‹_›
  · exact hrest i h

theorem ok_injective {ε α : Type} : (Except.ok : α → Except ε α).Injective :=
  fun _ _ => Except.ok.inj

/-- Eight rows that ignore shamt, the two shifts, and BR. -/
theorem encodesTo_of_decodeR (w : InstrWord) : ∀ i, decodeR w = some i → EncodesTo i w := by
  unfold decodeR
  iterate 8
    refine forall_ite_eq (Option.some_injective _) (fun h => ⟨rWord_clear_shamt h, rfl⟩) ?_
  iterate 2 refine forall_ite_eq (Option.some_injective _) (fun h => ⟨rWord_clear_rm h, rfl⟩) ?_
  refine forall_ite_eq (Option.some_injective _) (fun h => ⟨rWord_clear_rm_shamt_rd h, rfl⟩) ?_
  exact fun _ h => nomatch h

/-- Nine rows that read every bit, and STXR. -/
theorem encodesTo_of_decodeD {w : InstrWord} (h2 : op2Field w = 0) :
    ∀ i, decodeD w = some i → EncodesTo i w := by
  unfold decodeD
  iterate 9
    refine forall_ite_eq (Option.some_injective _) (fun h => .of_eq (dWord_eq h h2) rfl rfl) ?_
  refine forall_ite_eq (Option.some_injective _) (fun h => ⟨dWord_clear_offset_low h h2, rfl⟩) ?_
  exact fun _ h => nomatch h

theorem encodesTo_of_decodeI (w : InstrWord) : ∀ i, decodeI w = some i → EncodesTo i w := by
  unfold decodeI
  iterate 8
    refine forall_ite_eq (Option.some_injective _) (fun h => .of_eq (iWord_eq h) rfl rfl) ?_
  exact fun _ h => nomatch h

/-- The code of the condition that a code stands for is that code (R116). -/
theorem code_of_ofCode (k : BitVec 5) : ∀ c, Cond.ofCode k = some c → c.code = k := by
  unfold Cond.ofCode
  iterate 15 refine forall_ite_eq (Option.some_injective _) (fun h => h.symm) ?_
  exact fun _ h => nomatch h

theorem encode_bcond (c : Cond) (off : BitVec 19) :
    encode (.bcond c off) = cbWord Opcode.bcond off c.code := by
  cases c <;> rfl

theorem ignoredBits_bcond (c : Cond) (off : BitVec 19) : ignoredBits (.bcond c off) = 0#32 := by
  cases c <;> rfl

theorem wellFormed_bcond (c : Cond) (off : BitVec 19) : (Instr.bcond c off).wellFormed = true := by
  cases c <;> rfl

theorem encodesTo_of_condFormat {w : InstrWord} (h8 : op8 w = Opcode.bcond) :
    ∀ i, condFormat w = .ok i → EncodesTo i w := by
  intro i h
  unfold condFormat at h
  split at h
  case h_1 c hc =>
    cases h
    have hw := cbWord_eq h8 (code_of_ofCode _ c hc).symm
    exact .of_eq ((encode_bcond ..).trans hw) (ignoredBits_bcond ..) (wellFormed_bcond ..)
  case h_2 => cases h

/-- The rows of the four shorter opcodes, then the I, R and D formats, then NOP. -/
theorem encodesTo_of_decode (w : InstrWord) : ∀ i, decode w = .ok i → EncodesTo i w := by
  unfold decode
  iterate 2 refine forall_ite_eq ok_injective (fun h => .of_eq (bWord_eq h) rfl rfl) ?_
  iterate 2 refine forall_ite_eq ok_injective (fun h => .of_eq (cbWord_eq h rfl) rfl rfl) ?_
  refine iteInduction (motive := fun d : Except UnknownWord Instr => ∀ i, d = .ok i → EncodesTo i w)
    encodesTo_of_condFormat fun _ => ?_
  iterate 2 refine forall_ite_eq ok_injective (fun h => .of_eq (imWord_eq h) rfl rfl) ?_
  rcases hI : decodeI w with _ | i
  case some => exact fun j h => ok_injective h ▸ encodesTo_of_decodeI w i hI
  rcases hR : decodeR w with _ | i
  case some => exact fun j h => ok_injective h ▸ encodesTo_of_decodeR w i hR
  rcases hD : decodeD w with _ | i
  case some =>
    exact forall_ite_eq ok_injective (fun h2 => encodesTo_of_decodeD h2 i hD) fun _ h => nomatch h
  refine iteInduction (motive := fun d : Except UnknownWord Instr => ∀ i, d = .ok i → EncodesTo i w)
    (fun _ => ?_) fun _ _ h => nomatch h
  exact forall_ite_eq ok_injective (fun h => .of_eq h.symm rfl rfl) fun _ h => nomatch h

/-- Settles O2: decoding is inverted by encoding, and encoding by decoding. -/
theorem encodeOfDecodeKeepsEveryReadBit : Obligations.EncodeOfDecodeKeepsEveryReadBit :=
  ⟨fun w i h => ⟨(encodesTo_of_decode w i h).encode_eq, (encodesTo_of_decode w i h).wellFormed⟩,
    fun _ _ hi hj h => encode_injective hi hj h⟩

end Sys2Proof.Proofs
end

section
/-! Which bits of a word each row of the opcode map reads (30_encoding.md R101, R104 to R110, R116,
R117). -/

namespace Sys2Proof.Proofs

open Sys2Proof Sys2Proof.Machine

/-! ### The shorter opcode fields are the top bits of the 11-bit one (R101) -/

section
variable (w : InstrWord)

theorem op6_eq : op6 w = (op11 w).extractLsb' 5 6 := by
  conv_lhs => rw [← rWord_fields w, op6_rWord]

theorem op8_eq : op8 w = (op11 w).extractLsb' 3 8 := by
  conv_lhs => rw [← rWord_fields w, op8_rWord]

theorem op9_eq : op9 w = (op11 w).extractLsb' 2 9 := by
  conv_lhs => rw [← rWord_fields w, op9_rWord]

theorem op10_eq : op10 w = (op11 w).extractLsb' 1 10 := by
  conv_lhs => rw [← rWord_fields w, op10_rWord]

end

/-! ### A row whose encoded words decode to its instruction reads its own fields -/

section
variable {f : InstrWord → Instr}

theorem rowReads_rWord {op : BitVec 11}
    (h : ∀ w, decode (rWord op (rmField w) (shamtField w) (rnField w) (rdField w)) = .ok (f w)) :
    RowReads (op ++ 0#21) 0xFFE00000#32 f := fun w hw => by
  rw [← h w, rWord_eq ((mask_op11 w op).mp hw)]

theorem rowReads_iWord {op : BitVec 10}
    (h : ∀ w, decode (iWord op (imm12Field w) (rnField w) (rdField w)) = .ok (f w)) :
    RowReads (op ++ 0#22) 0xFFC00000#32 f := fun w hw => by
  rw [← h w, iWord_eq ((mask_op10 w op).mp hw)]

theorem rowReads_imWord {op : BitVec 9}
    (h : ∀ w, decode (imWord op (hwField w) (imm16Field w) (rdField w)) = .ok (f w)) :
    RowReads (op ++ 0#23) 0xFF800000#32 f := fun w hw => by
  rw [← h w, imWord_eq ((mask_op9 w op).mp hw)]

theorem rowReads_dWord {op : BitVec 11}
    (h : ∀ w, decode (dWord op (addr9Field w) (rnField w) (rdField w)) = .ok (f w)) :
    RowReads (op ++ 0#21) 0xFFE00C00#32 f := fun w hw => by
  obtain ⟨h11, h2⟩ := (mask_op11_op2 w op).mp hw
  rw [← h w, dWord_eq h11 h2]

theorem rowReads_bWord {op : BitVec 6} (h : ∀ w, decode (bWord op (addr26Field w)) = .ok (f w)) :
    RowReads (op ++ 0#26) 0xFC000000#32 f := fun w hw => by
  rw [← h w, bWord_eq ((mask_op6 w op).mp hw)]

theorem rowReads_cbWord {op : BitVec 8}
    (h : ∀ w, decode (cbWord op (addr19Field w) (rdField w)) = .ok (f w)) :
    RowReads (op ++ 0#24) 0xFF000000#32 f := fun w hw => by
  rw [← h w, cbWord_eq ((mask_op8 w op).mp hw) rfl]

end

/-- The row of a condition (R116). -/
theorem rowReads_bcond (c : Cond) :
    RowReads (Opcode.bcond ++ (0#19 ++ c.code : BitVec (19 + 5)) : BitVec (8 + (19 + 5)))
      0xFF00001F#32 fun w => .bcond c (addr19Field w) := fun w hw => by
  obtain ⟨h8, hc⟩ := (mask_op8_rd w Opcode.bcond c.code).mp hw
  rw [← decode_bcondWord, cbWord_eq h8 hc]

/-- Settles O4, row by row: a word of the row is the R-format word of its own fields. -/
theorem decodeReadsRegisterFormat : Obligations.DecodeReadsRegisterFormat := by
  refine ⟨rowReads_rWord (op := Opcode.add) ?_, rowReads_rWord (op := Opcode.adds) ?_,
    rowReads_rWord (op := Opcode.sub) ?_, rowReads_rWord (op := Opcode.subs) ?_,
    rowReads_rWord (op := Opcode.and) ?_, rowReads_rWord (op := Opcode.ands) ?_,
    rowReads_rWord (op := Opcode.orr) ?_, rowReads_rWord (op := Opcode.eor) ?_,
    rowReads_rWord (op := Opcode.lsl) ?_, rowReads_rWord (op := Opcode.lsr) ?_,
    rowReads_rWord (op := Opcode.br) ?_⟩ <;>
    exact fun _ => decode_rWord (by decide) rfl

/-- Settles O5, row by row, as O4. -/
theorem decodeReadsImmediateFormats : Obligations.DecodeReadsImmediateFormats := by
  refine ⟨rowReads_iWord (op := Opcode.addi) ?_, rowReads_iWord (op := Opcode.addis) ?_,
    rowReads_iWord (op := Opcode.subi) ?_, rowReads_iWord (op := Opcode.subis) ?_,
    rowReads_iWord (op := Opcode.andi) ?_, rowReads_iWord (op := Opcode.andis) ?_,
    rowReads_iWord (op := Opcode.orri) ?_, rowReads_iWord (op := Opcode.eori) ?_,
    rowReads_imWord (op := Opcode.movz) fun _ => decode_imWord (by decide) (by decide) rfl,
    rowReads_imWord (op := Opcode.movk) fun _ => decode_imWord (by decide) (by decide) rfl⟩ <;>
    exact fun _ => decode_iWord (by decide) rfl

/-- Settles O7, row by row, as O4; the fifteen rows of B.cond are one for each condition. -/
theorem decodeReadsBranchFormats : Obligations.DecodeReadsBranchFormats :=
  ⟨rowReads_bWord (op := Opcode.b) fun _ => decode_bWord rfl,
    rowReads_bWord (op := Opcode.bl) fun _ => decode_bWord rfl,
    rowReads_cbWord (op := Opcode.cbz) fun _ => decode_cbWord (by decide) rfl,
    rowReads_cbWord (op := Opcode.cbnz) fun _ => decode_cbWord (by decide) rfl,
    rowReads_bcond .eq, rowReads_bcond .ne, rowReads_bcond .hs, rowReads_bcond .lo,
    rowReads_bcond .mi, rowReads_bcond .pl, rowReads_bcond .vs, rowReads_bcond .vc,
    rowReads_bcond .hi, rowReads_bcond .ls, rowReads_bcond .ge, rowReads_bcond .lt,
    rowReads_bcond .gt, rowReads_bcond .le, rowReads_bcond .al⟩

/-! ### The D format and op2 -/

/-- An 11-bit opcode that only the D-format rows can have (R101). -/
def dOpcodeOnly (op : BitVec 11) : Bool :=
  longOpcode op && [Opcode.add, Opcode.adds, Opcode.sub, Opcode.subs, Opcode.and, Opcode.ands,
    Opcode.orr, Opcode.eor, Opcode.lsl, Opcode.lsr, Opcode.br].all (· != op)

/-- The opcodes of the D-format rows (R117). -/
def dOpcodes : List (BitVec 11) :=
  [Opcode.ldur, Opcode.ldurb, Opcode.ldurh, Opcode.ldursw, Opcode.stur, Opcode.sturb, Opcode.sturh,
    Opcode.sturw, Opcode.ldxr, Opcode.stxr]

theorem dOpcodeOnly_of_mem : ∀ op ∈ dOpcodes, dOpcodeOnly op = true := by
  intro op h
  fin_cases h <;> decide

theorem opcodeRowsD_pattern :
    ∀ r ∈ opcodeRowsD, op11 r.pattern ∈ dOpcodes ∧ r.pattern = op11 r.pattern ++ 0#21 := by
  decide +kernel

theorem exists_decodeD {w : InstrWord} (h : op11 w ∈ dOpcodes) : ∃ i, decodeD w = some i := by
  simp only [dOpcodes, List.mem_cons, List.not_mem_nil, or_false] at h
  rcases h with h | h | h | h | h | h | h | h | h | h <;> rw [decodeD, h] <;> exact ⟨_, rfl⟩

/-- On a word with an opcode of the D format, op2 alone is left to test (R106). -/
theorem decode_eq_dFormat {w : InstrWord} {i : Instr} (h : op11 w ∈ dOpcodes)
    (hi : decodeD w = some i) : decode w = dFormat w i := by
  have hop := dOpcodeOnly_of_mem _ h
  simp only [dOpcodeOnly, List.all_cons, List.all_nil, Bool.and_true, Bool.and_eq_true,
    bne_iff_ne, ne_eq] at hop
  obtain ⟨hlong, hR⟩ := hop
  refine decode_of_decodeD hlong (op6_eq w) (op8_eq w) (op9_eq w) (op10_eq w) ?_ hi
  simp only [decodeR]
  grind

/-- The STXR row reads Rs from the top of the address field (R110). -/
theorem rowReads_stxr : RowReads (Opcode.stxr ++ 0#21) 0xFFE00C00#32
    fun w => .stxr (rmField w) (rdField w) (rnField w) := fun w hw => by
  obtain ⟨h11, h2⟩ := (mask_op11_op2 w Opcode.stxr).mp hw
  have hi : decodeD w = some (.stxr (rmField w) (rdField w) (rnField w)) := by
    simp only [decodeD, h11]
    rfl
  rw [decode_eq_dFormat (h11 ▸ by decide) hi, dFormat, if_pos h2]

theorem decode_op2NotZero {w : InstrWord} {r : OpcodeRow} (hr : r ∈ opcodeRowsD)
    (hw : w &&& 0xFFE00000#32 = r.pattern) (h2 : op2Field w ≠ 0) :
    decode w = .error .op2NotZero := by
  obtain ⟨hop, hp⟩ := opcodeRowsD_pattern r hr
  rw [hp] at hw
  rw [← (mask_op11 w _).mp hw] at hop
  obtain ⟨i, hi⟩ := exists_decodeD hop
  rw [decode_eq_dFormat hop hi, dFormat, if_neg h2]

/-- Settles O6, row by row, as O4, with STXR and the test of op2 by themselves. -/
theorem decodeReadsMemoryFormat : Obligations.DecodeReadsMemoryFormat := by
  refine ⟨rowReads_dWord (op := Opcode.ldur) ?_, rowReads_dWord (op := Opcode.ldurb) ?_,
    rowReads_dWord (op := Opcode.ldurh) ?_, rowReads_dWord (op := Opcode.ldursw) ?_,
    rowReads_dWord (op := Opcode.stur) ?_, rowReads_dWord (op := Opcode.sturb) ?_,
    rowReads_dWord (op := Opcode.sturh) ?_, rowReads_dWord (op := Opcode.sturw) ?_,
    rowReads_dWord (op := Opcode.ldxr) ?_, rowReads_stxr,
    fun _ _ hr hw h2 => decode_op2NotZero hr hw h2⟩ <;>
    exact fun _ => decode_dWord (by decide) (by decide) (by decide) rfl

/-- Settles O10, by running the decoder on each word. -/
theorem wordsOfTheSpecDecode : Obligations.WordsOfTheSpecDecode :=
  ⟨rfl, rfl, rfl, rfl, rfl, rfl, rfl, rfl, rfl, rfl⟩

end Sys2Proof.Proofs
end

section
/-! The opcode map as a whole: what matches a row, what matches none, and the bits that no row tests
(30_encoding.md R103, R116 to R119). -/

namespace Sys2Proof.Proofs

open Sys2Proof Sys2Proof.Machine

/-! ### A word that matches a row decodes to the row's instruction -/

/-- Every word of the row decodes, to an instruction of the row's mnemonic. -/
def RowDecodes (r : OpcodeRow) : Prop :=
  ∀ w : InstrWord, w &&& r.mask = r.pattern → ∃ i, decode w = .ok i ∧ i.mnemonic = r.mnemonic

theorem rowDecodes_of_reads {m : String} {p k : InstrWord} {f : InstrWord → Instr}
    (hm : ∀ w, (f w).mnemonic = m) (h : RowReads p k f) : RowDecodes ⟨m, p, k⟩ :=
  fun w hw => ⟨f w, h w hw, hm w⟩

/-- A conjunction of `RowReads` statements, row by row against a list of rows. -/
theorem rowDecodes_cons {m : String} {p k : InstrWord} {f : InstrWord → Instr} {Rest : Prop}
    {rows : List OpcodeRow} (hm : ∀ w, (f w).mnemonic = m) (h : Rest → ∀ r ∈ rows, RowDecodes r) :
    RowReads p k f ∧ Rest → ∀ r ∈ ⟨m, p, k⟩ :: rows, RowDecodes r :=
  fun ⟨hr, hrest⟩ => List.forall_mem_cons.mpr ⟨rowDecodes_of_reads hm hr, h hrest⟩

/-! The statements O4 to O7 list their rows in the order of the opcode map, so each is walked row by
row beside its list. -/

theorem rowDecodes_R : Obligations.DecodeReadsRegisterFormat → ∀ r ∈ opcodeRowsR, RowDecodes r := by
  iterate 10 refine rowDecodes_cons (fun _ => rfl) ?_
  exact fun h => List.forall_mem_singleton.mpr (rowDecodes_of_reads (fun _ => rfl) h)

theorem rowDecodes_I :
    Obligations.DecodeReadsImmediateFormats → ∀ r ∈ opcodeRowsI, RowDecodes r := by
  iterate 9 refine rowDecodes_cons (fun _ => rfl) ?_
  exact fun h => List.forall_mem_singleton.mpr (rowDecodes_of_reads (fun _ => rfl) h)

theorem rowDecodes_D : Obligations.DecodeReadsMemoryFormat → ∀ r ∈ opcodeRowsD, RowDecodes r := by
  iterate 10 refine rowDecodes_cons (fun _ => rfl) ?_
  exact fun _ _ h => nomatch h

theorem rowDecodes_nop : RowDecodes ⟨"NOP", nopWord, 0xFFFFFFFF#32⟩ := fun w hw =>
  ⟨.nop, by rw [show w = nopWord from (BitVec.and_allOnes (x := w)).symm.trans hw]; rfl, rfl⟩

theorem rowDecodes_B : Obligations.DecodeReadsBranchFormats → ∀ r ∈ opcodeRowsB, RowDecodes r := by
  iterate 18 refine rowDecodes_cons (fun _ => rfl) ?_
  exact fun h => List.forall_mem_cons.mpr
    ⟨rowDecodes_of_reads (fun _ => rfl) h, List.forall_mem_singleton.mpr rowDecodes_nop⟩

theorem rowDecodes : ∀ r ∈ opcodeRows, RowDecodes r := by
  simp only [opcodeRows, List.forall_mem_append]
  exact ⟨⟨⟨rowDecodes_R decodeReadsRegisterFormat, rowDecodes_I decodeReadsImmediateFormats⟩,
    rowDecodes_D decodeReadsMemoryFormat⟩, rowDecodes_B decodeReadsBranchFormats⟩

/-! ### An encoded word matches the row of its mnemonic -/

/-- No two rows have one mnemonic. -/
theorem eq_of_mnemonic_eq {r q : OpcodeRow} (hr : r ∈ opcodeRows) (hq : q ∈ opcodeRows)
    (h : r.mnemonic = q.mnemonic) : r = q :=
  List.inj_on_of_nodup_map (f := OpcodeRow.mnemonic) (by decide +kernel) hr hq h

theorem rWord_and_mask (op : BitVec 11) (rm : Reg) (sh : BitVec 6) (rn rd : Reg) :
    rWord op rm sh rn rd &&& 0xFFE00000#32 = (op ++ 0#21 : BitVec (11 + 21)) :=
  (mask_op11 ..).mpr (op11_rWord ..)

theorem iWord_and_mask (op : BitVec 10) (imm : BitVec 12) (rn rd : Reg) :
    iWord op imm rn rd &&& 0xFFC00000#32 = (op ++ 0#22 : BitVec (10 + 22)) :=
  (mask_op10 ..).mpr (op10_iWord ..)

theorem dWord_and_mask (op : BitVec 11) (off : BitVec 9) (rn rt : Reg) :
    dWord op off rn rt &&& 0xFFE00C00#32 = (op ++ 0#21 : BitVec (11 + 21)) :=
  (mask_op11_op2 ..).mpr ⟨op11_dWord .., op2Field_dWord ..⟩

theorem imWord_and_mask (op : BitVec 9) (hw : BitVec 2) (imm : BitVec 16) (rd : Reg) :
    imWord op hw imm rd &&& 0xFF800000#32 = (op ++ 0#23 : BitVec (9 + 23)) :=
  (mask_op9 ..).mpr (op9_imWord ..)

theorem bWord_and_mask (op : BitVec 6) (off : BitVec 26) :
    bWord op off &&& 0xFC000000#32 = (op ++ 0#26 : BitVec (6 + 26)) :=
  (mask_op6 ..).mpr (op6_bWord ..)

theorem cbWord_and_mask (op : BitVec 8) (off : BitVec 19) (rt : Reg) :
    cbWord op off rt &&& 0xFF000000#32 = (op ++ 0#24 : BitVec (8 + 24)) :=
  (mask_op8 ..).mpr (op8_cbWord ..)

theorem cbWord_and_mask_cond (op : BitVec 8) (off : BitVec 19) (c : BitVec 5) :
    cbWord op off c &&& 0xFF00001F#32 =
      (op ++ (0#19 ++ c : BitVec (19 + 5)) : BitVec (8 + (19 + 5))) :=
  (mask_op8_rd ..).mpr ⟨op8_cbWord .., rdField_cbWord ..⟩

/-- The word of an instruction matches the row of its mnemonic. -/
theorem encode_matches_row {i : Instr} (h : i.wellFormed = true) :
    ∃ r, opcodeRows.find? (·.mnemonic == i.mnemonic) = some r ∧
      encode i &&& r.mask = r.pattern := by
  cases i
  case cmp | cmpi | mov => cases h
  case add | adds | sub | subs | and | ands | orr | eor | lsl | lsr | br =>
    exact ⟨_, rfl, rWord_and_mask ..⟩
  case addi | addis | subi | subis | andi | andis | orri | eori =>
    exact ⟨_, rfl, iWord_and_mask ..⟩
  case movz | movk => exact ⟨_, rfl, imWord_and_mask ..⟩
  case ldur | ldurb | ldurh | ldursw | stur | sturb | sturh | sturw | ldxr | stxr =>
    exact ⟨_, rfl, dWord_and_mask ..⟩
  case b | bl => exact ⟨_, rfl, bWord_and_mask ..⟩
  case cbz | cbnz => exact ⟨_, rfl, cbWord_and_mask ..⟩
  case bEq | bNe | bHs | bLo | bMi | bPl | bVs | bVc | bHi | bLs | bGe | bLt | bGt | bLe | bAl =>
    exact ⟨_, rfl, cbWord_and_mask_cond ..⟩
  case nop => exact ⟨_, rfl, rfl⟩

/-! ### A decoded word matches the row of its mnemonic -/

/-- The don't-care bits of R118, by mnemonic. -/
def dontCareBits (m : String) : InstrWord :=
  if m ∈ ["ADD", "ADDS", "SUB", "SUBS", "AND", "ANDS", "ORR", "EOR"] then 0x0000FC00#32
  else if m ∈ ["LSL", "LSR"] then 0x001F0000#32
  else if m = "BR" then 0x001FFC1F#32
  else if m = "STXR" then 0x0000F000#32 else 0#32

theorem ignoredBits_eq_dontCareBits {i : Instr} (h : i.wellFormed = true) :
    ignoredBits i = dontCareBits i.mnemonic := by
  cases i
  case cmp | cmpi | mov => cases h
  all_goals rfl

/-- No row tests a don't-care bit of its instruction (R118). -/
theorem mask_and_dontCareBits :
    ∀ r ∈ opcodeRows, ~~~(dontCareBits r.mnemonic) &&& r.mask = r.mask := by decide +kernel

/-- A row's test sees only the bits that execution does not ignore. -/
theorem matches_iff_of_ignoredBits {i : Instr} {r : OpcodeRow} (hi : i.wellFormed = true)
    (hr : r ∈ opcodeRows) (hm : i.mnemonic = r.mnemonic) (w : InstrWord) :
    (w &&& ~~~(ignoredBits i)) &&& r.mask = r.pattern ↔ w &&& r.mask = r.pattern := by
  rw [BitVec.and_assoc, ignoredBits_eq_dontCareBits hi, hm, mask_and_dontCareBits r hr]

/-- Every word that decodes matches the row of the mnemonic it decodes to. -/
theorem row_of_decode {w : InstrWord} {i : Instr} (h : decode w = .ok i) :
    ∃ r ∈ opcodeRows, i.mnemonic = r.mnemonic ∧ w &&& r.mask = r.pattern := by
  obtain ⟨henc, hwf⟩ := encodesTo_of_decode w i h
  obtain ⟨r, hfind, hmatch⟩ := encode_matches_row hwf
  have hr := List.mem_of_find?_eq_some hfind
  have hm := List.find?_some hfind
  rw [beq_iff_eq, eq_comm] at hm
  rw [henc, matches_iff_of_ignoredBits hwf hr hm] at hmatch
  exact ⟨r, hr, hm, hmatch⟩

/-- A word is a row's instruction iff it matches the row (R117). -/
theorem matches_iff_decode {r : OpcodeRow} (hr : r ∈ opcodeRows) (w : InstrWord) :
    w &&& r.mask = r.pattern ↔ ∃ i, decode w = .ok i ∧ i.mnemonic = r.mnemonic := by
  refine ⟨rowDecodes r hr w, fun ⟨i, hd, hm⟩ => ?_⟩
  obtain ⟨q, hq, hmq, hmatch⟩ := row_of_decode hd
  rwa [eq_of_mnemonic_eq hr hq (hm.symm.trans hmq)]

/-- The opcode map is unambiguous, because a word decodes to one instruction. -/
theorem eq_of_matches {r q : OpcodeRow} (hr : r ∈ opcodeRows) (hq : q ∈ opcodeRows) {w : InstrWord}
    (hwr : w &&& r.mask = r.pattern) (hwq : w &&& q.mask = q.pattern) : r = q := by
  obtain ⟨i, hi, hmr⟩ := rowDecodes r hr w hwr
  obtain ⟨j, hj, hmq⟩ := rowDecodes q hq w hwq
  obtain rfl : i = j := ok_injective (hi.symm.trans hj)
  exact eq_of_mnemonic_eq hr hq (hmr.symm.trans hmq)

/-- Settles O3, from the rows' own statements O4 to O7 and what decoding can answer. -/
theorem decodeFollowsTheOpcodeMap : Obligations.DecodeFollowsTheOpcodeMap :=
  ⟨fun _ hr w => matches_iff_decode hr w,
    fun _ _ h => let ⟨r, hr, hm, _⟩ := row_of_decode h; ⟨r, hr, hm⟩,
    fun _ _ hr _ hq hwr hwq => eq_of_matches hr hq hwr hwq⟩

/-! ### Unknown words -/

theorem decode_error_iff (w : InstrWord) :
    (∃ e, decode w = .error e) ↔ ∀ r ∈ opcodeRows, w &&& r.mask ≠ r.pattern := by
  constructor
  · rintro ⟨e, he⟩ r hr hw
    obtain ⟨i, hi, _⟩ := rowDecodes r hr w hw
    cases he.symm.trans hi
  · intro hno
    cases hd : decode w with
    | error e => exact ⟨e, rfl⟩
    | ok i =>
      obtain ⟨r, hr, _, hw⟩ := row_of_decode hd
      exact absurd hw (hno r hr)

/-- The codes 15 to 31 stand for no condition (R116). -/
theorem ofCode_reserved {k : BitVec 5} (h : 15 ≤ k.toNat) : Cond.ofCode k = none := by
  rw [Option.eq_none_iff_forall_ne_some]
  intro c hc
  have hlt : c.code.toNat < 15 := by cases c <;> decide
  rw [code_of_ofCode k c hc] at hlt
  omega

theorem decode_eq_condFormat {w : InstrWord} (h : op8 w = Opcode.bcond) :
    decode w = condFormat w := by
  have h6 : op6 w = Opcode.bcond.extractLsb' 2 6 := by
    rw [← cbWord_eq h rfl, op6_cbWord]
  simp only [decode, h6, h]
  rfl

theorem decode_condReserved {w : InstrWord} (h : op8 w = Opcode.bcond)
    (hk : 15 ≤ (rdField w).toNat) : decode w = .error .condReserved := by
  rw [decode_eq_condFormat h, condFormat, ofCode_reserved hk]

theorem decode_nopSpace {w : InstrWord} (h : op11 w = Opcode.nop) (hw : w ≠ nopWord) :
    decode w = .error .nopSpace := by
  simp only [decode, decodeI, decodeR, decodeD, op6_eq, op8_eq, op9_eq, op10_eq, h, if_neg hw]
  rfl

/-- Settles O8, from the opcode map (O3) and the decoder on the classes that the spec names. -/
theorem unknownWordsAreThoseOfNoRow : Obligations.UnknownWordsAreThoseOfNoRow :=
  ⟨decode_error_iff, fun _ h hk => decode_condReserved h hk, fun _ h hw => decode_nopSpace h hw,
    rfl⟩

/-! ### Don't-care bits -/

/-- Settles O9: the row's test and the encoder see only the bits on which the two words agree, and
no two instructions have one word. -/
theorem dontCareBitsAreIgnored : Obligations.DontCareBitsAreIgnored := by
  refine ⟨fun w w' i hd hw => ?_, fun w i hd =>
    ignoredBits_eq_dontCareBits (encodesTo_of_decode w i hd).wellFormed⟩
  obtain ⟨henc, hwf⟩ := encodesTo_of_decode w i hd
  obtain ⟨r, hr, hm, hmatch⟩ := row_of_decode hd
  rw [← matches_iff_of_ignoredBits hwf hr hm, hw, matches_iff_of_ignoredBits hwf hr hm] at hmatch
  obtain ⟨j, hd', hm'⟩ := rowDecodes r hr w' hmatch
  obtain ⟨henc', hwf'⟩ := encodesTo_of_decode w' j hd'
  have hign : ignoredBits j = ignoredBits i := by
    rw [ignoredBits_eq_dontCareBits hwf', ignoredBits_eq_dontCareBits hwf, hm', hm]
  rw [hign, ← hw, ← henc] at henc'
  rw [hd', encode_injective hwf' hwf henc']

end Sys2Proof.Proofs
end

section
/-! The machine-code breakdown (30_encoding.md R135). -/

namespace Sys2Proof.Proofs

open Sys2Proof Sys2Proof.Machine

/-- The fields of a list, each shifted to its place, sum to `n`. -/
def SumTo (fs : List Field) (n : Nat) : Prop := (fs.map fun f => f.value <<< f.lo).sum = n

theorem sumTo_nil (w : InstrWord) : SumTo [] (w.toNat % 2 ^ 0) := (Nat.mod_one _).symm

/-- A field above fields that make the word up to its low end makes the word up to its high end. -/
theorem sumTo_cons {w : InstrWord} {name : String} {hi lo : Nat} {fs : List Field}
    (hlo : lo ≤ hi + 1) (h : SumTo fs (w.toNat % 2 ^ lo)) :
    SumTo (fieldAt w name hi lo :: fs) (w.toNat % 2 ^ (hi + 1)) := by
  have hsplit : 2 ^ (hi + 1) = 2 ^ lo * 2 ^ (hi + 1 - lo) := by rw [← pow_add]; congr 1; omega
  rw [SumTo, List.map_cons, List.sum_cons, h, hsplit, Nat.mod_mul]
  simp only [fieldAt, BitVec.extractLsb'_toNat, Nat.shiftLeft_eq, Nat.shiftRight_eq_div_pow]
  ring

/-- The fields of a format tile the word, from bit 31 down to bit 0 (R104 to R109). -/
theorem sumTo_fieldsOf {f : Format} (hf : f ≠ .none) (w : InstrWord) :
    SumTo (fieldsOf f w) w.toNat := by
  rw [← Nat.mod_eq_of_lt w.isLt]
  cases f
  case none => exact absurd rfl hf
  case r | d =>
    iterate 5 refine sumTo_cons (by decide) ?_
    exact sumTo_nil w
  case i | im =>
    iterate 4 refine sumTo_cons (by decide) ?_
    exact sumTo_nil w
  case b =>
    iterate 2 refine sumTo_cons (by decide) ?_
    exact sumTo_nil w
  case cb =>
    iterate 3 refine sumTo_cons (by decide) ?_
    exact sumTo_nil w

/-- Settles O11, for each format from the lowest field up. -/
theorem breakdownFieldsTileTheWord : Obligations.BreakdownFieldsTileTheWord := by
  intro w i hd hf
  rw [breakdown, hd]
  exact sumTo_fieldsOf hf w

end Sys2Proof.Proofs
end

section
/-! The slots of an assembled program (30_encoding.md R127, R132, R133). -/

namespace Sys2Proof.Proofs

open Sys2Proof Sys2Proof.Machine Sys2Proof.Machine.Asm

theorem errorSlot_wellFormed (e : AsmError) : (errorSlot e).wellFormed = true := by
  cases e <;> rfl

/-- A slot with neither mark is well-formed, whatever its word. -/
theorem plainSlot_wellFormed (w : InstrWord) : (Slot.mk w false none).wellFormed = true := rfl

/-- A label branch with offset 0 is a placeholder (R132). -/
theorem placeholderBranch_encode (f : BranchForm) :
    placeholderBranch (encode (f.instr 0)) = true := by
  cases f with
  | b => rfl
  | bl => rfl
  | cbz rt => revert rt; decide
  | cbnz rt => revert rt; decide
  | cond c => cases c <;> rfl

theorem branchSlot_wellFormed (f : BranchForm) (p : Word) (target : Option Word) :
    (branchSlot f p target).wellFormed = true := by
  unfold branchSlot
  split
  · simp [Slot.wellFormed, placeholderBranch_encode]
  · split
    · exact plainSlot_wellFormed _
    · exact errorSlot_wellFormed _

theorem slotOf_wellFormed (base : Word) (es : List Entry) (p : Word) (body : Text) :
    (slotOf base es p body).wellFormed = true := by
  unfold slotOf
  split
  · exact errorSlot_wellFormed _
  · exact plainSlot_wellFormed _
  · exact branchSlot_wellFormed ..

theorem slotsFrom_wellFormed (base : Word) (all es : List Entry) (i : Nat) :
    ∀ sl ∈ slotsFrom base all es i, sl.wellFormed = true := by
  induction es generalizing i with
  | nil => exact fun _ h => nomatch h
  | cons e es ih =>
    cases e with
    | marker l => exact ih i
    | instr text body =>
      exact List.forall_mem_cons.mpr ⟨slotOf_wellFormed .., ih (i + 1)⟩

theorem length_slotsFrom (base : Word) (all es : List Entry) (i : Nat) :
    (slotsFrom base all es i).length = slotCount es := by
  induction es generalizing i with
  | nil => rfl
  | cons e es ih =>
    cases e with
    | marker l => exact ih i
    | instr text body => exact congrArg (· + 1) (ih (i + 1))

/-- Settles O60, by induction on the entries. -/
theorem assembledSlotsAreWellFormed : Obligations.AssembledSlotsAreWellFormed :=
  ⟨fun base _ => slotsFrom_wellFormed base _ _ 0, fun base _ => length_slotsFrom base _ _ 0⟩

end Sys2Proof.Proofs
end

section
/-! What the additive and subtractive flags say of their operands: carry-out, no borrow and signed
overflow (40_alu.md R162, R163). -/

namespace Sys2Proof.Proofs

open Sys2Proof Sys2Proof.Machine

/-- The sign bit is N of R162 to R164. -/
theorem msb_iff_toInt_neg (x : Word) : x.msb = true ↔ x.toInt < 0 := by
  rw [BitVec.msb_eq_toInt, decide_eq_true_iff]

theorem toNat_add_lt_left_iff (a b : Word) :
    (a + b).toNat < a.toNat ↔ 2 ^ 64 ≤ a.toNat + b.toNat := by
  rw [BitVec.toNat_add]
  omega

/-- The carry-out reads the same off either operand. -/
theorem toNat_add_lt_right_iff (a b : Word) :
    (a + b).toNat < b.toNat ↔ 2 ^ 64 ≤ a.toNat + b.toNat := by
  rw [BitVec.add_comm, toNat_add_lt_left_iff, Nat.add_comm]

/-- Two's complement: a + ~b + 1 carries out of bit 63 where a - b does not borrow. -/
theorem carryOut_add_not_iff (a b : Word) :
    2 ^ 64 ≤ a.toNat + (~~~b).toNat + 1 ↔ b.toNat ≤ a.toNat := by
  rw [BitVec.toNat_not]
  omega

theorem addFlags_c_iff (a b r : Word) :
    (addFlags a b r).c = true ↔ r.toNat < a.toNat ∨ r.toNat < b.toNat := by
  simp [addFlags]

theorem subFlags_c_iff (a b r : Word) : (subFlags a b r).c = true ↔ b.toNat ≤ a.toNat :=
  decide_eq_true_iff

/-- The sign-bit formula of R162 is set where the operands' signs agree and the result's differs. -/
theorem addFlags_v_iff (a b r : Word) :
    (addFlags a b r).v = true ↔
      (a.toInt < 0 ↔ b.toInt < 0) ∧ ¬ (r.toInt < 0 ↔ a.toInt < 0) := by
  simp only [addFlags, BitVec.msb_and, BitVec.msb_xor, ← msb_iff_toInt_neg]
  cases a.msb <;> cases b.msb <;> cases r.msb <;> decide

/-- The sign-bit formula of R163 is the library's test for signed overflow of a subtraction. -/
theorem subFlags_v_eq_ssubOverflow (a b : Word) :
    (subFlags a b (a - b)).v = a.ssubOverflow b := by
  simp only [subFlags, BitVec.msb_and, BitVec.msb_xor, BitVec.ssubOverflow_eq]
  cases a.msb <;> cases b.msb <;> cases (a - b).msb <;> rfl

/-- Settles O12: each formula of R162 through the carry-out and the signs. -/
theorem addFlagsAreCarryOutAndSignedOverflow :
    Obligations.AddFlagsAreCarryOutAndSignedOverflow := by
  intro a b
  have hl := toNat_add_lt_left_iff a b
  have hr := toNat_add_lt_right_iff a b
  refine ⟨beq_iff_eq, msb_iff_toInt_neg _, addFlags_c_iff a b _, hl.trans hr.symm, ?_,
    msb_iff_toInt_neg _, addFlags_v_iff a b _⟩
  rw [addFlags_c_iff, hl, hr, or_self]

/-- Settles O13: each formula of R163 through the borrow and the signed difference. -/
theorem subFlagsAreNoBorrowAndSignedOverflow :
    Obligations.SubFlagsAreNoBorrowAndSignedOverflow := by
  intro a b
  have hc := subFlags_c_iff a b (a - b)
  refine ⟨beq_iff_eq, msb_iff_toInt_neg _, hc, hc.trans (carryOut_add_not_iff a b).symm,
    msb_iff_toInt_neg _, ?_⟩
  rw [subFlags_v_eq_ssubOverflow]
  simp [BitVec.ssubOverflow, or_comm]

end Sys2Proof.Proofs
end

section
/-! The results of the ALU instructions (40_alu.md R160, R170 to R196): each is one write of a
register result, with or without the flags, and the sequential advance. -/

namespace Sys2Proof.Proofs

open Sys2Proof Sys2Proof.Machine

/-! ### The shared operations -/

/-- All that an ALU operation without flags does. -/
theorem aluOp_spec (s : State) (op : AluOp) (rd : Reg) (a b : Word) :
    ResultOnly s (s.aluOp op rd a b) rd (op.result a b) :=
  s.writeResult_spec rd _

/-- All that an ALU operation with flags does. -/
theorem aluOpFlags_spec (s : State) (op : AluOp) (rd : Reg) (a b : Word) :
    ResultAndFlags s (s.aluOpFlags op rd a b) rd (op.result a b) (op.flags a b) :=
  s.writeResultFlags_spec rd _ _

/-- All that a comparison does. -/
theorem setFlags_advance_spec (s : State) (f : Flags) : FlagsOnly s (s.setFlags f).advance f :=
  ⟨fun _ => rfl, rfl, rfl, fun _ => rfl, rfl, ⟨rfl, rfl, rfl, rfl, rfl, rfl⟩⟩

/-- With destination XZR only the flags are left to write (R166). -/
theorem writeResultFlags_xzr (s : State) (v : Word) (f : Flags) :
    s.writeResultFlags 31#5 v f = (s.setFlags f).advance := by
  rw [State.writeResultFlags, State.writeReg_xzr]

/-! ### Add, subtract and compare -/

/-- Settles O14: four uses of the ALU without flags. -/
theorem addAndSubtractResults : Obligations.AddAndSubtractResults :=
  ⟨fun s rd _ _ => ⟨_, rfl, aluOp_spec s .add rd _ _⟩,
    fun s rd _ _ => ⟨_, rfl, aluOp_spec s .add rd _ _⟩,
    fun s rd _ _ => ⟨_, rfl, aluOp_spec s .sub rd _ _⟩,
    fun s rd _ _ => ⟨_, rfl, aluOp_spec s .sub rd _ _⟩⟩

/-- Settles O15: four uses of the ALU with flags. -/
theorem addAndSubtractFlagSettingResults : Obligations.AddAndSubtractFlagSettingResults :=
  ⟨fun s rd _ _ => ⟨_, rfl, aluOpFlags_spec s .add rd _ _⟩,
    fun s rd _ _ => ⟨_, rfl, aluOpFlags_spec s .add rd _ _⟩,
    fun s rd _ _ => ⟨_, rfl, aluOpFlags_spec s .sub rd _ _⟩,
    fun s rd _ _ => ⟨_, rfl, aluOpFlags_spec s .sub rd _ _⟩⟩

/-- Settles O16: a comparison is a subtraction whose result XZR discards. -/
theorem compareSetsFlagsOnly : Obligations.CompareSetsFlagsOnly :=
  ⟨fun s _ _ => ⟨_, rfl, setFlags_advance_spec s _,
      congrArg Host.Outcome.next (writeResultFlags_xzr s _ _)⟩,
    fun s _ _ => ⟨_, rfl, setFlags_advance_spec s _,
      congrArg Host.Outcome.next (writeResultFlags_xzr s _ _)⟩⟩

/-! ### Logic -/

/-- ORR with Rn = 31 is a move (R123). -/
theorem aluOp_orr_xzr (s : State) (rd : Reg) (v : Word) :
    s.aluOp .orr rd (s.readReg 31#5) v = s.writeResult rd v := by
  simp [State.aluOp, AluOp.result]

/-- Settles O17: six uses of the ALU without flags, and MOV as a plain register result. -/
theorem logicalResults : Obligations.LogicalResults :=
  ⟨fun s rd _ _ => ⟨_, rfl, aluOp_spec s .and rd _ _⟩,
    fun s rd _ _ => ⟨_, rfl, aluOp_spec s .and rd _ _⟩,
    fun s rd _ _ => ⟨_, rfl, aluOp_spec s .orr rd _ _⟩,
    fun s rd _ _ => ⟨_, rfl, aluOp_spec s .orr rd _ _⟩,
    fun s rd _ _ => ⟨_, rfl, aluOp_spec s .eor rd _ _⟩,
    fun s rd _ _ => ⟨_, rfl, aluOp_spec s .eor rd _ _⟩,
    fun s rd _ => ⟨_, rfl, s.writeResult_spec rd _,
      congrArg Host.Outcome.next (aluOp_orr_xzr s rd _)⟩⟩

/-- The logical flags written out by R164. -/
theorem logicFlags_eq (r : Word) :
    logicFlags r = ⟨decide (r = 0), decide (r.toInt < 0), false, false⟩ := by
  rw [logicFlags, BitVec.msb_eq_toInt, beq_eq_decide]

/-- An AND with flags, its flags written out by R164. -/
theorem aluOpFlags_and_spec (s : State) (rd : Reg) (a b : Word) :
    ResultAndFlags s (s.aluOpFlags .and rd a b) rd (a &&& b)
      ⟨decide (a &&& b = 0), decide ((a &&& b).toInt < 0), false, false⟩ :=
  logicFlags_eq (a &&& b) ▸ aluOpFlags_spec s .and rd a b

/-- Settles O18: two uses of the AND with flags. -/
theorem logicalFlagSettingResults : Obligations.LogicalFlagSettingResults :=
  ⟨fun s rd _ _ => ⟨_, rfl, aluOpFlags_and_spec s rd _ _⟩,
    fun s rd _ _ => ⟨_, rfl, aluOpFlags_and_spec s rd _ _⟩⟩

/-! ### Shifts -/

theorem shiftLeft_eq_mul (a : Word) (sh : BitVec 6) :
    shiftLeft a sh = BitVec.ofNat 64 (a.toNat * 2 ^ sh.toNat) := by
  apply BitVec.eq_of_toNat_eq
  simp [shiftLeft, Nat.shiftLeft_eq]

theorem shiftRight_eq_div (a : Word) (sh : BitVec 6) :
    shiftRight a sh = BitVec.ofNat 64 (a.toNat / 2 ^ sh.toNat) := by
  have hlt : a.toNat / 2 ^ sh.toNat < 2 ^ 64 := (Nat.div_le_self _ _).trans_lt a.isLt
  apply BitVec.eq_of_toNat_eq
  rw [shiftRight, BitVec.toNat_ushiftRight, Nat.shiftRight_eq_div_pow, BitVec.toNat_ofNat,
    Nat.mod_eq_of_lt hlt]

/-- Settles O19: the shifted values are the product and the quotient. -/
theorem shiftResults : Obligations.ShiftResults :=
  ⟨fun s rd rn sh => ⟨_, rfl, shiftLeft_eq_mul (s.readReg rn) sh ▸ s.writeResult_spec rd _⟩,
    fun s rd rn sh => ⟨_, rfl, shiftRight_eq_div (s.readReg rn) sh ▸ s.writeResult_spec rd _⟩⟩

/-! ### Wide moves, halfword by halfword -/

/-- Halfword `j` of a word, the 16 bits from bit 16·j up, as O20 reads it. -/
def halfword (v : Word) (j : Nat) : BitVec 16 := v.extractLsb' (16 * j) 16

theorem halfword_and (v w : Word) (j : Nat) :
    halfword (v &&& w) j = halfword v j &&& halfword w j :=
  BitVec.extractLsb'_and

theorem halfword_or (v w : Word) (j : Nat) :
    halfword (v ||| w) j = halfword v j ||| halfword w j :=
  BitVec.extractLsb'_or

theorem halfword_not (v : Word) {j : Nat} (hj : j < 4) : halfword (~~~v) j = ~~~halfword v j := by
  refine BitVec.eq_of_getLsbD_eq fun i hi => ?_
  have hlt : 16 * j + i < 64 := by omega
  simp [halfword, hi, hlt]

/-- MOVZ's value holds the immediate in halfword hw and 0 in the others (R195). -/
theorem halfword_wideZero (hw : BitVec 2) (imm : BitVec 16) {j : Nat} (hj : j < 4) :
    halfword (wideZero hw imm) j = if j = hw.toNat then imm else 0 := by
  refine BitVec.eq_of_getLsbD_eq fun i hi => ?_
  have hlt : 16 * j + i < 64 := by omega
  simp only [halfword, wideZero, wideShift, BitVec.getLsbD_extractLsb', BitVec.getLsbD_shiftLeft,
    BitVec.getLsbD_setWidth, hi, hlt, decide_true, Bool.true_and]
  rcases lt_trichotomy j hw.toNat with h | rfl | h
  · have hbelow : 16 * j + i < 16 * hw.toNat := by omega
    simp [hbelow, h.ne]
  · have hin : i < 64 := by omega
    simp [hin]
  · have habove : 16 ≤ 16 * j + i - 16 * hw.toNat := by omega
    simp [BitVec.getLsbD_of_ge imm _ habove, h.ne']

/-- MOVK's value holds the immediate in halfword hw and the old halfwords elsewhere (R196). -/
theorem halfword_wideKeep (old : Word) (hw : BitVec 2) (imm : BitVec 16) {j : Nat} (hj : j < 4) :
    halfword (wideKeep old hw imm) j = if j = hw.toNat then imm else halfword old j := by
  have hmask : wideKeep old hw imm = (old &&& ~~~wideZero hw 0xFFFF) ||| wideZero hw imm := rfl
  rw [hmask, halfword_or, halfword_and, halfword_not _ hj, halfword_wideZero hw _ hj,
    halfword_wideZero hw _ hj]
  split
  · simp
  · exact BitVec.or_zero.trans BitVec.and_allOnes

/-- Settles O20: the two values, by the spec's formula and by halfwords. -/
theorem wideMoveResults : Obligations.WideMoveResults :=
  ⟨fun s rd hw imm => ⟨_, _, rfl, s.writeResult_spec rd _, rfl, fun _ => halfword_wideZero hw imm⟩,
    fun s rd hw imm => ⟨_, _, rfl, s.writeResult_spec rd _, rfl,
      fun _ => halfword_wideKeep (s.readReg rd) hw imm⟩⟩

end Sys2Proof.Proofs
end

section
/-! Which instructions write the flags (40_alu.md R161). -/

namespace Sys2Proof.Proofs

open Sys2Proof Sys2Proof.Machine

/-- The control signal flagWrite, by R161's list. -/
theorem flagWrite_eq_decide (i : Instr) :
    (ctrlOf i).flagWrite = decide (i.mnemonic ∈
      (["ADDS", "ADDIS", "SUBS", "SUBIS", "ANDS", "ANDIS", "CMP", "CMPI"] : List String)) := by
  cases i <;> rfl

theorem writeResultFlags_setFlags (s : State) (rd : Reg) (v : Word) (f g : Flags) :
    (s.setFlags f).writeResultFlags rd v g = s.writeResultFlags rd v g := by
  rw [State.writeResultFlags, ← setFlags_writeReg]
  rfl

/-- An instruction with flagWrite = 1 does not see the flags it overwrites. -/
theorem exec_setFlags {i : Instr} (h : (ctrlOf i).flagWrite = true) (s : State) (f : Flags) :
    exec i (s.setFlags f) = exec i s := by
  cases i
  case adds | addis | subs | subis | ands | andis =>
    exact congrArg Host.Outcome.next (writeResultFlags_setFlags s _ _ f _)
  case cmp | cmpi => rfl
  all_goals exact absurd h Bool.false_ne_true

/-- An instruction with flagWrite = 0 keeps the flags, whatever the shape of its meaning. -/
theorem exec_flags_of_not_flagWrite {i : Instr} {s t : State} (hf : (ctrlOf i).flagWrite = false)
    (h : exec i s = .next t) : t.flags = s.flags := by
  rcases exec_shape h with h | ⟨_, _, _, _, _, fw, _, _, _⟩ | ⟨_, _, _, fw, _, _, _⟩ |
    h | h | h | h | h | h | h
  case resultFlags | flags => simp [hf] at fw
  all_goals rename t = _ => eq; subst eq
  case result | store | loadExclusive | storeExclusive | nop => simp
  case branch => exact State.labelBranch_keeps State.flags _ _ _ _ rfl rfl rfl rfl
  case branchLink => exact State.labelBranch_keeps State.flags _ _ _ _ rfl rfl (by simp) rfl
  case branchReg => exact State.taken_keeps State.flags _ _ _ rfl rfl

/-- Settles O21, for every instruction. -/
theorem flagsChangeOnlyByFlagSettingInstructions :
    Obligations.FlagsChangeOnlyByFlagSettingInstructions :=
  ⟨fun i => by rw [flagWrite_eq_decide, decide_eq_true_iff], fun _ s f h => exec_setFlags h s f,
    fun _ _ _ hf h => exec_flags_of_not_flagWrite hf h⟩

end Sys2Proof.Proofs
end

section
/-! The results of the load/store unit (41_loadstore.md R222 to R242): a load is one write of a
register result, a store one MemWrite, and LDXR and STXR are a load and a store beside the monitor. -/

namespace Sys2Proof.Proofs

open Sys2Proof Sys2Proof.Machine

/-! ### Loads and stores -/

/-- Settles O30: each load is a plain register result. -/
theorem loadResults : Obligations.LoadResults :=
  ⟨fun s rt _ _ => ⟨_, rfl, s.writeResult_spec rt _⟩,
    fun s rt _ _ => ⟨_, rfl, s.writeResult_spec rt _⟩,
    fun s rt _ _ => ⟨_, rfl, s.writeResult_spec rt _⟩,
    fun s rt _ _ => ⟨_, rfl, s.writeResult_spec rt _⟩,
    fun _ _ _ => rfl⟩

/-- Settles O31: each store is a MemWrite of its width and the sequential advance. -/
theorem storeResults : Obligations.StoreResults :=
  ⟨fun s _ _ _ => ⟨_, rfl, s.store_spec .double _ _⟩,
    fun s _ _ _ => ⟨_, rfl, s.store_spec .byte _ _⟩,
    fun s _ _ _ => ⟨_, rfl, s.store_spec .half _ _⟩,
    fun s _ _ _ => ⟨_, rfl, s.store_spec .word _ _⟩⟩

/-! ### LDXR -/

/-- A reservation touches only the monitor, so a register result after it is one of the old state. -/
theorem sameRun_of_reserve {s t : State} {ea : Word} (h : SameRun (s.reserve ea) t) : SameRun s t :=
  ⟨h.status, h.trace, h.last, h.imem, h.base, h.spInit⟩

/-- Settles O32: LDXR is the register result of LDUR on the state that holds the reservation. -/
theorem loadExclusiveResult : Obligations.LoadExclusiveResult := by
  intro s rt rn off
  have h := (s.reserve (s.ea rn off)).writeResult_spec rt
    ((s.load .double (s.ea rn off)).setWidth 64)
  have hv : (s.load .double (s.ea rn off)).setWidth 64 = memRead s.mem (s.ea rn off) 8 :=
    BitVec.setWidth_eq _
  exact ⟨_, rfl, h.excl, hv ▸ h.result, h.regs, h.flags, h.pc, h.mem, sameRun_of_reserve h.run⟩

/-! ### STXR -/

/-- STXR ends the reservation and keeps its address, whether or not it stored (R241). -/
theorem excl_of_exec_stxr {s t : State} {rs rt rn : Reg} (h : exec (.stxr rs rt rn) s = .next t) :
    t.excl = ⟨false, s.excl.addr⟩ := by
  cases h
  simp

theorem pc_of_exec_stxr {s t : State} {rs rt rn : Reg} (h : exec (.stxr rs rt rn) s = .next t) :
    t.pc = s.pc + 4 := by
  cases h
  simp

theorem sameRun_of_exec_stxr {s t : State} {rs rt rn : Reg}
    (h : exec (.stxr rs rt rn) s = .next t) : SameRun s t := by
  cases h
  constructor <;> simp

/-- An STXR whose address is not reserved stores nothing and writes status 1 (R241). -/
theorem exec_stxr_of_mismatch {s t : State} {rs rt rn : Reg} (h : exec (.stxr rs rt rn) s = .next t)
    (hm : ¬ (s.excl.valid = true ∧ s.excl.addr = s.readReg rn)) :
    SameMem s t ∧ t.readReg rs = if rs = 31 then 0 else 1 := by
  refine ⟨onlyStoresChangeMemory.2 _ s t h (if_neg hm), ?_⟩
  cases h
  rw [State.storeExclusive_of_mismatch rs rt hm]
  simp [State.readReg_writeReg]

/-- Settles O33: the frame holds either way, and the two outcomes are the match and the mismatch. -/
theorem storeExclusiveResult : Obligations.StoreExclusiveResult := by
  intro s rs rt rn
  obtain ⟨t, h⟩ := exec_answers_next (.stxr rs rt rn) s
  have hregs : SameRegsBut s t rs := fun q hq =>
    onlyTheDestinationRegisterChanges _ s t q h fun hd => hq (Option.some.inj hd).symm
  refine ⟨t, h, excl_of_exec_stxr h, hregs, exec_flags_of_not_flagWrite rfl h, pc_of_exec_stxr h,
    sameRun_of_exec_stxr h, fun hm => ?_, exec_stxr_of_mismatch h⟩
  obtain ⟨hstatus, hstored⟩ := exec_stxr_of_match h hm
  exact ⟨hstored, onlyStoresChangeMemory.1 _ s t _ _ h (if_pos hm), hstatus⟩

/-! ### The reservation -/

/-- A slot is skipped for an assembler error or for an Unknown word, and for nothing else (R42). -/
theorem issueSlot_eq_skip {s t : State} {sl : Slot} (h : s.issueSlot sl = .skip t) :
    (∃ e, t = s.skipAsmError sl e) ∨ t = s.skipUnknown sl := by
  cases he : sl.asmError with
  | some e => exact .inl ⟨e, by simpa [State.issueSlot, he, eq_comm] using h⟩
  | none =>
    cases hd : decode sl.word with
    | error e => exact .inr (by simpa [State.issueSlot, he, hd, eq_comm] using h)
    | ok i => simp [State.issueSlot, he, hd] at h

theorem issue_eq_skip {s t : State} (h : s.issue = .skip t) : ∃ sl, s.issueSlot sl = .skip t := by
  by_cases hs : s.status = .running
  · cases hsl : s.slotHere? with
    | some sl => exact ⟨sl, by simpa [State.issue, hs, hsl] using h⟩
    | none => simp [State.issue, hs, hsl] at h
  · simp [State.issue, hs] at h

theorem excl_of_issue_skip {s t : State} (h : s.issue = .skip t) : t.excl = s.excl := by
  obtain ⟨sl, hsl⟩ := issue_eq_skip h
  rcases issueSlot_eq_skip hsl with ⟨e, rfl⟩ | rfl <;> rfl

/-- Settles O34: who keeps the monitor, who clears it, and the exact match of STXR. -/
theorem reservationEndsOnlyByStxrOrReset : Obligations.ReservationEndsOnlyByStxrOrReset :=
  ⟨fun _ _ _ hi h => exec_excl_of_not_exclusive h hi,
    fun _ _ _ _ _ h => by rw [excl_of_exec_stxr h],
    fun _ _ => ⟨rfl, rfl⟩,
    fun _ _ h => excl_of_issue_skip h,
    fun _ _ _ _ _ ha h => (exec_stxr_of_mismatch h fun hm => ha hm.2).1⟩

end Sys2Proof.Proofs
end

section
/-! The branch unit (42_branch.md R260 to R271): which targets are valid, what each branch does, and
that a resolved branch of the assembler (R132, R268) goes to its label. -/

namespace Sys2Proof.Proofs

open Sys2Proof Sys2Proof.Machine

/-! ### Valid targets -/

/-- Settles O37, from the law of `State.validTarget`. -/
theorem validTargetsAreTheSlotAddresses : Obligations.ValidTargetsAreTheSlotAddresses :=
  State.validTarget_iff

/-! ### B, BL and BR -/

/-- A label branch that writes no register, in its four cases. -/
theorem labelBranchMeans_of_exec {i : Instr} {s : State} {b : Bool} {take : Prop} {target : Word}
    (hi : exec i s = .next (s.labelBranch b target s)) (hb : b = true ↔ take) :
    LabelBranchMeans i s take target (SameRegs s) :=
  .of_labelBranch hi hb (s.jump_spec target) fun _ => rfl

/-- A register write before the jump leaves all that `Jumped` speaks of as the jump leaves it. -/
theorem jumped_writeReg_jump (s : State) (r : Reg) (v target : Word) :
    Jumped s ((s.writeReg r v).jump target) target := by
  rw [jump_writeReg]
  constructor <;> simp [SameMem]

theorem sameRegsBut_writeReg_jump (s : State) (r : Reg) (v target : Word) :
    SameRegsBut s ((s.writeReg r v).jump target) r :=
  fun _ hq => s.readReg_writeReg_other hq v

/-- BL is a label branch that is always taken and writes its link with the jump (R263). -/
theorem bl_means (s : State) (off : BitVec 26) :
    LabelBranchMeans (.bl off) s True (s.target26 off)
      (fun t => t.readReg lr = s.pc + 4 ∧ SameRegsBut s t lr) :=
  .of_labelBranch rfl (iff_of_true rfl trivial) (jumped_writeReg_jump ..)
    ⟨s.readReg_writeReg_same (by decide) _, sameRegsBut_writeReg_jump _ _ _ _⟩

/-- BR to the address of a slot jumps, whatever the unresolved bit (R264). -/
theorem exec_br_of_valid {s : State} {rn : Reg} (hv : s.validTarget (s.readReg rn) = true) :
    exec (.br rn) s = .next (s.jump (s.readReg rn)) :=
  congrArg Host.Outcome.next (if_pos hv)

/-- BR to any other address is the fatal event (R260). -/
theorem exec_br_of_invalid {s : State} {rn : Reg} (hv : s.validTarget (s.readReg rn) = false) :
    exec (.br rn) s = .next (s.invalidBranchTarget (s.readReg rn)) :=
  congrArg Host.Outcome.next (if_neg (Bool.eq_false_iff.mp hv))

/-- Settles O38: B and BL are label branches that are always taken, BR has both outcomes of Taken. -/
theorem unconditionalBranchMeanings : Obligations.UnconditionalBranchMeanings :=
  ⟨fun _ _ => labelBranchMeans_of_exec rfl (iff_of_true rfl trivial), bl_means,
    fun s _ => ⟨fun hv => ⟨_, exec_br_of_valid hv, s.jump_spec _, fun _ => rfl⟩,
      fun hv => ⟨_, exec_br_of_invalid hv, s.invalidBranchTarget_spec _⟩⟩⟩

/-! ### CBZ and CBNZ -/

/-- Settles O39: the condition is the test of the one register against 0. -/
theorem compareBranchMeanings : Obligations.CompareBranchMeanings :=
  ⟨fun _ _ _ => labelBranchMeans_of_exec rfl beq_iff_eq,
    fun _ _ _ => labelBranchMeans_of_exec rfl bne_iff_ne⟩

/-! ### B.cond -/

/-- The table of R270, as propositions on the flags. -/
def CondMeans (f : Flags) : Cond → Prop
  | .eq => f.z = true
  | .ne => f.z = false
  | .hs => f.c = true
  | .lo => f.c = false
  | .mi => f.n = true
  | .pl => f.n = false
  | .vs => f.v = true
  | .vc => f.v = false
  | .hi => f.c = true ∧ f.z = false
  | .ls => ¬ (f.c = true ∧ f.z = false)
  | .ge => f.n = f.v
  | .lt => f.n ≠ f.v
  | .gt => f.z = false ∧ f.n = f.v
  | .le => f.z = true ∨ f.n ≠ f.v
  | .al => True

theorem condHolds_iff (c : Cond) (f : Flags) : condHolds c f = true ↔ CondMeans f c := by
  cases c with
  | ls => simp [condHolds, CondMeans, imp_iff_not_or]
  | _ => simp [condHolds, CondMeans]

theorem exec_bcond (c : Cond) (off : BitVec 19) (s : State) :
    exec (.bcond c off) s = .next (s.condBranch c off) := by
  cases c <;> rfl

/-- Every B.cond is a label branch on its row of R270. -/
theorem bcond_means (c : Cond) (s : State) (off : BitVec 19) :
    LabelBranchMeans (.bcond c off) s (CondMeans s.flags c) (s.target19 off) (SameRegs s) :=
  labelBranchMeans_of_exec (exec_bcond c off s) (condHolds_iff c s.flags)

/-- Settles O40, condition by condition. -/
theorem conditionalBranchMeanings : Obligations.ConditionalBranchMeanings :=
  ⟨bcond_means .eq, bcond_means .ne, bcond_means .hs, bcond_means .lo, bcond_means .mi,
    bcond_means .pl, bcond_means .vs, bcond_means .vc, bcond_means .hi, bcond_means .ls,
    bcond_means .ge, bcond_means .lt, bcond_means .gt, bcond_means .le, bcond_means .al⟩

/-! ### Resolved branches of the assembler -/

/-- An offset that fits its field is what the decoder's sign extension gives back (R114, R115). -/
theorem signExtend_ofInt {n : Nat} {d : Int} (hl : -2 ^ n ≤ d) (hu : d < 2 ^ n) :
    (BitVec.ofInt (n + 1) d).signExtend 64 = BitVec.ofInt 64 d :=
  congrArg (BitVec.ofInt 64) (BitVec.toInt_ofInt_eq_self n.succ_pos hl hu)

/-- Addresses that agree modulo 4 are a whole number of words apart, also across 2^64 (log 6). -/
theorem four_dvd_toInt_sub {p t : Word} (h : p.toNat % 4 = t.toNat % 4) : 4 ∣ (t - p).toInt := by
  rw [BitVec.toInt_eq_toNat_cond, BitVec.toNat_sub]
  omega

/-- The word offset shifted left by 2 leads from `p` to `t` (R132). -/
theorem add_wordOffset_shiftLeft {p t : Word} (h : p.toNat % 4 = t.toNat % 4) :
    p + BitVec.ofInt 64 (Asm.wordOffset p t) <<< 2 = t :=
  calc p + BitVec.ofInt 64 (Asm.wordOffset p t) <<< 2
      = p + BitVec.ofInt 64 (Asm.wordOffset p t * 4) := by
        rw [BitVec.shiftLeft_eq_mul_twoPow, BitVec.ofInt_mul]; rfl
    _ = p + (t - p) := by
        rw [Asm.wordOffset, Int.ediv_mul_cancel (four_dvd_toInt_sub h), BitVec.ofInt_toInt]
    _ = t := by rw [BitVec.add_comm, BitVec.sub_add_cancel]

theorem wellFormed_branchForm_instr (f : Asm.BranchForm) (d : Int) :
    (f.instr d).wellFormed = true := by
  cases f with
  | cond c => exact wellFormed_bcond c _
  | _ => rfl

theorem branchForm_fits_iff (f : Asm.BranchForm) (d : Int) :
    f.fits d = true ↔ -(2 : Int) ^ (f.width - 1) ≤ d ∧ d < (2 : Int) ^ (f.width - 1) := by
  simp [Asm.BranchForm.fits]

theorem labelTarget?_bcond (c : Cond) (off : BitVec 19) (s : State) :
    (Instr.bcond c off).labelTarget? s = some (s.target19 off) := by
  cases c <;> rfl

/-- The target of a label branch whose offset fits is pc plus four times the offset. -/
theorem labelTarget?_branchForm_instr {f : Asm.BranchForm} {d : Int} (h : f.fits d = true)
    (s : State) : (f.instr d).labelTarget? s = some (s.pc + BitVec.ofInt 64 d <<< 2) := by
  obtain ⟨hl, hu⟩ := (branchForm_fits_iff f d).mp h
  rw [← signExtend_ofInt hl hu]
  cases f with
  | cond c => exact labelTarget?_bcond c _ s
  | _ => rfl

/-- The slot of a resolved branch whose offset fits (R132). -/
theorem branchSlot_of_fits {f : Asm.BranchForm} {p t : Word}
    (h : f.fits (Asm.wordOffset p t) = true) :
    Asm.branchSlot f p (some t) = ⟨encode (f.instr (Asm.wordOffset p t)), false, none⟩ :=
  if_pos h

/-- Settles O59: the word is an encoding, and the decoded offset leads back to the label. -/
theorem resolvedBranchesReachTheirLabel : Obligations.ResolvedBranchesReachTheirLabel := by
  rintro f _ t s hmod hfits rfl
  rw [branchSlot_of_fits hfits]
  exact ⟨rfl, rfl, decode_encode (wellFormed_branchForm_instr f _), by
    rw [labelTarget?_branchForm_instr hfits, add_wordOffset_shiftLeft hmod]⟩

end Sys2Proof.Proofs
end

section
/-! NOP and the Unknown words that act as NOP (43_system.md R300, R301). -/

namespace Sys2Proof.Proofs

open Sys2Proof Sys2Proof.Machine

/-! ### NOP -/

/-- No bit of NOP's word is ignored, so encoding gives back the word that decoded to it. -/
theorem decode_eq_nop_iff (w : InstrWord) : decode w = .ok .nop ↔ w = nopWord := by
  constructor
  · intro h
    have henc : nopWord = w &&& BitVec.allOnes 32 := (encodesTo_of_decode w .nop h).encode_eq
    rw [henc, BitVec.and_allOnes]
  · rintro rfl
    rfl

/-- Settles O42: NOP is sequential advance, and its word is the one that decodes to it. -/
theorem nopOnlyAdvances : Obligations.NopOnlyAdvances :=
  ⟨fun s => ⟨s.advance, rfl, s.advance_spec⟩, decode_eq_nop_iff⟩

/-! ### A skipped slot -/

/-- `t` is the Running `s` after a step that skipped the slot with word `w` and raised `e` (R42):
it halts if the next pc is the end address (R43), and nothing else is changed. -/
def SkippedWith (s : State) (w : InstrWord) (e : Event) (t : State) : Prop :=
  t.trace = s.trace ++ [e] ∧ t.pc = s.pc + 4 ∧ t.last = some ⟨s.index, w, zeroCtrl⟩ ∧
  t.status = (if s.pc + 4 = s.endAddr then .halted else .running) ∧
  SameRegs s t ∧ t.flags = s.flags ∧ SameMem s t ∧ t.excl = s.excl ∧ t.imem = s.imem ∧
  t.base = s.base ∧ t.spInit = s.spInit

/-- The snapshot, an event and sequential advance, then the end test: what both skips do. -/
theorem skippedWith_retire {s : State} (hs : s.status = .running) (w : InstrWord) (k : EventKind)
    (info : EventInfo) :
    SkippedWith s w ⟨k, s.pc, info⟩ ((s.snapshot w zeroCtrl).raise k info).advance.retire := by
  have hstatus := State.retire_status_sequential
    (s := ((s.snapshot w zeroCtrl).raise k info).advance) hs rfl
  exact ⟨State.retire_trace _, State.retire_pc _, State.retire_last _, hstatus,
    fun q => State.readReg_retire _ q, State.retire_flags _,
    fun a => congrArg (readByte · a) (State.retire_mem _), State.retire_excl _,
    State.retire_imem _, State.retire_base _, State.retire_spInit _⟩

theorem step_of_issue_skip {s u : State} (h : s.issue = .skip u) : step s = .next u.retire := by
  simp [step, h]

/-! ### Unknown words -/

theorem issue_unknown {s : State} {sl : Slot} {e : UnknownWord} (hs : s.status = .running)
    (hsl : s.slotHere? = some sl) (he : sl.asmError = none) (hd : decode sl.word = .error e) :
    s.issue = .skip (s.skipUnknown sl) := by
  simp [State.issue, State.issueSlot, hs, hsl, he, hd]

/-- Settles O45: the step skips the slot, with the event that carries the word. -/
theorem unknownWordsActAsNop : Obligations.UnknownWordsActAsNop :=
  fun _ sl _ hs hsl he hd => ⟨_, step_of_issue_skip (issue_unknown hs hsl he hd),
    skippedWith_retire hs sl.word .unknownInstruction (.word sl.word)⟩

end Sys2Proof.Proofs
end

section
/-! Events (60_exceptions.md R310 to R318): the fall-through of an unresolved branch, the slots with an
assembler error, what one step can add to the trace, and the fatal event. -/

namespace Sys2Proof.Proofs

open Sys2Proof Sys2Proof.Machine

/-! ### Label branches that are not taken -/

/-- Every label branch is `State.labelBranch` on its own condition and target; BL alone has a write to
hand over. -/
theorem exec_eq_labelBranch {i : Instr} {s : State} {target : Word}
    (h : i.labelTarget? s = some target) :
    ∃ written, exec i s = .next (s.labelBranch (i.branchCondition s) target written) := by
  cases i
  case b | bl | cbz | cbnz | bEq | bNe | bHs | bLo | bMi | bPl | bVs | bVc | bHi | bLs | bGe | bLt |
      bGt | bLe | bAl => cases h; exact ⟨_, rfl⟩
  all_goals cases h

theorem exec_eq_fallThroughUnresolved {i : Instr} {s : State} {target : Word}
    (h : i.labelTarget? s = some target) (hu : s.unresolvedHere = true) :
    exec i s = .next s.fallThroughUnresolved := by
  obtain ⟨_, he⟩ := exec_eq_labelBranch h
  simpa [State.labelBranch, hu] using he

theorem exec_eq_advance_of_not_taken {i : Instr} {s : State} {target : Word}
    (h : i.labelTarget? s = some target) (hu : s.unresolvedHere = false)
    (hc : i.branchCondition s = false) : exec i s = .next s.advance := by
  obtain ⟨_, he⟩ := exec_eq_labelBranch h
  simpa [State.labelBranch, hu, hc] using he

/-- Settles O41: both clauses are a label branch that is not taken, the first with its warning. -/
theorem unresolvedBranchesFallThrough : Obligations.UnresolvedBranchesFallThrough :=
  ⟨fun _ s _ hl hu => ⟨_, exec_eq_fallThroughUnresolved hl hu, s.fallThroughUnresolved_spec⟩,
    fun _ s _ hl hu hc => ⟨_, exec_eq_advance_of_not_taken hl hu hc, s.advance_spec⟩⟩

/-! ### A step, by what stands in its slot (R318) -/

section
variable {s : State} {sl : Slot} (hs : s.status = .running) (hsl : s.slotHere? = some sl)
include hs hsl

theorem step_asmError {e : AsmError} (he : sl.asmError = some e) :
    step s = .next (s.skipAsmError sl e).retire :=
  step_of_issue_skip (by simp [State.issue, State.issueSlot, hs, hsl, he])

theorem step_unknown {e : UnknownWord} (he : sl.asmError = none) (hd : decode sl.word = .error e) :
    step s = .next (s.skipUnknown sl).retire :=
  step_of_issue_skip (issue_unknown hs hsl he hd)

theorem exec_of_step {t : State} {i : Instr} (he : sl.asmError = none) (hd : decode sl.word = .ok i)
    (h : step s = .next t) :
    ∃ u, exec i (s.snapshot sl.word (ctrlOf i)) = .next u ∧ t = u.retire := by
  obtain ⟨u, hu⟩ := exec_answers_next i (s.snapshot sl.word (ctrlOf i))
  exact ⟨u, hu, by simpa [step, State.issue, State.issueSlot, hs, hsl, he, hd, hu, eq_comm] using h⟩

end

/-- The word that R310 records for the event of an assembler error at the pc (log 8). -/
theorem eventWord?_of_sameProgram {s t : State} {sl : Slot} (hsl : s.slotHere? = some sl)
    (hp : SameProgram s t) : t.eventWord? ⟨.unknownInstruction, s.pc, .none⟩ = some sl.word := by
  simp [State.slotAt?_congr hp.imem hp.base, hsl]

/-- Settles O46: the step skips the slot with the event of its error, and the program that holds the
word is kept. -/
theorem slotsWithAssemblerErrorsAreSkipped : Obligations.SlotsWithAssemblerErrorsAreSkipped := by
  refine ⟨fun s sl hs hsl he => ⟨_, step_asmError hs hsl he, ?_⟩,
    fun s sl hs hsl he => ⟨_, step_asmError hs hsl he,
      skippedWith_retire hs sl.word .invalidOperand .none⟩⟩
  obtain ⟨htrace, hpc, hlast, hstatus, hregs, hflags, hmem, hexcl, himem, hbase, hsp⟩ :=
    skippedWith_retire hs sl.word .unknownInstruction .none
  exact ⟨htrace, hpc, hlast, hstatus, hregs, hflags, hmem, hexcl, himem, hbase, hsp,
    eventWord?_of_sameProgram hsl ⟨himem, hbase, hsp⟩⟩

/-! ### What a step adds to the trace -/

theorem mem_trace_of_atMostOneEvent {s u : State} (h : AtMostOneEvent s u) {e : Event}
    (he : e ∈ u.trace) : e ∈ s.trace ∨ e.kind ≠ .memoryWidthError := by
  rcases h with h | ⟨f, hf, h⟩ <;> rw [h] at he
  · exact .inl he
  · exact (List.mem_append.mp he).imp_right fun hm => by rwa [List.mem_singleton.mp hm]

/-- Settles O49: a step idles, or the one event it may add is of another kind. -/
theorem memoryWidthErrorNeverOccurs : Obligations.MemoryWidthErrorNeverOccurs := by
  intro s t h e he
  by_cases hs : s.status = .running
  · obtain ⟨sl, u, _, hu, rfl⟩ := step_running hs h
    exact mem_trace_of_atMostOneEvent hu.trace (u.retire_trace ▸ he)
  · rw [step_of_not_running hs, next_inj] at h
    exact .inl (h ▸ he)

/-- The trace of `t` is that of `s`, with at most one event more, at the pc of `s` (R318): a warning,
or the fatal InvalidBranchTarget, which leaves `t` Faulted (R313). -/
inductive Raises (s t : State) : Prop where
  | nothing (trace : t.trace = s.trace)
  | warning (k : EventKind) (info : EventInfo) (notFatal : k ≠ .invalidBranchTarget)
      (trace : t.trace = s.trace ++ [⟨k, s.pc, info⟩])
  | fatal (a : Word) (status : t.status = .faulted)
      (trace : t.trace = s.trace ++ [⟨.invalidBranchTarget, s.pc, .target a⟩])

theorem asmErrorKind_ne_invalidBranchTarget (e : AsmError) :
    asmErrorKind e ≠ .invalidBranchTarget := by
  cases e <;> decide

/-- The test for the end of the run neither makes nor hides a fault. -/
theorem retire_status_eq_faulted_iff (u : State) :
    u.retire.status = .faulted ↔ u.status = .faulted := by
  rw [State.retire_status]
  split
  · next h => simp [h.1]
  · rfl

theorem Raises.retire {s u : State} (h : Raises s u) : Raises s u.retire := by
  rcases h with ⟨trace⟩ | ⟨k, info, notFatal, trace⟩ | ⟨a, status, trace⟩ <;>
    rw [← u.retire_trace] at trace
  · exact .nothing trace
  · exact .warning k info notFatal trace
  · exact .fatal a ((retire_status_eq_faulted_iff u).mpr status) trace

/-- What an instruction raises, from the state with the snapshot taken. -/
theorem raises_of_control {s u : State} {w : InstrWord} {c : ControlSignals}
    (h : Control (s.snapshot w c) u) : Raises s u := by
  rcases h with ⟨_, _, trace, _⟩ | ⟨_, _, trace, _⟩ | ⟨a, _, rfl⟩ | ⟨_, rfl⟩
  · exact .nothing trace
  · exact .nothing trace
  · exact .fatal a rfl rfl
  · exact .warning .unresolvedLabel .none (by simp) rfl

theorem step_raises {s t : State} (h : step s = .next t) : Raises s t := by
  rcases step_shape h with ⟨_, rfl⟩ | ⟨sl, e, _, _, _, rfl⟩ | ⟨sl, _, _, _, _, _, rfl⟩ |
    ⟨sl, i, u, _, _, _, _, hu, rfl⟩
  · exact .nothing rfl
  · exact Raises.retire (.warning _ .none (asmErrorKind_ne_invalidBranchTarget e) rfl)
  · exact Raises.retire (.warning .unknownInstruction (.word sl.word) (by simp) rfl)
  · exact (raises_of_control (exec_control hu)).retire

theorem Raises.atPc {s t : State} (h : Raises s t) :
    t.trace = s.trace ∨ ∃ k info, t.trace = s.trace ++ [⟨k, s.pc, info⟩] := by
  rcases h with ⟨trace⟩ | ⟨k, info, _, trace⟩ | ⟨a, _, trace⟩
  · exact .inl trace
  · exact .inr ⟨k, info, trace⟩
  · exact .inr ⟨.invalidBranchTarget, .target a, trace⟩

/-! ### The order of the checks (R318) -/

/-- The trace of `t` is that of `s`, but for the fatal event at most. -/
def FatalAtMost (s t : State) : Prop :=
  t.trace = s.trace ∨ ∃ a, t.trace = s.trace ++ [⟨.invalidBranchTarget, s.pc, .target a⟩]

/-- Without a label, BR alone raises something: its invalid target. -/
theorem fatalAtMost_of_no_label {i : Instr} {s u : State} (h : exec i s = .next u)
    (hl : i.labelTarget? s = none) : FatalAtMost s u := by
  cases exec_shape h
  case branch label _ | branchLink label _ => simp [hl] at label
  case branchReg rn _ _ _ _ _ eq =>
    rcases s.taken_cases (s.readReg rn) s with ⟨_, e⟩ | ⟨_, e⟩ <;> rw [eq, e]
    · exact .inl rfl
    · exact .inr ⟨_, rfl⟩
  all_goals
    rename u = _ => eq
    exact .inl (by simp [eq])

/-- Only the fall-through of R261 raises UnresolvedLabel, and only a label branch falls through. -/
theorem fatalAtMost_of_not_unresolved {i : Instr} {s u : State} (h : exec i s = .next u)
    (hb : i.labelTarget? s = none ∨ s.unresolvedHere = false) : FatalAtMost s u := by
  rcases hb with hl | hu
  · exact fatalAtMost_of_no_label h hl
  · rcases exec_control h with ⟨_, _, trace, _⟩ | ⟨_, _, trace, _⟩ | ⟨a, _, rfl⟩ | ⟨bit, _⟩
    · exact .inl trace
    · exact .inl trace
    · exact .inr ⟨a, rfl⟩
    · simp [hu] at bit

/-- The target of a label branch does not depend on the snapshot (R39). -/
@[simp] theorem labelTarget?_snapshot (i : Instr) (s : State) (w : InstrWord) (c : ControlSignals) :
    i.labelTarget? (s.snapshot w c) = i.labelTarget? s := rfl

/-- Nor does the unresolved bit, which is that of the slot at the pc. -/
theorem unresolvedHere_snapshot {s : State} {sl : Slot} (hsl : s.slotHere? = some sl)
    (w : InstrWord) (c : ControlSignals) : (s.snapshot w c).unresolvedHere = sl.unresolved := by
  have : (s.snapshot w c).slotHere? = some sl := hsl
  simp [State.unresolvedHere, this]

/-- Settles O47: each check answers by itself what the step does, and the next one is reached only
where it finds nothing. -/
theorem oneEventPerStepInOrder : Obligations.OneEventPerStepInOrder := by
  refine ⟨fun s t h => (step_raises h).atPc, fun s t sl hs hsl h =>
    ⟨fun e he => ⟨.none, ?_⟩, fun e he hd => ⟨.word sl.word, ?_⟩, fun i target he hd hl hu => ?_,
      fun i he hd hb => ?_⟩⟩
  · obtain rfl := next_inj.mp ((step_asmError hs hsl he).symm.trans h)
    exact State.retire_trace _
  · obtain rfl := next_inj.mp ((step_unknown hs hsl he hd).symm.trans h)
    exact State.retire_trace _
  · obtain ⟨u, hexec, rfl⟩ := exec_of_step hs hsl he hd h
    rw [← labelTarget?_snapshot i s sl.word (ctrlOf i)] at hl
    have hfall := exec_eq_fallThroughUnresolved hl ((unresolvedHere_snapshot hsl _ _).trans hu)
    obtain rfl := next_inj.mp (hfall.symm.trans hexec)
    exact State.retire_trace _
  · obtain ⟨u, hexec, rfl⟩ := exec_of_step hs hsl he hd h
    have hfatal : FatalAtMost (s.snapshot sl.word (ctrlOf i)) u :=
      fatalAtMost_of_not_unresolved hexec
        (by rwa [labelTarget?_snapshot, unresolvedHere_snapshot hsl])
    rwa [State.retire_trace]

/-! ### The fatal event (R313) -/

/-- An instruction that ends Faulted from the Running `s` left the state with its snapshot as it was,
but for the status and the event: its rule answered `Taken` with an invalid target. -/
theorem exec_faulted {i : Instr} {s u : State} {w : InstrWord} {c : ControlSignals}
    (hs : s.status = .running) (h : exec i (s.snapshot w c) = .next u)
    (hf : u.status = .faulted) :
    ∃ a, i.takenTo? s = some a ∧ s.validTarget a = false ∧
      u = (s.snapshot w c).invalidBranchTarget a := by
  have hne : u.status ≠ (s.snapshot w c).status := by simp [hf, hs]
  rcases exec_goes h with ⟨_, _, status, _⟩ | ⟨_, _, _, _, status, _⟩ | ⟨a, target, valid, eq⟩
  · exact absurd status hne
  · exact absurd status hne
  · exact ⟨a, target, valid, eq⟩

/-- A Running step that ends Faulted ran an instruction: the skips keep the status. -/
theorem step_faulted {s t : State} (hs : s.status = .running) (h : step s = .next t)
    (hf : t.status = .faulted) :
    ∃ sl i a, s.slotHere? = some sl ∧ decode sl.word = .ok i ∧ i.takenTo? s = some a ∧
      s.validTarget a = false ∧ t = (s.snapshot sl.word (ctrlOf i)).invalidBranchTarget a := by
  rcases step_shape h with ⟨hn, _⟩ | ⟨sl, e, _, _, _, rfl⟩ | ⟨sl, e, _, _, _, _, rfl⟩ |
    ⟨sl, i, u, _, hsl, _, hd, hu, rfl⟩
  case idle => exact absurd hs hn
  all_goals rw [retire_status_eq_faulted_iff] at hf
  case asmError | unknown => exact absurd (hs.symm.trans hf) (by simp)
  case instr =>
    obtain ⟨a, target, valid, rfl⟩ := exec_faulted hs hu hf
    exact ⟨sl, i, a, hsl, hd, target, valid, by simp [State.retire]⟩

/-- Settles O48: the faulted state is the one with the snapshot taken and the fatal event raised; only
that event is of its kind, and it leaves the run Faulted. -/
theorem fatalFaultIsPrecise : Obligations.FatalFaultIsPrecise := by
  refine ⟨fun s t hs h hf => ⟨?_, stepTimes_of_not_running (by simp [hf])⟩, fun s t info h ht => ?_⟩
  · obtain ⟨sl, i, a, hsl, hd, target, valid, eq⟩ := step_faulted hs h hf
    exact ⟨sl, i, a, hsl, hd, target, valid, ctrlOf_branchTaken i, eq⟩
  · rcases step_raises h with ⟨trace⟩ | ⟨k, _, notFatal, trace⟩ | ⟨_, status, _⟩
    · simp [trace] at ht
    · simp [trace, notFatal] at ht
    · exact status

end Sys2Proof.Proofs
end

section
/-! Replay (70_reset_and_hazards.md R343, R344): the host's early stop changes nothing, and a last step
may be taken apart from the steps before it. -/

namespace Sys2Proof.Proofs

open Sys2Proof Sys2Proof.Machine

/-- The host's repetition stops early only where further steps would change nothing (R343, R38). -/
theorem runSteps_eq_stepTimes (n : Nat) (s : State) : runSteps n s = stepTimes n s := by
  induction n generalizing s with
  | zero => rfl
  | succ n ih =>
    by_cases hs : s.status = .running
    · cases hstep : step s with
      | next t => simp [runSteps, stepTimes, hs, hstep, ih]
      | fault | refused => simp [runSteps, stepTimes, hs, hstep]
    · rw [stepTimes_of_not_running hs, runSteps, if_neg hs]

theorem stepTimes_one (s : State) : stepTimes 1 s = step s := by
  rw [stepTimes]
  cases step s <;> rfl

/-- The recursion takes the first step apart; this takes the last. -/
theorem stepTimes_succ_of_next {n : Nat} {s t : State} (h : stepTimes n s = .next t) :
    stepTimes (n + 1) s = step t := by
  induction n generalizing s with
  | zero =>
    obtain rfl := next_inj.mp h
    exact stepTimes_one s
  | succ n ih =>
    cases hu : step s with
    | next u =>
      rw [stepTimes_succ hu] at h ⊢
      exact ih h
    | fault | refused => simp [stepTimes, hu] at h

/-- Settles O58: reset is loadProgram of the program already loaded, the host's repetition is
`stepTimes`, and step n + 2 of a replay is one step from where step n + 1 ended. -/
theorem replayIsDeterministic : Obligations.ReplayIsDeterministic := by
  have hjump (s : State) (n : Nat) :
      s.jumpToStep n = stepTimes (n + 1) (s.loadProgram s.imem) :=
    runSteps_eq_stepTimes (n + 1) s.hostReset
  refine ⟨hjump, fun s t n h => ?_⟩
  rw [hjump] at h ⊢
  exact (stepTimes_succ_of_next h).symm

end Sys2Proof.Proofs
end
